-- ==== Sys2Proof/Word.lean ====
section
/-! DEFINITION. The word types of the block: a 32-bit host register (R31), a chip byte (R87), a chip-bus address
(R87, BUS_ADDR_WIDTH = 16) and the LFSR state (R130, GOLD_WIDTH = 18). -/

namespace Sys2Proof

/-- A 32-bit host register or command word (R31, R110). -/
abbrev Word := BitVec 32

/-- One chip-register byte (R87). -/
abbrev Byte := BitVec 8

/-- A chip-bus address, BUS_ADDR_WIDTH = 16 bits (R87). -/
abbrev BusAddr := BitVec 16

/-- The 18-bit LFSR state (R130). -/
abbrev GoldCode := BitVec 18

end Sys2Proof
end

