-- ==== Sys2Proof/Config.lean ====
section
/-! DEFINITION. The parameters of R8: the constants the source or a decision fixes are definitions here, the OPEN
ones and the ones a configuration may override are fields of Config, and the board's own OPEN values are the opaque
constant Config.board (log entry 1). The free values of the model stand here too (log entries 4 and 5). -/

namespace Sys2Proof

/-- One chip-bus transaction: BusRead, BusWrite, BusBurst, BusRmw (R88, R89), the items of a bus program (R92). -/
inductive Txn where
  | read (a : BusAddr)
  | write (a : BusAddr) (b : Byte)
  | burst (a : BusAddr) (bytes : List Byte)
  | rmw (a : BusAddr) (m v : Byte)
  deriving DecidableEq, Repr, Inhabited

/-- A bus program: a finite list of transactions (R92). -/
abbrev BusProgram := List Txn

/-- The byte order of a field descriptor (R90). -/
inductive ByteOrder where
  | le
  | be
  deriving DecidableEq, Repr, Inhabited

/-- A field descriptor (addr, nbytes, order, rshift, width) (R90). -/
structure FieldDesc where
  addr : BusAddr
  nbytes : Nat
  order : ByteOrder
  rshift : Nat
  width : Nat
  deriving DecidableEq, Repr, Inhabited

/-- One row of PLL_BANDS (R8, R150). -/
structure Band where
  loMhz : Nat
  div1 : Nat
  lomod1 : Nat
  div2 : Nat
  lomod2 : Nat
  deriving DecidableEq, Repr, Inhabited

/-- GOLD_OVERRANGE (R8, R134). -/
inductive GoldOverrange where
  | clampIndex
  | advance
  deriving DecidableEq, Repr, Inhabited

/-- GAIN_SUM_MODE (R8, R252). -/
inductive GainSumMode where
  | inclusive
  | exclusive
  deriving DecidableEq, Repr, Inhabited

/-- The gold-code parameters (R8) and the checkpoint table CP[0..52] (R94, R132). -/
structure GoldConfig where
  seed : GoldCode
  tap : Fin 18
  overrange : GoldOverrange
  checkpoints : Vector GoldCode 53
  deriving DecidableEq, Repr, Inhabited

/-- The PLL, clock and filter parameters (R8). -/
structure ClockConfig where
  bands : Vector Band 9
  refDiv27 : Byte
  refDiv24 : Byte
  mclkHighKhz : Nat
  mclkCand : Vector Nat 3
  lpfOffsetHighKhz : Nat
  lpfMulNum : Nat
  lpfMulDen : Nat
  lpfMarginKhz : Nat
  lpfBwMinKhz : Nat
  lpfBwMaxKhz : Nat
  srMin : Nat
  srMax : Nat
  deriving DecidableEq, Repr, Inhabited

/-- The chip-register addresses and field descriptors (R93). -/
structure ChipMap where
  pllRefdivAddr : BusAddr
  pllP1LoAddr : BusAddr
  pllP1HiAddr : BusAddr
  pllP2LoAddr : BusAddr
  pllP2HiAddr : BusAddr
  tsTapAddr : Vector BusAddr 4
  tsNstageAddr : BusAddr
  plsAddr : Vector BusAddr 3
  lockStatusAddr : BusAddr
  fInvSrc : FieldDesc
  invDstAddr : BusAddr
  invDstMask : Byte
  fIsiCount : FieldDesc
  isiSlotAddr : BusAddr
  isiSelAddr : BusAddr
  fRf : FieldDesc
  fIf : FieldDesc
  fBb : FieldDesc
  fTia : FieldDesc
  fPga2Int : FieldDesc
  fPga2Frac : FieldDesc
  fBbp : FieldDesc
  fNeS1 : FieldDesc
  fSigS2 : FieldDesc
  fNoiseHi : FieldDesc
  fNoiseLo : FieldDesc
  fBerWinS1 : FieldDesc
  fBerErrS1 : FieldDesc
  fBerWinS2 : FieldDesc
  fBerErrS2 : FieldDesc
  deriving DecidableEq, Repr, Inhabited

/-- The fixed bus programs (R92). LPF_PROG is a function of the bandwidth: lpf pins its value at the bandwidths it
lists, and Config.lpfProg, a constant with no body, gives it everywhere else (log entry 4). -/
structure Programs where
  resetPulse : BusProgram
  tsClear : BusProgram
  mclk : Vector BusProgram 4
  agcCautious : BusProgram
  bulkPreset : BusProgram
  delsys : Vector BusProgram 2
  agcNormal : BusProgram
  berRestartS1 : BusProgram
  berRestartS2 : BusProgram
  lpf : List (Nat × BusProgram)
  deriving DecidableEq, Repr, Inhabited

/-- The calibration tables and constants of the estimator (R8, R94). -/
structure QualityConfig where
  gainSumMode : GainSumMode
  gainRfTab : Vector (List Int) 3
  gainIfTab : Vector (List Int) 3
  gainBbTab : Vector (List Int) 3
  tiaStep : Int
  pga2IntStep : Int
  pga2FracStep : Int
  bbpTab : Vector (Vector Int 16) 16
  gainOffset : Vector Int 3
  lnTab : Vector Int 33
  lnScaleNum : Int
  lnScaleDen : Int
  log10Tab : Vector Int 80
  noiseLoWidth : Nat
  cnrBothZero : Int
  cnrNoiseZero : Int
  cnrSigZero : Int
  berS1Threshold : Nat
  berBitsPerCountS1 : Nat
  berBitsPerCountS2 : Nat
  deriving DecidableEq, Repr, Inhabited

/-- The sequencer's options (R8). -/
structure SequencerOptions where
  plsDefault : Vector Byte 3
  isiMaxSlots : Nat
  auxPresent : Bool
  auxFreqHz : Nat
  deriving DecidableEq, Repr, Inhabited

/-- A configuration of the block (R8): every parameter a model takes as an argument. -/
structure Config where
  gold : GoldConfig
  clock : ClockConfig
  chipMap : ChipMap
  programs : Programs
  quality : QualityConfig
  options : SequencerOptions
  deriving DecidableEq, Repr, Inhabited

/-- TUNE_FREQ_MIN_HZ (R8, R203). -/
def Config.tuneFreqMinHz : Nat := 950000000

/-- TUNE_FREQ_MAX_HZ (R8, R203). -/
def Config.tuneFreqMaxHz : Nat := 2150000000

/-- GOLD_CP_SPACING (R8, R132). -/
def Config.goldSpacing : Nat := 5000

/-- The start step of the last checkpoint, 52 * 5000 (R8, R134). -/
def Config.goldLastIndex : Nat := 260000

/-- MCLK_SR_THRESHOLD (R8, R161). -/
def Config.mclkSrThreshold : Nat := 46000000

/-- TSCLK_K (R8, R165). -/
def Config.tsclkK : Nat := 9000

/-- TS_MIN_TAP_SERIAL and TS_MIN_TAP_PARALLEL (R8, R168). -/
def Config.tsMinTap (serial : Bool) : Nat := if serial then 8 else 9

/-- LPF_LOW_SR_THRESHOLD (R8, R175). -/
def Config.lpfLowSrThreshold : Nat := 5000000

/-- LPF_LOW_SR_OFFSET_KHZ (R8, R175). -/
def Config.lpfLowSrOffsetKhz : Nat := 3000

/-- POLL_MAX (R8, R218). -/
def Config.pollMax : Byte := 150

/-- POLL_PERIOD_MS / TICK_PERIOD_MS = 20 / 1 ticks (R8, R218, R221). -/
def Config.pollTicks : Byte := 20

/-- LOCK_S2 (R8, R219). -/
def Config.lockS2 : Byte := 0x8F

/-- LOCK_S1 (R8, R219). -/
def Config.lockS1 : Byte := 0xF7

/-- CNR_SAMPLES (R8, R260). -/
def Config.cnrSamples : Nat := 10

/-- CNR_S1_CLAMP (R8, R261). -/
def Config.cnrS1Clamp : Nat := 32

/-- CNR_RATIO_CLAMP (R8, R267). -/
def Config.cnrRatioClamp : Nat := 80

/-- NOISE_WIDTH (R8, R265). -/
def Config.noiseWidth : Nat := 14

/-- BER_S2_THRESHOLD (R8, R270). -/
def Config.berS2Threshold : Nat := 4000

/-- GAIN_REGIME_LO_MHZ (R8, R251). -/
def Config.gainRegimeLoMhz : Nat := 1350

/-- GAIN_REGIME_HI_MHZ (R8, R251). -/
def Config.gainRegimeHiMhz : Nat := 1750

/-- BLOCK_ID (R2, R44). -/
def Config.blockId : Word := 0x4D540007

/-- The checkpoint table CP[0..52] of R132, for GOLD_SEED = 0x00001 and GOLD_TAP = 17. -/
def Config.checkpointsTap17 : Vector GoldCode 53 :=
  #v[0x00001, 0x0E1D8, 0x16E40, 0x3364A, 0x0DF3F, 0x3F41B, 0x3D38B, 0x322C3,
     0x139AA, 0x3C553, 0x3FE89, 0x1934E, 0x2BC86, 0x1D2A8, 0x39306, 0x1B4BA,
     0x187B4, 0x028E4, 0x2ED09, 0x2DBA0, 0x3BFBE, 0x2DAA4, 0x1E097, 0x1234B,
     0x373E8, 0x160EE, 0x0B883, 0x1A5DF, 0x2F0D7, 0x0E9A6, 0x0B688, 0x19A82,
     0x1B51F, 0x3EE68, 0x05720, 0x2A45D, 0x23F7D, 0x30E2D, 0x278F3, 0x1B3C7,
     0x2B6AB, 0x0F30F, 0x378E3, 0x3E6D9, 0x0BE15, 0x1C11D, 0x1D346, 0x3A062,
     0x29B83, 0x0B4F9, 0x09B54, 0x0E6AE, 0x073F5]

/-- The checkpoint table for the kept alternative GOLD_TAP = 7 (section 2 of 95_test_vectors.md, I1). -/
def Config.checkpointsTap7 : Vector GoldCode 53 :=
  #v[0x00001, 0x0E00D, 0x01551, 0x0C9CF, 0x33367, 0x2C902, 0x1C6E5, 0x3C0DB,
     0x25F7C, 0x0658D, 0x09614, 0x361F7, 0x028BC, 0x1A977, 0x105E7, 0x18588,
     0x2BB2F, 0x007E1, 0x167D5, 0x33794, 0x23957, 0x003C7, 0x012BF, 0x00E50,
     0x0C4CA, 0x0C346, 0x1C62F, 0x1E57C, 0x136B9, 0x1E59D, 0x132C4, 0x0B313,
     0x29F0C, 0x3B5B2, 0x17EAC, 0x1A2B6, 0x13EB6, 0x22C17, 0x22AD7, 0x26193,
     0x29267, 0x10738, 0x15AB4, 0x231ED, 0x24D9E, 0x20817, 0x0B937, 0x0ED2C,
     0x064E0, 0x13990, 0x10E35, 0x29E1C, 0x07858]

/-- FREE VALUE (R8, I27; log entry 1): the OPEN parameters of the board the block is fitted to. It has no body. -/
opaque Config.board : Config

/-- FREE VALUE (R92, I27; log entry 4): the OPEN function LPF_PROG where a configuration does not pin it. It has no body. -/
opaque Config.lpfProg : Nat → BusProgram

/-- FREE VALUE (R11, R12, R41; log entry 5): what a 32-bit register holds after it is given a non-negative integer of 2^32 or
more. The spec states no such result. It has no body. -/
opaque Config.wideResult : Nat → Word

/-- The configuration at reset: the defaults R8 gives (GOLD_SEED, GOLD_TAP, GOLD_OVERRANGE, the checkpoints that follow from
them by R132, LPF_OFFSET_HIGH_KHZ, GAIN_SUM_MODE) over the board's own OPEN values (log entry 1). -/
def Config.atReset : Config :=
  { Config.board with
    gold := { seed := 0x00001, tap := 17, overrange := .clampIndex, checkpoints := Config.checkpointsTap17 }
    clock := { Config.board.clock with lpfOffsetHighKhz := 0 }
    quality := { Config.board.quality with gainSumMode := .inclusive } }

end Sys2Proof
end

