-- ==== Sys2Proof/Syntax.lean ====
section
/-! DEFINITION. The commands of the block, one constructor per row of the opcode map (R115). A command has no immediate
field (R112), so no constructor takes an argument. -/

namespace Sys2Proof

/-- The fourteen commands (R115). -/
inductive Instr where
  /-- R300 -/
  | nop
  /-- R133 -/
  | gold
  /-- R154 -/
  | pll
  /-- R162 -/
  | mclk
  /-- R169 -/
  | tsclk
  /-- R178 -/
  | lpf
  /-- R201 -/
  | tune
  /-- R231 -/
  | abort
  /-- R255 -/
  | gain
  /-- R262 -/
  | cnrS1
  /-- R268 -/
  | cnrS2
  /-- R279 -/
  | berS1
  /-- R280 -/
  | berS2
  /-- R301 -/
  | reset
  deriving DecidableEq, Repr

end Sys2Proof
end

