-- ==== Sys2Proof/WellFormed.lean ====
section
/-! DEFINITION. What is well formed: a command (R112), a command word's MBZ field (R110), a host access (R80, R81), and a
configuration of the block (R9, with the shapes of R8, R90 and R93). -/

namespace Sys2Proof

/-- A command has no operand field (R112), so every command is well formed. -/
def Instr.wf : Instr → Bool
  | .nop | .gold | .pll | .mclk | .tsclk | .lpf | .tune | .abort => true
  | .gain | .cnrS1 | .cnrS2 | .berS1 | .berS2 | .reset => true

/-- The MBZ field, bits 31:8 of a command word, is zero (R110). -/
def mbzZero (w : Word) : Bool := w.extractLsb' 8 24 == 0

/-- A host access of the interface: 32 bits wide, at a multiple of 4 (R81). -/
def accessShape (off nbytes : Nat) : Bool := nbytes == 4 && off % 4 == 0

/-- An offset of the 128-byte window (R80). -/
def inWindow (off : Nat) : Bool := off < 128

/-- A descriptor within the ranges of R90. -/
def FieldDesc.wf (f : FieldDesc) : Bool :=
  1 ≤ f.nbytes && f.nbytes ≤ 4 && f.rshift ≤ 31 && 1 ≤ f.width && f.width ≤ 32

/-- A burst carries at least one byte (R89). -/
def Txn.wf : Txn → Bool
  | .burst _ bytes => !bytes.isEmpty
  | .read _ => true
  | .write _ _ => true
  | .rmw _ _ _ => true

/-- Every transaction of a bus program is one R89 allows. -/
def programWf (p : BusProgram) : Bool := p.all Txn.wf

/-- A signed 32-bit table entry (R8). -/
def signed32 (v : Int) : Bool := -2147483648 ≤ v && v ≤ 2147483647

/-- The dividers a band may have (R8). -/
def dividerOk (d : Nat) : Bool := d == 2 || d == 3 || d == 4 || d == 6 || d == 8 || d == 12

/-- lo_mhz strictly decreasing down a list of rows (R9). -/
def decreasing : List Band → Bool
  | [] => true
  | [_] => true
  | a :: b :: rest => b.loMhz < a.loMhz && decreasing (b :: rest)

/-- PLL_BANDS: strictly decreasing, the last row at 0, dividers of the list (R8, R9). -/
def Config.bandsOk (c : Config) : Bool :=
  decreasing c.clock.bands.toList && c.clock.bands[8].loMhz == 0
    && c.clock.bands.toList.all fun b => dividerOk b.div1 && dividerOk b.div2

/-- Every master clock is nonzero (R9). -/
def Config.clocksOk (c : Config) : Bool :=
  c.clock.mclkHighKhz != 0 && c.clock.mclkCand.toList.all (· != 0)

/-- LPF_MUL_DEN is nonzero and the bandwidth range is a range (R9). -/
def Config.lpfOk (c : Config) : Bool :=
  c.clock.lpfMulDen != 0 && c.clock.lpfBwMinKhz ≤ c.clock.lpfBwMaxKhz

/-- SR_MIN ≤ SR_MAX (R8). -/
def Config.symbolRatesOk (c : Config) : Bool := c.clock.srMin ≤ c.clock.srMax

/-- LN_SCALE_DEN is nonzero (R9). -/
def Config.lnScaleOk (c : Config) : Bool := c.quality.lnScaleDen != 0

/-- Every gain table has an entry (R9). -/
def Config.gainTablesOk (c : Config) : Bool :=
  c.quality.gainRfTab.toList.all (!·.isEmpty) && c.quality.gainIfTab.toList.all (!·.isEmpty)
    && c.quality.gainBbTab.toList.all (!·.isEmpty)

/-- Every calibration entry and step is a signed 32-bit value (R8). -/
def Config.entriesOk (c : Config) : Bool :=
  c.quality.gainRfTab.toList.all (·.all signed32) && c.quality.gainIfTab.toList.all (·.all signed32)
    && c.quality.gainBbTab.toList.all (·.all signed32)
    && c.quality.bbpTab.toList.all (·.toList.all signed32) && c.quality.gainOffset.toList.all signed32
    && c.quality.lnTab.toList.all signed32 && c.quality.log10Tab.toList.all signed32
    && [c.quality.tiaStep, c.quality.pga2IntStep, c.quality.pga2FracStep, c.quality.cnrBothZero,
        c.quality.cnrNoiseZero, c.quality.cnrSigZero].all signed32

/-- NOISE_LO_WIDTH is 0..14 (R8). -/
def Config.noiseOk (c : Config) : Bool := c.quality.noiseLoWidth ≤ 14

/-- ISI_MAX_SLOTS is 1..256 (R8). -/
def Config.isiOk (c : Config) : Bool := 1 ≤ c.options.isiMaxSlots && c.options.isiMaxSlots ≤ 256

/-- The field descriptors, in the order of R93. -/
def ChipMap.fields (m : ChipMap) : List FieldDesc :=
  [m.fInvSrc, m.fIsiCount, m.fRf, m.fIf, m.fBb, m.fTia, m.fPga2Int, m.fPga2Frac, m.fBbp, m.fNeS1,
   m.fSigS2, m.fNoiseHi, m.fNoiseLo, m.fBerWinS1, m.fBerErrS1, m.fBerWinS2, m.fBerErrS2]

/-- Every descriptor is within R90's ranges, and the widths R93 fixes are as it fixes them. -/
def Config.fieldsOk (c : Config) : Bool :=
  c.chipMap.fields.all FieldDesc.wf && c.chipMap.fInvSrc.width == 1 && c.chipMap.fBbp.width == 8
    && c.chipMap.fSigS2.width == 8

/-- Every bus program holds only transactions R89 allows. -/
def Config.programsOk (c : Config) : Bool :=
  [c.programs.resetPulse, c.programs.tsClear, c.programs.agcCautious, c.programs.bulkPreset,
   c.programs.agcNormal, c.programs.berRestartS1, c.programs.berRestartS2].all programWf
    && c.programs.mclk.toList.all programWf && c.programs.delsys.toList.all programWf
    && c.programs.lpf.all fun e => programWf e.2

/-- A configuration of the block (R9), but for the checkpoint table, whose condition (R132) is GoldTableOk in
Machine/Lfsr.lean. -/
def Config.valid (c : Config) : Bool :=
  c.bandsOk && c.clocksOk && c.lpfOk && c.symbolRatesOk && c.lnScaleOk && c.gainTablesOk && c.entriesOk
    && c.noiseOk && c.isiOk && c.fieldsOk && c.programsOk

end Sys2Proof
end

