-- ==== Sys2Proof/Decode.lean ====
section
/-! DEFINITION. The command decoder (R111, R120), the opcode numbers (R115), the encoder, and the byte layout of a command
word (R82). -/

namespace Sys2Proof

/-- Why a word decodes to no command (R116). -/
inductive DecodeError where
  /-- bits 31:8 are not zero -/
  | mbzNotZero
  /-- the opcode is not in the opcode map -/
  | reservedOpcode (opc : Byte)
  /-- fewer than four bytes -/
  | shortWord
  deriving DecidableEq, Repr

/-- OPC, bits 7:0 of a command word (R110). -/
def opcField (w : Word) : Byte := w.extractLsb' 0 8

/-- The opcode map read from the opcode (R115, R120). -/
def decodeOpc (opc : Byte) : Except DecodeError Instr :=
  if opc = 0x00#8 then .ok .nop
  else if opc = 0x01#8 then .ok .gold
  else if opc = 0x02#8 then .ok .pll
  else if opc = 0x03#8 then .ok .mclk
  else if opc = 0x04#8 then .ok .tsclk
  else if opc = 0x05#8 then .ok .lpf
  else if opc = 0x10#8 then .ok .tune
  else if opc = 0x11#8 then .ok .abort
  else if opc = 0x20#8 then .ok .gain
  else if opc = 0x21#8 then .ok .cnrS1
  else if opc = 0x22#8 then .ok .cnrS2
  else if opc = 0x23#8 then .ok .berS1
  else if opc = 0x24#8 then .ok .berS2
  else if opc = 0xFF#8 then .ok .reset
  else .error (.reservedOpcode opc)

/-- The decoder from a command word (R111, R120). -/
def decode (w : Word) : Except DecodeError Instr :=
  if mbzZero w then decodeOpc (opcField w) else .error .mbzNotZero

/-- Four bytes of the little-endian window as a word (R82). -/
def wordOfBytes (b0 b1 b2 b3 : Byte) : Word := b3 ++ b2 ++ b1 ++ b0

/-- Byte j of a word in the little-endian window (R82). -/
def byteOfWord (w : Word) (j : Nat) : Byte := w.extractLsb' (8 * j) 8

/-- The four bytes of a word, lowest offset first (R82). -/
def bytesOfWord (w : Word) : List Byte := [byteOfWord w 0, byteOfWord w 1, byteOfWord w 2, byteOfWord w 3]

/-- The command at the head of a byte list, with the bytes after it (R82, R110: every command is one 32-bit word). -/
def decodeBytes : List Byte → Except DecodeError (Instr × List Byte)
  | b0 :: b1 :: b2 :: b3 :: rest => (decode (wordOfBytes b0 b1 b2 b3)).map fun i => (i, rest)
  | _ => .error .shortWord

/-- OPC of a command (R115). -/
def opcOf : Instr → Byte
  | .nop => 0x00
  | .gold => 0x01
  | .pll => 0x02
  | .mclk => 0x03
  | .tsclk => 0x04
  | .lpf => 0x05
  | .tune => 0x10
  | .abort => 0x11
  | .gain => 0x20
  | .cnrS1 => 0x21
  | .cnrS2 => 0x22
  | .berS1 => 0x23
  | .berS2 => 0x24
  | .reset => 0xFF

/-- The command word of a command: zext_32(OPC) (R115). -/
def encode (i : Instr) : Word := (opcOf i).setWidth 32

/-- The word of a table row, nbits bits of w, every bit above them 0. -/
def tableWord (nbits w : Nat) : Word := BitVec.ofNat 32 (w % 2 ^ nbits)

/-- The command the decoder reads from the bytes of a table row's word. -/
def decodeTableWord (nbits w : Nat) : Option Instr :=
  match decodeBytes (bytesOfWord (tableWord nbits w)) with
  | .ok (i, _) => some i
  | .error _ => none

end Sys2Proof
end

