-- ==== Sys2Proof/Machine/State.lean ====
section
/-! DEFINITION. The state of the block and of what stands at its ports, the reasons a step can stop, and the state after
reset (10_state.md). Plain data throughout. -/

namespace Sys2Proof.Machine

/-- Why the machine stops with a fault. -/
inductive Fault where
  /-- Raised by a host access at an offset outside the 128-byte window (R80): the address does not exist. Safe. -/
  | outsideWindow (off : Nat)
  deriving DecidableEq, Repr

/-- Why a step is refused. -/
inductive Refusal where
  /-- Raised by an arm of exec that has no meaning yet; no arm is left without one. Safe. -/
  | notModelled (mnemonic : String)
  /-- Raised by a host access that is not 32 bits wide at a multiple of 4, which R81 puts outside the interface. Safe. -/
  | hostAccessShape (off nbytes : Nat)
  deriving DecidableEq, Repr

/-- LockState (R49). -/
inductive LockState where
  | idle
  | programming
  | polling
  | locked
  | timedOut
  | failed
  deriving DecidableEq, Repr

/-- The values STATUS.ERRCODE can hold (R313). -/
inductive ErrCode where
  | noError
  | illegal
  | notReady
  | param
  | transport
  | aborted
  deriving DecidableEq, Repr

/-- The steps the sequencer step register names (R50). -/
inductive SeqStep where
  | idle
  | check
  | pReset
  | pTsclr
  | pMclk
  | pAgcCautious
  | pPll
  | pTsclk
  | pLpf
  | pBulk
  | pDelsys
  | pPls
  | pollRead
  | pollWait
  | postInv
  | postIsi
  | postAgc
  | postAux
  deriving DecidableEq, Repr

/-- The checks a PARAM error names (R317). -/
inductive ParamCheck where
  | tuneFrequency
  | tuneSymbolRate
  | tuneDelsys
  | tuneModulation
  | refClock
  | dividerLow
  | dividerHigh
  | mclkZero
  deriving DecidableEq, Repr

/-- The latched tune request TR (R51). -/
structure TuneRequest where
  freqHz : Word
  sr : Word
  delsys : BitVec 2
  mod : BitVec 3
  isi : Byte
  nofilter : Bool
  scrIdx : Word
  fb : Word
  tsSerial : Bool
  xtal24 : Bool
  deriving DecidableEq, Repr

/-- The tune plan PLAN (R52). -/
structure TunePlan where
  realFreqKhz : Nat
  pllMhz : Nat
  lpfOffsetKhz : Nat
  bwKhz : Nat
  mclkKhz : Nat
  mclkCand : Nat
  refDiv : Byte
  band : Nat
  n1 : Nat
  n2 : Nat
  lo1 : Byte
  hi1 : Byte
  lo2 : Byte
  hi2 : Byte
  tsDiv : Nat
  tsN : Nat
  tsRaw : Vector Nat 4
  tsEnc : Vector Nat 4
  pls : Vector Byte 3
  deriving DecidableEq, Repr

/-- The two delivery systems of the BER rules (R270). -/
inductive Dvb where
  | s1
  | s2
  deriving DecidableEq, Repr

/-- Where the running command stands between two stimuli: which transactions todo holds, or what the engine waits for. This
is the command's progress that R91, R221 and R310 imply; the block has no register for it but seq. -/
inductive Phase where
  /-- no command waits for anything -/
  | idle
  /-- a computation is in progress (R372: it may take any finite duration) -/
  | computing
  /-- the fixed transactions of programming step seq (R207 to R216) -/
  | program
  /-- the lock-status read (R218) -/
  | pollRead
  /-- waiting for ticks (R221) -/
  | pollWait
  /-- reading F_INV_SRC (R224) -/
  | invRead
  /-- the inversion read-modify-write (R224) -/
  | invWrite
  /-- reading F_ISI_COUNT (R225) -/
  | isiCount
  /-- reading ISI slot i of cnt, first being slot 0's byte once it is read (R225) -/
  | isiSlot (i cnt : Nat) (first : Byte)
  /-- writing the selected ISI (R225) -/
  | isiSelect (sel : Byte)
  /-- PROG_AGC_NORMAL (R228) -/
  | agcNormal
  /-- the seven field reads of GAIN (R255) -/
  | gain
  /-- the ten samples of CNR_S1 (R262) -/
  | cnrS1
  /-- the ten samples of CNR_S2 (R268) -/
  | cnrS2
  /-- reading the BER window count (R271) -/
  | berWindow (d : Dvb)
  /-- reading the BER error count (R274) -/
  | berErrors (d : Dvb) (win : Nat)
  /-- the BER restart program (R277) -/
  | berRestart (d : Dvb) (win err : Nat)
  deriving DecidableEq, Repr

/-- What the chip does with one transaction (R88, R89): whether it succeeds, the byte it holds at the address (a read's
answer, a read-modify-write's old byte), and on failure how many bytes were delivered (I12). -/
structure Answer where
  ok : Bool
  byte : Byte
  delivered : Nat
  deriving DecidableEq, Repr

/-- What reaches the block from outside (R16, R58), one thing at a time, in the order it arrives. -/
inductive Stimulus where
  /-- the host reads nbytes bytes at an offset -/
  | hostRead (off nbytes : Nat)
  /-- the host writes nbytes bytes at an offset -/
  | hostWrite (off nbytes : Nat) (v : Word)
  /-- the chip ends the outstanding transaction -/
  | chipAnswer (a : Answer)
  /-- one pulse of the tick input -/
  | tick
  /-- the chip_ready input takes a level -/
  | chipReadyLevel (level : Bool)
  /-- the rst_n input takes a level -/
  | rstNLevel (level : Bool)
  /-- the computation that begins here takes longer than the next stimulus (R372) -/
  | computeHold
  /-- the computation in progress ends (R372) -/
  | computeDone
  deriving DecidableEq, Repr

/-- What the block shows at its ports (R58), in the order it happens. -/
inductive PortEvent where
  /-- a transaction is issued on the chip bus -/
  | bus (t : Txn)
  /-- the event aux_set(hz) (R232) -/
  | auxSet (hz : Nat)
  /-- the value a host read returns -/
  | hostData (off : Nat) (v : Word)
  deriving DecidableEq, Repr

/-- The bytes the block has delivered to chip registers, by address. An address not listed has been sent nothing. -/
abbrev Memory := List Host.Cell

/-- The state. The items of R30 stand first, then the engine's progress, then the world at the ports. -/
structure State where
  /-- the parameters of R8; no step changes them -/
  cfg : Config
  /-- CTRL (R32) -/
  ctrl : Word
  /-- STATUS.DONE (R36) -/
  done : Bool
  /-- STATUS.OVERRUN (R37) -/
  overrun : Bool
  /-- STATUS.ERRCODE (R39) -/
  errCode : ErrCode
  /-- STATUS.LOCKSTATE (R49) -/
  lockState : LockState
  /-- STATUS.LOCK_DELSYS (R54) -/
  lockDelsys : Bool
  /-- ERRINFO (R43) -/
  errInfo : Word
  /-- ARG0..ARG7 (R40) -/
  args : Vector Word 8
  /-- the operand latch ARG[0..7] (R40) -/
  latch : Vector Word 8
  /-- the latched CTRL.TS_SERIAL (R40) -/
  latchTsSerial : Bool
  /-- the latched CTRL.XTAL24 (R40) -/
  latchXtal24 : Bool
  /-- RES0..RES7 (R41) -/
  res : Vector Word 8
  /-- the sequencer step register seq (R50) -/
  seq : SeqStep
  /-- poll_iter, mirrored in SEQ.POLL_ITER (R45, R53) -/
  pollIter : Byte
  /-- wait_left (R53) -/
  waitLeft : Byte
  /-- SEQ.LAST_LOCK_BYTE (R45) -/
  lastLockByte : Byte
  /-- abort_req (R53) -/
  abortReq : Bool
  /-- MCLK_KHZ (R46) -/
  mclkKhz : Word
  /-- SEL_ISI (R47) -/
  selIsi : Word
  /-- ACC_ERR (R48) -/
  accErr : BitVec 64
  /-- ACC_CNT (R48) -/
  accCnt : BitVec 64
  /-- TR (R51) -/
  tr : TuneRequest
  /-- PLAN (R52) -/
  plan : TunePlan
  /-- the command that runs; STATUS.BUSY is whether there is one (R35) -/
  running : Option Instr
  /-- where the running command stands -/
  phase : Phase
  /-- the transactions of this phase not yet completed, the outstanding one first (R91) -/
  todo : List Txn
  /-- the bytes read in this phase so far -/
  got : List Byte
  /-- a transaction that a reset left in flight on the bus (R352) -/
  orphan : Option Txn
  /-- the rst_n input (R350) -/
  rstN : Bool
  /-- the chip_ready input (R38) -/
  chipReady : Bool
  /-- what the block has delivered to chip registers (R87, R89) -/
  chip : Memory
  /-- what arrives at the ports from here on -/
  inputs : List Stimulus
  /-- what the block has shown at its ports, oldest first -/
  outputs : List PortEvent
  deriving DecidableEq, Repr

/-- TR after reset: all fields 0 (R57). -/
def TuneRequest.reset : TuneRequest :=
  { freqHz := 0, sr := 0, delsys := 0, mod := 0, isi := 0, nofilter := false, scrIdx := 0, fb := 0,
    tsSerial := false, xtal24 := false }

/-- PLAN after reset: all fields 0 (R57). -/
def TunePlan.reset : TunePlan :=
  { realFreqKhz := 0, pllMhz := 0, lpfOffsetKhz := 0, bwKhz := 0, mclkKhz := 0, mclkCand := 0, refDiv := 0, band := 0,
    n1 := 0, n2 := 0, lo1 := 0, hi1 := 0, lo2 := 0, hi2 := 0, tsDiv := 0, tsN := 0, tsRaw := #v[0, 0, 0, 0],
    tsEnc := #v[0, 0, 0, 0], pls := #v[0, 0, 0] }

/-- The machine right after reset (R57, R350). The inputs' levels and the empty ports are the model's own
(log entries 2 and 3). -/
def State.reset : State :=
  { cfg := Config.atReset, ctrl := 0, done := false, overrun := false, errCode := .noError, lockState := .idle,
    lockDelsys := false, errInfo := 0, args := #v[0, 0, 0, 0, 0, 0, 0, 0], latch := #v[0, 0, 0, 0, 0, 0, 0, 0],
    latchTsSerial := false, latchXtal24 := false, res := #v[0, 0, 0, 0, 0, 0, 0, 0], seq := .idle, pollIter := 0,
    waitLeft := 0, lastLockByte := 0, abortReq := false, mclkKhz := 0, selIsi := 0, accErr := 0, accCnt := 0,
    tr := TuneRequest.reset, plan := TunePlan.reset, running := none, phase := .idle, todo := [], got := [],
    orphan := none, rstN := true, chipReady := false, chip := [], inputs := [], outputs := [] }

end Sys2Proof.Machine
end

