-- ==== Sys2Proof/Machine/Flags.lean ====
section
/-! DEFINITION. The register codes and the flag computations: CTRL (R32), STATUS (R34 to R39), SEQ (R45), ERRINFO (R314)
and the irq output (R324). -/

namespace Sys2Proof.Machine

/-- The code of a LockState (R49). -/
def LockState.code : LockState → BitVec 3
  | .idle => 0
  | .programming => 1
  | .polling => 2
  | .locked => 3
  | .timedOut => 4
  | .failed => 5

/-- The code of an error (R313). -/
def ErrCode.code : ErrCode → BitVec 4
  | .noError => 0
  | .illegal => 1
  | .notReady => 3
  | .param => 4
  | .transport => 5
  | .aborted => 7

/-- The code of a sequencer step (R50). -/
def SeqStep.code : SeqStep → Byte
  | .idle => 0x00
  | .check => 0x01
  | .pReset => 0x02
  | .pTsclr => 0x03
  | .pMclk => 0x04
  | .pAgcCautious => 0x05
  | .pPll => 0x06
  | .pTsclk => 0x07
  | .pLpf => 0x08
  | .pBulk => 0x09
  | .pDelsys => 0x0A
  | .pPls => 0x0B
  | .pollRead => 0x10
  | .pollWait => 0x11
  | .postInv => 0x20
  | .postIsi => 0x21
  | .postAgc => 0x22
  | .postAux => 0x23

/-- The check id a PARAM error names (R317). -/
def ParamCheck.id : ParamCheck → Byte
  | .tuneFrequency => 0x01
  | .tuneSymbolRate => 0x02
  | .tuneDelsys => 0x03
  | .tuneModulation => 0x04
  | .refClock => 0x20
  | .dividerLow => 0x21
  | .dividerHigh => 0x22
  | .mclkZero => 0x30

/-- One bit as a word of one bit. -/
def bit (b : Bool) : BitVec 1 := BitVec.ofBool b

/-- The bits of CTRL that hold something; the others read 0 and ignore writes (R32). -/
def ctrlMask : Word := 0x7

/-- CTRL.IRQ_EN (R32). -/
def State.irqEn (s : State) : Bool := s.ctrl.getLsbD 0

/-- CTRL.TS_SERIAL (R32). -/
def State.tsSerial (s : State) : Bool := s.ctrl.getLsbD 1

/-- CTRL.XTAL24 (R32). -/
def State.xtal24 (s : State) : Bool := s.ctrl.getLsbD 2

/-- STATUS.BUSY: a command runs (R35). -/
def State.busy (s : State) : Bool := s.running.isSome

/-- The irq output: STATUS.DONE and CTRL.IRQ_EN, at all times (R324). -/
def State.irq (s : State) : Bool := s.done && s.irqEn

/-- The STATUS register, from bit 31 down (R34). -/
def State.statusWord (s : State) : Word :=
  (0 : BitVec 11) ++ bit s.lockDelsys ++ (0 : BitVec 1) ++ s.lockState.code ++ (0 : BitVec 4) ++ s.errCode.code
    ++ (0 : BitVec 4) ++ bit s.chipReady ++ bit s.overrun ++ bit s.done ++ bit s.busy

/-- A host write of STATUS: a 1 in bit 1 clears DONE, a 1 in bit 2 clears OVERRUN (R36, R37). -/
def State.writeStatus (v : Word) (s : State) : State :=
  { s with done := s.done && !v.getLsbD 1, overrun := s.overrun && !v.getLsbD 2 }

/-- A host write of CTRL (R32, R33). -/
def State.writeCtrl (v : Word) (s : State) : State := { s with ctrl := v &&& ctrlMask }

/-- The SEQ register, from bit 31 down (R45). -/
def State.seqWord (s : State) : Word := (0 : Byte) ++ s.lastLockByte ++ s.pollIter ++ s.seq.code

/-- SEL_ISI with VALID = 1 (R47, R225). -/
def selIsiWord (isi : Byte) : Word := (0x000001 : BitVec 24) ++ isi

/-- The low half of a 64-bit value (R48). -/
def lowWord (v : BitVec 64) : Word := v.extractLsb' 0 32

/-- The high half of a 64-bit value (R48). -/
def highWord (v : BitVec 64) : Word := v.extractLsb' 32 32

/-- ERRINFO of NOT_READY: [31:24] = OPC (R314). -/
def infoNotReady (opc : Byte) : Word := opc ++ (0 : BitVec 24)

/-- ERRINFO of PARAM: [31:24] = OPC, [7:0] = check id (R314). -/
def infoParam (opc : Byte) (c : ParamCheck) : Word := opc ++ (0 : BitVec 16) ++ c.id

/-- The kind of a transaction in ERRINFO: 1 READ, 2 WRITE, 3 BURST, 4 RMW (R314). -/
def txnKind : Txn → BitVec 3
  | .read _ => 1
  | .write _ _ => 2
  | .burst _ _ => 3
  | .rmw _ _ _ => 4

/-- The chip address of a transaction; for a burst, its first (R314). -/
def txnAddr : Txn → BusAddr
  | .read a => a
  | .write a _ => a
  | .burst a _ => a
  | .rmw a _ _ => a

/-- ERRINFO of TRANSPORT: [31:24] = place, [18:16] = kind, [15:0] = address (R314). -/
def infoTransport (place : Byte) (t : Txn) : Word := place ++ (0 : BitVec 5) ++ txnKind t ++ txnAddr t

/-- ERRINFO of ABORTED: [31:24] = the step whose boundary honoured the abort (R314). -/
def infoAborted (st : SeqStep) : Word := st.code ++ (0 : BitVec 24)

end Sys2Proof.Machine
end

