-- ==== Sys2Proof/Machine/Operands.lean ====
section
/-! DEFINITION. The operand forms (R112): every operand is a latched ARG register, read as an unsigned 32-bit value, or the
fields of TUNE's request (R51); and the values given to result registers (R11, R41, R113). -/

namespace Sys2Proof.Machine

/-- Bits lo+n-1 down to lo of a word (R10). -/
def bitField (w : Word) (lo n : Nat) : BitVec n := w.extractLsb' lo n

/-- GOLD: ARG[0] = index. -/
def goldIndex (s : State) : Nat := s.latch[0].toNat

/-- PLL: ARG[0] = target_freq_mhz. -/
def pllTargetMhz (s : State) : Nat := s.latch[0].toNat

/-- PLL: ARG[1] = ref_clock_khz. -/
def pllRefClockKhz (s : State) : Nat := s.latch[1].toNat

/-- MCLK: ARG[0] = RF frequency in kHz. -/
def mclkFreqKhz (s : State) : Nat := s.latch[0].toNat

/-- MCLK: ARG[1] = symbol rate. -/
def mclkSymbolRate (s : State) : Nat := s.latch[1].toNat

/-- TSCLK: ARG[0] = pll_div_fb. -/
def tsclkFeedback (s : State) : Nat := s.latch[0].toNat

/-- TSCLK: ARG[1] = mclk in kHz. -/
def tsclkMclkKhz (s : State) : Nat := s.latch[1].toNat

/-- LPF: ARG[0] = symbol rate. -/
def lpfSymbolRate (s : State) : Nat := s.latch[0].toNat

/-- LPF: ARG[1] = carrier frequency in Hz. -/
def lpfFreqHz (s : State) : Nat := s.latch[1].toNat

/-- GAIN: ARG[0] = frequency in MHz. -/
def gainFreqMhz (s : State) : Nat := s.latch[0].toNat

/-- TUNE: TR from the latched ARG and CTRL values (R51, R112). -/
def tuneRequest (s : State) : TuneRequest :=
  { freqHz := s.latch[0]
    sr := s.latch[1]
    delsys := bitField s.latch[2] 0 2
    mod := bitField s.latch[2] 4 3
    isi := bitField s.latch[3] 0 8
    nofilter := s.latch[3].getLsbD 31
    scrIdx := s.latch[4]
    fb := s.latch[5]
    tsSerial := s.latchTsSerial
    xtal24 := s.latchXtal24 }

/-- A non-negative integer given to a 32-bit register: itself when it fits; when it does not, the spec states no result and
the value is free (log entry 5). -/
def regWord (v : Nat) : Word := if v < 2 ^ 32 then BitVec.ofNat 32 v else Config.wideResult v

/-- s32(v): the 32-bit two's-complement image of a signed integer (R11). -/
def s32 (v : Int) : Word := BitVec.ofInt 32 v

/-- A number as a byte; every use is of a number below 256. -/
def byteOf (v : Nat) : Byte := BitVec.ofNat 8 v

/-- RES0 to RES7 with the named results first and every other register 0 (R41). -/
def results (named : List Word) : Vector Word 8 :=
  #v[named.getD 0 0, named.getD 1 0, named.getD 2 0, named.getD 3 0,
     named.getD 4 0, named.getD 5 0, named.getD 6 0, named.getD 7 0]

end Sys2Proof.Machine
end

