-- ==== Sys2Proof/Machine/Ops.lean ====
section
/-! DEFINITION. The shared operations: the bytes delivered to the chip, the host window's registers, accepting a command
(R310), ending it (R311), raising an error (R312), issuing chip-bus transactions (R88 to R91), and reset (R350 to R353). -/

namespace Sys2Proof.Machine

/-! ## The bytes delivered to the chip -/

/-- Every address of a memory is above a bound, and they rise strictly. -/
def Memory.risesFrom : Nat → Memory → Bool
  | _, [] => true
  | lo, c :: rest => lo ≤ c.1 && Memory.risesFrom (c.1 + 1) rest

/-- The canonical form: addresses of the chip bus (R87), strictly rising. An unlisted address reads as nothing, so no entry
can equal what an unlisted address reads as. -/
def Memory.wf (m : Memory) : Bool := Memory.risesFrom 0 m && m.all fun c => c.1 < 65536

/-- The byte last delivered to an address, if any was. -/
def Memory.load : Memory → Nat → Option Byte
  | [], _ => none
  | c :: rest, a => if c.1 = a then some c.2 else Memory.load rest a

/-- Deliver one byte. -/
def Memory.store (a : Nat) (b : Byte) : Memory → Memory
  | [] => [(a, b)]
  | c :: rest =>
    if a < c.1 then (a, b) :: c :: rest
    else if a = c.1 then (a, b) :: rest
    else c :: Memory.store a b rest

/-- Deliver bytes in order. -/
def Memory.storeAll : List (BusAddr × Byte) → Memory → Memory
  | [], m => m
  | c :: rest, m => Memory.storeAll rest (Memory.store c.1.toNat c.2 m)

/-- The cells of a burst: consecutive addresses, wrapping mod 2^16 (R89). -/
def burstCells (a : BusAddr) : List Byte → List (BusAddr × Byte)
  | [] => []
  | b :: rest => (a, b) :: burstCells (a + 1) rest

/-- The byte a read-modify-write leaves: (old AND NOT m) OR (v AND m) (R89). -/
def rmwByte (old m v : Byte) : Byte := (old &&& ~~~m) ||| (v &&& m)

/-- The bytes a transaction delivers, in order, old being the byte the chip holds at a read-modify-write's address. -/
def txnCells (old : Byte) : Txn → List (BusAddr × Byte)
  | .read _ => []
  | .write a b => [(a, b)]
  | .burst a bytes => burstCells a bytes
  | .rmw a m v => [(a, rmwByte old m v)]

/-- The bytes that arrived: all of them on success, some first ones on failure (R89, I12). -/
def arrived (t : Txn) (a : Answer) : List (BusAddr × Byte) :=
  if a.ok then txnCells a.byte t else (txnCells a.byte t).take a.delivered

/-- What the chip has received once a transaction has ended. -/
def deliver (t : Txn) (a : Answer) (s : State) : State := { s with chip := Memory.storeAll (arrived t a) s.chip }

/-! ## Ports -/

/-- Show an event at a port. -/
def emit (e : PortEvent) (s : State) : State := { s with outputs := s.outputs ++ [e] }

/-! ## Ending a command -/

/-- complete(): end the running command without error (R311), RES being written whole (R41). -/
def complete (r : Vector Word 8) (s : State) : State :=
  { s with
    res := r, seq := .idle, abortReq := false, errCode := .noError, done := true
    running := none, phase := .idle, todo := [], got := [] }

/-- raise Error(code, info): end the running command at once (R312). LockState is the raising rule's own affair. -/
def raiseError (code : ErrCode) (info : Word) (s : State) : State :=
  { s with
    errInfo := info, errCode := code, seq := .idle, abortReq := false, done := true
    running := none, phase := .idle, todo := [], got := [] }

/-- raise Error(PARAM, {OPC, check}) (R317). -/
def raiseParam (i : Instr) (c : ParamCheck) (s : State) : State := raiseError .param (infoParam (opcOf i) c) s

/-- raise Error(NOT_READY, OPC) (R316). -/
def raiseNotReady (i : Instr) (s : State) : State := raiseError .notReady (infoNotReady (opcOf i)) s

/-! ## Accepting a command -/

/-- What acceptance of any word does: latch ARG and CTRL, clear DONE, ERRCODE and abort_req (R40, R310). -/
def latchOperands (s : State) : State :=
  { s with
    latch := s.args, latchTsSerial := s.tsSerial, latchXtal24 := s.xtal24
    done := false, errCode := .noError, abortReq := false }

/-- Accept a command: it runs, so BUSY is 1 (R310, R35). -/
def accept (i : Instr) (s : State) : State := { latchOperands s with running := some i }

/-- A word written while busy that is neither ABORT nor RESET (R320). -/
def setOverrun (s : State) : State := { s with overrun := true }

/-- A word that decodes to no command (R116, R310, R315, R320). -/
def submitIllegal (w : Word) (s : State) : State :=
  if s.busy then setOverrun s else raiseError .illegal w (latchOperands s)

/-- A command that computes reads its operands here; the computation ends at once, or, where the next stimulus says that it
takes longer, at a later computeDone (R372, log entry 7). -/
def computePoint (body : State → State) (s : State) : State :=
  match s.inputs with
  | .computeHold :: rest => { s with inputs := rest, phase := .computing }
  | _ => body s

/-! ## The chip bus -/

/-- The transaction outstanding on the bus, if there is one. -/
def inFlight (s : State) : Option Txn :=
  match s.orphan with
  | some t => some t
  | none => s.todo.head?

/-- Issue the next transaction, unless one that a reset abandoned still holds the bus (R88, R91, log entry 8). -/
def issueHead (s : State) : State :=
  match s.orphan, s.todo with
  | none, t :: _ => emit (.bus t) s
  | _, _ => s

/-- Begin a phase with its transactions; a phase with none is done at once. -/
def load (txns : List Txn) (p : Phase) (whenNone : State → State) (s : State) : State :=
  match txns with
  | [] => whenNone { s with phase := p, todo := [], got := [] }
  | t :: rest => issueHead { s with phase := p, todo := t :: rest, got := [] }

/-- The reads of ReadField(F), in increasing j (R90). -/
def fieldReads (f : FieldDesc) : List Txn := (List.range f.nbytes).map fun j => .read (f.addr + BitVec.ofNat 16 j)

/-- The bytes of a field as one number, LE (R90). -/
def leValue : List Byte → Nat
  | [] => 0
  | b :: rest => b.toNat + 256 * leValue rest

/-- The value of ReadField(F) from its bytes (R90). -/
def fieldValue (f : FieldDesc) (bytes : List Byte) : Nat :=
  let raw := match f.order with
    | .le => leValue bytes
    | .be => leValue bytes.reverse
  raw / 2 ^ f.rshift % 2 ^ f.width

/-- The values of fields read one after another, from all their bytes. -/
def fieldValues : List FieldDesc → List Byte → List Nat
  | [], _ => []
  | f :: rest, bytes => fieldValue f (bytes.take f.nbytes) :: fieldValues rest (bytes.drop f.nbytes)

/-- The reads of fields read one after another. -/
def fieldsReads (fs : List FieldDesc) : List Txn := fs.flatMap fieldReads

/-- The place a TRANSPORT error names: seq for TUNE, else the OPC (R314). -/
def transportPlace (s : State) : Byte :=
  match s.running with
  | some .tune => s.seq.code
  | some i => opcOf i
  | none => 0

/-- A failed transaction raises TRANSPORT; a TUNE ends Failed (R13, R230, R318). -/
def busFailure (t : Txn) (s : State) : State :=
  raiseError .transport (infoTransport (transportPlace s) t)
    (if s.running = some .tune then { s with lockState := .failed } else s)

/-! ## Reset -/

/-- Every state item of R57 at its reset value. A transaction in flight stays on the bus (R352); the parameters, the pins
and the world at the ports are not the block's. -/
def resetBlock (s : State) : State :=
  { State.reset with
    cfg := s.cfg, rstN := s.rstN, chipReady := s.chipReady, chip := s.chip, inputs := s.inputs, outputs := s.outputs
    orphan := inFlight s }

/-- The RESET command: the same, but CTRL keeps its value (R301, R353). -/
def resetKeepingCtrl (s : State) : State := { resetBlock s with ctrl := s.ctrl }

/-- The rst_n input takes a level (R350). -/
def rstNChange (level : Bool) (s : State) : State :=
  if level then { s with rstN := true } else { resetBlock s with rstN := false }

/-! ## The host window -/

/-- The registers of the window (R31). -/
inductive HostReg where
  | ctrl
  | status
  | cmd
  | errInfo
  | arg (i : Fin 8)
  | res (i : Fin 8)
  | seq
  | mclkKhz
  | selIsi
  | berErrLo
  | berErrHi
  | berCntLo
  | berCntHi
  | id
  | reserved (k : Fin 4)
  deriving DecidableEq, Repr

/-- The offset of a register (R31). -/
def HostReg.offset : HostReg → Nat
  | .ctrl => 0x00
  | .status => 0x04
  | .cmd => 0x08
  | .errInfo => 0x0C
  | .arg i => 0x10 + 4 * i.val
  | .res i => 0x30 + 4 * i.val
  | .seq => 0x50
  | .mclkKhz => 0x54
  | .selIsi => 0x58
  | .berErrLo => 0x5C
  | .berErrHi => 0x60
  | .berCntLo => 0x64
  | .berCntHi => 0x68
  | .id => 0x6C
  | .reserved k => 0x70 + 4 * k.val

/-- The registers of the window in offset order (R31). -/
def windowRegs : List HostReg :=
  [.ctrl, .status, .cmd, .errInfo, .arg 0, .arg 1, .arg 2, .arg 3, .arg 4, .arg 5, .arg 6, .arg 7,
   .res 0, .res 1, .res 2, .res 3, .res 4, .res 5, .res 6, .res 7, .seq, .mclkKhz, .selIsi, .berErrLo, .berErrHi,
   .berCntLo, .berCntHi, .id, .reserved 0, .reserved 1, .reserved 2, .reserved 3]

/-- The register at an offset of the window: word number off / 4 (R31). -/
def regAt (off : Nat) : HostReg := windowRegs.getD (off / 4) (.reserved 3)

/-- The value a host read returns (R31, R42, R83). No read changes the state (R84). -/
def readReg (r : HostReg) (s : State) : Word :=
  match r with
  | .ctrl => s.ctrl
  | .status => s.statusWord
  | .cmd => 0
  | .errInfo => s.errInfo
  | .arg i => s.args[i]
  | .res i => s.res[i]
  | .seq => s.seqWord
  | .mclkKhz => s.mclkKhz
  | .selIsi => s.selIsi
  | .berErrLo => lowWord s.accErr
  | .berErrHi => highWord s.accErr
  | .berCntLo => lowWord s.accCnt
  | .berCntHi => highWord s.accCnt
  | .id => Config.blockId
  | .reserved _ => 0

/-- What a host write does to a register, but for CMD, which submits a command (R84). -/
def writeReg (r : HostReg) (v : Word) (s : State) : State :=
  match r with
  | .ctrl => s.writeCtrl v
  | .status => s.writeStatus v
  | .arg i => { s with args := s.args.set i v }
  | .cmd | .errInfo | .res _ | .seq | .mclkKhz | .selIsi => s
  | .berErrLo | .berErrHi | .berCntLo | .berCntHi | .id | .reserved _ => s

/-- The byte at an offset of the window, as a byte-addressed host names it (R82). -/
def windowByte (off : Nat) (s : State) : Byte := byteOfWord (readReg (regAt off) s) (off % 4)

end Sys2Proof.Machine
end

