-- ==== Sys2Proof/Machine/Lfsr.lean ====
section
/-! DEFINITION. The PLS gold-code generator: the LFSR (R130, R131), the checkpoint table (R132), the state GOLD computes
(R133, R134), its byte packing (R135) and the PLS bytes of TUNE (R139). -/

namespace Sys2Proof.Machine

/-- One LFSR step: shift right, the XOR of bit 0 and bit GOLD_TAP entering bit 17 (R130). -/
def lfsrStep (tap : Fin 18) (s : GoldCode) : GoldCode :=
  (s >>> 1) ||| (if s.getLsbD 0 ^^ s.getLsbD tap.val then 0x20000 else 0)

/-- n LFSR steps. -/
def lfsrIter (tap : Fin 18) : Nat → GoldCode → GoldCode
  | 0, s => s
  | n + 1, s => lfsrIter tap n (lfsrStep tap s)

/-- The reference generator ref(i): i steps from the seed (R131). -/
def goldRef (g : GoldConfig) (i : Nat) : GoldCode := lfsrIter g.tap i g.seed

/-- The index GOLD computes with: above 260000 it is clamped, or not, as GOLD_OVERRANGE says (R134). -/
def goldEffective (g : GoldConfig) (i : Nat) : Nat :=
  match g.overrange with
  | .clampIndex => if i > Config.goldLastIndex then Config.goldLastIndex else i
  | .advance => i

/-- The checkpoint number k = min(i / 5000, 52) (R133). -/
def goldCheckpoint (i : Nat) : Nat := min (i / Config.goldSpacing) 52

/-- The steps advanced from the checkpoint, i - 5000 k (R133). -/
def goldSteps (i : Nat) : Nat := i - Config.goldSpacing * goldCheckpoint i

/-- CP[k] (R132). -/
def checkpoint (g : GoldConfig) (k : Nat) : GoldCode := g.checkpoints.toList.getD k 0

/-- The state GOLD reaches for an index (R133). -/
def goldState (g : GoldConfig) (index : Nat) : GoldCode :=
  let i := goldEffective g index
  lfsrIter g.tap (goldSteps i) (checkpoint g (goldCheckpoint i))

/-- The condition R132 puts on a configuration's table: CP[k] = ref(5000 k). -/
def GoldTableOk (g : GoldConfig) : Prop := ∀ k, k < 53 → checkpoint g k = goldRef g (Config.goldSpacing * k)

/-- The state packed into three bytes, least significant first (R135). -/
def goldBytes (s : GoldCode) : Vector Byte 3 :=
  #v[s.extractLsb' 0 8, s.extractLsb' 8 8, (s.extractLsb' 16 2).setWidth 8]

/-- The PLS bytes of a scrambling index (R139). -/
def plsBytes (c : Config) (scrIdx : Nat) : Vector Byte 3 :=
  if scrIdx = 0 then c.options.plsDefault else goldBytes (goldState c.gold scrIdx)

/-- What GOLD computes (R133). -/
def goldBody (s : State) : State :=
  let i := goldEffective s.cfg.gold (goldIndex s)
  complete (results [(goldState s.cfg.gold (goldIndex s)).setWidth 32, regWord (goldCheckpoint i), regWord (goldSteps i)]) s

end Sys2Proof.Machine
end

