-- ==== Sys2Proof/Machine/Synth.lean ====
section
/-! DEFINITION. The frequency and clock synthesizer: the PLL dividers (R150 to R154), the master clock (R160 to R162), the
transport clock (R165 to R169) and the baseband filter (R175 to R178). -/

namespace Sys2Proof.Machine

/-! ## PLL dividers -/

/-- band(m): the least row whose lo_mhz is at most m; row 8 catches every lower m (R150). -/
def bandIndex (c : ClockConfig) (m : Nat) : Nat := min (c.bands.toList.findIdx fun b => b.loMhz ≤ m) 8

/-- Row b of PLL_BANDS (R150). -/
def bandRow (c : ClockConfig) (b : Nat) : Band := c.bands.toList.getD b default

/-- The reference divider of a reference clock in kHz (R151). -/
def refDivider (c : ClockConfig) (refKhz : Nat) : Except ParamCheck Byte :=
  if refKhz = 27000 then .ok c.refDiv27
  else if refKhz = 24000 then .ok c.refDiv24
  else .error .refClock

/-- The divider and register bytes of one LO path (R152, R153). -/
structure PllPath where
  n : Nat
  lo : Byte
  hi : Byte
  deriving DecidableEq, Repr

/-- Q of R152, the exact products floored by the reference frequency. -/
def pllQuotient (m refKhz refDiv d : Nat) : Nat := m * 1000000 * d * (refDiv + 8) / (refKhz * 1000)

/-- N of one path, with the two range checks (R152), and its register bytes (R153). -/
def pllPath (m refKhz refDiv d lomod : Nat) : Except ParamCheck PllPath :=
  let q := pllQuotient m refKhz refDiv d
  if q < 1024 then .error .dividerLow
  else
    let n := (q - 1024) / 2
    if n > 4095 then .error .dividerHigh
    else .ok { n := n, lo := byteOf (n % 256), hi := byteOf ((n / 256 + lomod) % 128) }

/-- What the PLL computation gives (R154). -/
structure PllResult where
  refDiv : Byte
  band : Nat
  p1 : PllPath
  p2 : PllPath
  deriving DecidableEq, Repr

/-- The PLL computation: reference divider, band, path 1, then path 2 (R154). -/
def pllCompute (c : ClockConfig) (m refKhz : Nat) : Except ParamCheck PllResult :=
  match refDivider c refKhz with
  | .error e => .error e
  | .ok rd =>
    let b := bandIndex c m
    let row := bandRow c b
    match pllPath m refKhz rd.toNat row.div1 row.lomod1 with
    | .error e => .error e
    | .ok p1 =>
      match pllPath m refKhz rd.toNat row.div2 row.lomod2 with
      | .error e => .error e
      | .ok p2 => .ok { refDiv := rd, band := b, p1 := p1, p2 := p2 }

/-- {hi, lo} zero-extended to a result register (R154). -/
def pathWord (p : PllPath) : Word := (p.hi ++ p.lo).setWidth 32

/-- What PLL computes (R154). -/
def pllBody (s : State) : State :=
  match pllCompute s.cfg.clock (pllTargetMhz s) (pllRefClockKhz s) with
  | .error e => raiseParam .pll e s
  | .ok r =>
    complete (results [pathWord r.p1, pathWord r.p2, regWord r.p1.n, regWord r.p2.n, regWord r.band,
      r.refDiv.setWidth 32]) s

/-! ## Master clock -/

/-- The folded offset of f from a candidate clock (R160). -/
def foldedOffset (f cand : Nat) : Nat := min (f % cand) (cand - f % cand)

/-- What master-clock selection gives (R161). -/
structure MclkChoice where
  mclk : Nat
  cand : Nat
  off0 : Nat
  off1 : Nat
  off2 : Nat
  deriving DecidableEq, Repr

/-- Master-clock selection for a frequency in kHz and a symbol rate (R161). -/
def mclkSelect (c : ClockConfig) (f sr : Nat) : MclkChoice :=
  if sr ≥ Config.mclkSrThreshold then { mclk := c.mclkHighKhz, cand := 3, off0 := 0, off1 := 0, off2 := 0 }
  else
    let o0 := foldedOffset f c.mclkCand[0]
    let o1 := foldedOffset f c.mclkCand[1]
    let o2 := foldedOffset f c.mclkCand[2]
    let best := if o1 > o0 then (1, c.mclkCand[1], o1) else (0, c.mclkCand[0], o0)
    let best := if o2 > best.2.2 then (2, c.mclkCand[2], o2) else best
    { mclk := best.2.1, cand := best.1, off0 := o0, off1 := o1, off2 := o2 }

/-- What MCLK computes (R162). -/
def mclkBody (s : State) : State :=
  let m := mclkSelect s.cfg.clock (mclkFreqKhz s) (mclkSymbolRate s)
  complete (results [regWord m.mclk, regWord m.cand, regWord m.off0, regWord m.off1, regWord m.off2]) s

/-! ## Transport clock -/

/-- The feedback value div (R165). -/
def tsDivider (fb mclk : Nat) : Except ParamCheck Nat :=
  if mclk = 0 then .error .mclkZero else .ok (Config.tsclkK * fb * 4 / mclk)

/-- The stage count N (R166). -/
def tsStageCount (div : Nat) : Nat := if div ≤ 32 then 2 else if div ≤ 48 then 3 else 4

/-- tap[i] = rem / stages_left, stage after stage (R167). -/
def tapList : Nat → Nat → List Nat
  | 0, _ => []
  | k + 1, rem => rem / (k + 1) :: tapList k (rem - rem / (k + 1))

/-- Four taps, the unused ones 0 (R167). -/
def fourTaps (l : List Nat) : Vector Nat 4 := #v[l.getD 0 0, l.getD 1 0, l.getD 2 0, l.getD 3 0]

/-- The raw taps of a feedback value; above 64, the ceiling of four taps of 16 (R166, R167). -/
def tsRawTaps (div : Nat) : Vector Nat 4 :=
  if div > 64 then #v[16, 16, 16, 16] else fourTaps (tapList (tsStageCount div) div)

/-- One tap snapped and encoded (R168). -/
def snapTap (serial : Bool) (tap : Nat) : Nat :=
  if tap = 16 then 0
  else if 0 < tap ∧ tap < Config.tsMinTap serial then Config.tsMinTap serial
  else tap

/-- The encoded taps: the first N snapped, the others 0 (R168). -/
def tsEncTaps (serial : Bool) (n : Nat) (raw : Vector Nat 4) : Vector Nat 4 :=
  fourTaps ((raw.toList.take n).map (snapTap serial))

/-- {tap[3], tap[2], tap[1], tap[0]}, one byte each (R169). -/
def tapsWord (t : Vector Nat 4) : Word := byteOf t[3] ++ byteOf t[2] ++ byteOf t[1] ++ byteOf t[0]

/-- What TSCLK computes (R169). -/
def tsclkBody (s : State) : State :=
  match tsDivider (tsclkFeedback s) (tsclkMclkKhz s) with
  | .error e => raiseParam .tsclk e s
  | .ok div =>
    let n := tsStageCount div
    let raw := tsRawTaps div
    complete (results [regWord div, regWord n, tapsWord raw, tapsWord (tsEncTaps s.latchTsSerial n raw)]) s

/-! ## Baseband filter -/

/-- The LO offset of a symbol rate (R175). -/
def lpfOffset (c : ClockConfig) (sr : Nat) : Nat :=
  if sr < Config.lpfLowSrThreshold then Config.lpfLowSrOffsetKhz else c.lpfOffsetHighKhz

/-- real_freq_khz (R176). -/
def realFreqKhz (c : ClockConfig) (sr freqHz : Nat) : Nat := freqHz / 1000 + lpfOffset c sr

/-- pll_mhz (R176). -/
def pllMhz (c : ClockConfig) (sr freqHz : Nat) : Nat := realFreqKhz c sr freqHz / 1000

/-- clamp(v, lo, hi) (R11). -/
def clampNat (v lo hi : Nat) : Nat := min (max v lo) hi

/-- The filter bandwidth (R177). -/
def lpfBandwidth (c : ClockConfig) (sr : Nat) : Nat :=
  clampNat (sr / 1000 * c.lpfMulNum / c.lpfMulDen + c.lpfMarginKhz) c.lpfBwMinKhz c.lpfBwMaxKhz

/-- What LPF computes (R178). -/
def lpfBody (s : State) : State :=
  let sr := lpfSymbolRate s
  let f := lpfFreqHz s
  complete (results [regWord (lpfOffset s.cfg.clock sr), regWord (lpfBandwidth s.cfg.clock sr),
    regWord (realFreqKhz s.cfg.clock sr f), regWord (pllMhz s.cfg.clock sr f)]) s

end Sys2Proof.Machine
end

