-- ==== Sys2Proof/Machine/Sequencer.lean ====
section
/-! DEFINITION. The lock-acquisition sequencer: what TUNE does from acceptance to its end (R200 to R237). Its steps stand in
the order that lets each call the next, so the last step of a TUNE stands first. -/

namespace Sys2Proof.Machine

/-! ## Step boundaries and the end of a TUNE -/

/-- `seq <- st` of a TUNE: a requested abort is honoured here, naming the step that has not started (R231). -/
def boundary (st : SeqStep) (body : State → State) (s : State) : State :=
  if s.abortReq then raiseError .aborted (infoAborted st) { s with lockState := .failed }
  else body { s with seq := st }

/-- RES4 of TUNE: {hi2, lo2, hi1, lo1} (R229). -/
def planDividerWord (p : TunePlan) : Word := p.hi2 ++ p.lo2 ++ p.hi1 ++ p.lo1

/-- The eight results of TUNE (R229). -/
def tuneResults (s : State) : Vector Word 8 :=
  results [s.lockState.code.setWidth 32, s.pollIter.setWidth 32, s.lastLockByte.setWidth 32, regWord s.plan.mclkKhz,
    planDividerWord s.plan, regWord s.plan.bwKhz, regWord s.plan.realFreqKhz, s.selIsi]

/-- Completion of a TUNE (R229). -/
def tuneFinish (s : State) : State := complete (tuneResults s) s

/-! ## Post-lock pass -/

/-- POST_AUX: on Locked with the auxiliary clock fitted, one aux_set event (R223, R232). Entering it is a step boundary, so an
abort requested during POST_AGC ends the TUNE here. DESIGN CHOICE (log entry 17): R231's pseudocode says so, the last row of
section 4.8 of 95_test_vectors.md says that such an abort has no effect; unsafe. -/
def postAux (s : State) : State :=
  if s.lockState = .locked ∧ s.cfg.options.auxPresent = true then
    boundary .postAux (fun s => tuneFinish (emit (.auxSet s.cfg.options.auxFreqHz) s)) s
  else tuneFinish s

/-- POST_AGC: the normal AGC setting, after Locked and after TimedOut (R228). -/
def postAgc (s : State) : State :=
  boundary .postAgc (fun s => load s.cfg.programs.agcNormal .agcNormal postAux s) s

/-- The ISI selection is written: SEL_ISI shows it (R225). -/
def isiSelected (sel : Byte) (s : State) : State := postAgc { s with selIsi := selIsiWord sel }

/-- Write the selected ISI (R225). -/
def isiSelect (sel : Byte) (s : State) : State :=
  load [.write s.cfg.chipMap.isiSelAddr sel] (.isiSelect sel) (isiSelected sel) s

/-- Read ISI slot i (R225). -/
def isiReadSlot (i cnt : Nat) (first : Byte) (s : State) : State :=
  load [.read (s.cfg.chipMap.isiSlotAddr + BitVec.ofNat 16 i)] (.isiSlot i cnt first) id s

/-- Slot i of cnt is read: the first match is selected, and slot 0's byte when none matches (R225, R226). -/
def isiSlotDone (i cnt : Nat) (first b : Byte) (s : State) : State :=
  let first := if i = 0 then b else first
  if b = s.tr.isi then isiSelect b s
  else if i + 1 < cnt then isiReadSlot (i + 1) cnt first s
  else isiSelect first s

/-- The slot count is read: a count of 0 selects nothing (R225). -/
def isiCountDone (count : Nat) (s : State) : State :=
  let cnt := min count s.cfg.options.isiMaxSlots
  if cnt = 0 then postAgc s else isiReadSlot 0 cnt 0 s

/-- POST_ISI (R225). -/
def postIsi (s : State) : State :=
  boundary .postIsi
    (fun s => load (fieldReads s.cfg.chipMap.fIsiCount) .isiCount
      (fun s => isiCountDone (fieldValue s.cfg.chipMap.fIsiCount s.got) s) s) s

/-- The inversion is corrected: the ISI selection follows, unless NO_FILTER skips it (R223, R227). -/
def invWriteDone (s : State) : State := if s.tr.nofilter then postAgc s else postIsi s

/-- The polarity is read: copy it into the masked bits of the downstream register (R224). -/
def invReadDone (inv : Nat) (s : State) : State :=
  load [.rmw s.cfg.chipMap.invDstAddr s.cfg.chipMap.invDstMask (if inv = 1 then s.cfg.chipMap.invDstMask else 0)]
    .invWrite invWriteDone s

/-- POST_INV (R224). -/
def postInv (s : State) : State :=
  boundary .postInv
    (fun s => load (fieldReads s.cfg.chipMap.fInvSrc) .invRead
      (fun s => invReadDone (fieldValue s.cfg.chipMap.fInvSrc s.got) s) s) s

/-- What follows the poll loop: the lock byte seen, not the hint, decides (R219, R223). -/
def afterPoll (s : State) : State :=
  if s.lockState = .locked ∧ s.lockDelsys = true then postInv s else postAgc s

/-! ## Polling -/

/-- POLL_READ: read the lock-status byte (R218). -/
def pollRead (s : State) : State :=
  boundary .pollRead (fun s => load [.read s.cfg.chipMap.lockStatusAddr] .pollRead id s) s

/-- POLL_WAIT: wait for 20 ticks (R218, R221). -/
def pollWaitStart (s : State) : State :=
  boundary .pollWait (fun s => { s with waitLeft := Config.pollTicks, phase := .pollWait, todo := [], got := [] }) s

/-- The lock-status byte is read (R218 to R220, R222). -/
def pollReadDone (b : Byte) (s : State) : State :=
  let s := { s with pollIter := s.pollIter + 1, lastLockByte := b }
  if b = Config.lockS2 then afterPoll { s with lockState := .locked, lockDelsys := true }
  else if b = Config.lockS1 then afterPoll { s with lockState := .locked, lockDelsys := false }
  else if s.pollIter = Config.pollMax then afterPoll { s with lockState := .timedOut }
  else pollWaitStart s

/-- A tick pulse: it counts only while a TUNE waits (R221). -/
def tickPulse (s : State) : State :=
  if s.phase = .pollWait ∧ s.waitLeft ≠ 0 then
    let s := { s with waitLeft := s.waitLeft - 1 }
    if s.waitLeft = 0 then pollRead s else s
  else s

/-- After P_PLS: polling begins at once (R217). -/
def pollStart (s : State) : State := pollRead { s with lockState := .polling }

/-! ## Programming -/

/-- The programming steps in the source's strict order (R206). -/
def programmingSteps : List SeqStep :=
  [.pReset, .pTsclr, .pMclk, .pAgcCautious, .pPll, .pTsclk, .pLpf, .pBulk, .pDelsys, .pPls]

/-- The programming steps after one (R206). -/
def stepsAfter : SeqStep → List SeqStep
  | .pReset => [.pTsclr, .pMclk, .pAgcCautious, .pPll, .pTsclk, .pLpf, .pBulk, .pDelsys, .pPls]
  | .pTsclr => [.pMclk, .pAgcCautious, .pPll, .pTsclk, .pLpf, .pBulk, .pDelsys, .pPls]
  | .pMclk => [.pAgcCautious, .pPll, .pTsclk, .pLpf, .pBulk, .pDelsys, .pPls]
  | .pAgcCautious => [.pPll, .pTsclk, .pLpf, .pBulk, .pDelsys, .pPls]
  | .pPll => [.pTsclk, .pLpf, .pBulk, .pDelsys, .pPls]
  | .pTsclk => [.pLpf, .pBulk, .pDelsys, .pPls]
  | .pLpf => [.pBulk, .pDelsys, .pPls]
  | .pBulk => [.pDelsys, .pPls]
  | .pDelsys => [.pPls]
  | .pPls | .idle | .check | .pollRead | .pollWait | .postInv | .postIsi | .postAgc | .postAux => []

/-- LPF_PROG(bw): the configuration's entry for the bandwidth, else the OPEN function's value (R92, log entry 4). -/
def lpfProgram (p : Programs) (bw : Nat) : BusProgram :=
  match p.lpf.lookup bw with
  | some prog => prog
  | none => Config.lpfProg bw

/-- The five writes of P_PLL, in order (R211). -/
def pllWrites (m : ChipMap) (p : TunePlan) : BusProgram :=
  [.write m.pllRefdivAddr p.refDiv, .write m.pllP1LoAddr p.lo1, .write m.pllP1HiAddr p.hi1,
   .write m.pllP2LoAddr p.lo2, .write m.pllP2HiAddr p.hi2]

/-- The five writes of P_TSCLK: the four encoded taps, then the stage count (R212). -/
def tsclkWrites (m : ChipMap) (p : TunePlan) : BusProgram :=
  [.write m.tsTapAddr[0] (byteOf p.tsEnc[0]), .write m.tsTapAddr[1] (byteOf p.tsEnc[1]),
   .write m.tsTapAddr[2] (byteOf p.tsEnc[2]), .write m.tsTapAddr[3] (byteOf p.tsEnc[3]),
   .write m.tsNstageAddr (byteOf p.tsN)]

/-- The three writes of P_PLS (R216). -/
def plsWrites (m : ChipMap) (p : TunePlan) : BusProgram :=
  [.write m.plsAddr[0] p.pls[0], .write m.plsAddr[1] p.pls[1], .write m.plsAddr[2] p.pls[2]]

/-- The transactions of a programming step (R207 to R216). -/
def stepProgram (st : SeqStep) (c : Config) (tr : TuneRequest) (p : TunePlan) : BusProgram :=
  match st with
  | .pReset => c.programs.resetPulse
  | .pTsclr => c.programs.tsClear
  | .pMclk => c.programs.mclk.toList.getD p.mclkCand []
  | .pAgcCautious => c.programs.agcCautious
  | .pPll => pllWrites c.chipMap p
  | .pTsclk => tsclkWrites c.chipMap p
  | .pLpf => lpfProgram c.programs p.bwKhz
  | .pBulk => c.programs.bulkPreset
  | .pDelsys => c.programs.delsys.toList.getD tr.delsys.toNat []
  | .pPls => plsWrites c.chipMap p
  | .idle | .check | .pollRead | .pollWait | .postInv | .postIsi | .postAgc | .postAux => []

/-- What a programming step does once its transactions have succeeded: P_MCLK writes MCLK_KHZ (R209). -/
def stepEffect (st : SeqStep) (s : State) : State :=
  if st = .pMclk then { s with mclkKhz := regWord s.plan.mclkKhz } else s

/-- Run the programming steps from the first of a list on (R206 to R217). -/
def programFrom : List SeqStep → State → State
  | [], s => pollStart s
  | st :: rest, s =>
    boundary st
      (fun s => load (stepProgram st s.cfg s.tr s.plan) .program (fun s => programFrom rest (stepEffect st s)) s) s

/-- The programming step seq is done: on to the next (R206). -/
def programDone (s : State) : State := programFrom (stepsAfter s.seq) (stepEffect s.seq s)

/-! ## CHECK -/

/-- The first validation check that fails (R203). -/
def validateRequest (c : Config) (tr : TuneRequest) : Option ParamCheck :=
  if tr.freqHz.toNat < Config.tuneFreqMinHz ∨ tr.freqHz.toNat > Config.tuneFreqMaxHz then some .tuneFrequency
  else if tr.sr.toNat < c.clock.srMin ∨ tr.sr.toNat > c.clock.srMax then some .tuneSymbolRate
  else if tr.delsys.toNat > 1 then some .tuneDelsys
  else if tr.mod.toNat > 4 then some .tuneModulation
  else none

/-- The reference clock of a TUNE in kHz (R151, R204). -/
def tuneRefKhz (tr : TuneRequest) : Nat := if tr.xtal24 then 24000 else 27000

/-- PLAN's filter and master-clock fields, the first two assignments of R204. -/
def planFront (c : Config) (tr : TuneRequest) (p : TunePlan) : TunePlan :=
  let sr := tr.sr.toNat
  let f := tr.freqHz.toNat
  let m := mclkSelect c.clock (f / 1000) sr
  { p with
    lpfOffsetKhz := lpfOffset c.clock sr, bwKhz := lpfBandwidth c.clock sr
    realFreqKhz := realFreqKhz c.clock sr f, pllMhz := pllMhz c.clock sr f
    mclkKhz := m.mclk, mclkCand := m.cand }

/-- PLAN's divider fields, the third assignment of R204. -/
def planPll (r : PllResult) (p : TunePlan) : TunePlan :=
  { p with
    refDiv := r.refDiv, band := r.band, n1 := r.p1.n, lo1 := r.p1.lo, hi1 := r.p1.hi
    n2 := r.p2.n, lo2 := r.p2.lo, hi2 := r.p2.hi }

/-- PLAN's transport-clock and PLS fields, the last two assignments of R204. -/
def planBack (c : Config) (tr : TuneRequest) (div : Nat) (p : TunePlan) : TunePlan :=
  { p with
    tsDiv := div, tsN := tsStageCount div, tsRaw := tsRawTaps div
    tsEnc := tsEncTaps tr.tsSerial (tsStageCount div) (tsRawTaps div), pls := plsBytes c tr.scrIdx.toNat }

/-- Compute PLAN in R204's order: the plan as far as it was computed, and the check that stopped it, if one did. -/
def makePlan (c : Config) (tr : TuneRequest) (old : TunePlan) : TunePlan × Option ParamCheck :=
  let p := planFront c tr old
  match pllCompute c.clock p.pllMhz (tuneRefKhz tr) with
  | .error e => (p, some e)
  | .ok r =>
    let p := planPll r p
    match tsDivider tr.fb.toNat p.mclkKhz with
    | .error e => (p, some e)
    | .ok div => (planBack c tr div p, none)

/-- Entering Programming (R206). -/
def enterProgramming (s : State) : State :=
  programFrom programmingSteps
    { s with lockState := .programming, accErr := 0, accCnt := 0, pollIter := 0, lastLockByte := 0, selIsi := 0 }

/-- CHECK after the chip-ready check: validate, plan, program (R203 to R206). -/
def tuneCheck (s : State) : State :=
  match validateRequest s.cfg s.tr with
  | some c => raiseParam .tune c s
  | none =>
    match makePlan s.cfg s.tr s.plan with
    | (p, some c) => raiseParam .tune c { s with plan := p }
    | (p, none) => enterProgramming { s with plan := p }

/-- TUNE from its acceptance: latch TR, LockState Idle, CHECK, the chip-ready check (R201, R202, R316). -/
def tuneStart (s : State) : State :=
  let s := { s with tr := tuneRequest s, lockState := .idle, seq := .check }
  if s.chipReady then computePoint tuneCheck s else raiseNotReady .tune s

/-! ## ABORT while busy -/

/-- ABORT while a command runs: a TUNE's abort request is set, any other command is left alone (R231). -/
def abortWhileBusy (s : State) : State := if s.running = some .tune then { s with abortReq := true } else s

end Sys2Proof.Machine
end

