-- ==== Sys2Proof/Machine/Estimator.lean ====
section
/-! DEFINITION. The signal-quality estimator: gain and RF power (R251 to R256), CNR (R260 to R268), BER (R270 to R280), and
how each measurement command runs (R250). -/

namespace Sys2Proof.Machine

/-- A measurement command needs chip_ready when it is accepted (R250, R316); then it begins its reads. -/
def measureStart (i : Instr) (begin_ : State → State) (s : State) : State :=
  if s.chipReady then begin_ s else raiseNotReady i s

/-! ## Gain and RF power -/

/-- The frequency regime of m MHz (R251). -/
def regime (m : Nat) : Fin 3 :=
  if m < Config.gainRegimeLoMhz then 0 else if m < Config.gainRegimeHiMhz then 1 else 2

/-- The table-summed stage gain of a raw code (R252). -/
def stageSum (mode : GainSumMode) (row : List Int) (code : Nat) : Int :=
  match mode with
  | .inclusive => (row.take (min code (row.length - 1) + 1)).sum
  | .exclusive => (row.take (min code row.length)).sum

/-- The baseband power of a byte: the high nibble selects the row (R254). -/
def basebandPower (q : QualityConfig) (b : Nat) : Int := (q.bbpTab.toList.getD (b / 16) default).toList.getD (b % 16) 0

/-- The seven fields of GAIN, in reading order (R255). -/
def gainFields (m : ChipMap) : List FieldDesc := [m.fRf, m.fIf, m.fTia, m.fBb, m.fPga2Int, m.fPga2Frac, m.fBbp]

/-- The eight signed results of GAIN from its regime and raw values (R253, R255, R256). -/
def gainValues (q : QualityConfig) (r : Fin 3) (raw : List Nat) : List Int :=
  let rf := stageSum q.gainSumMode q.gainRfTab[r] (raw.getD 0 0)
  let if_ := stageSum q.gainSumMode q.gainIfTab[r] (raw.getD 1 0)
  let tia := (raw.getD 2 0 : Int) * q.tiaStep
  let bb := stageSum q.gainSumMode q.gainBbTab[r] (raw.getD 3 0)
  let pga2 := (raw.getD 4 0 : Int) * q.pga2IntStep + (raw.getD 5 0 : Int) * q.pga2FracStep
  let total := rf + if_ + tia + bb + pga2
  let bbp := basebandPower q (raw.getD 6 0)
  [rf, if_, tia, bb, pga2, total, bbp, total - q.gainOffset[r] - bbp]

/-- The reads of GAIN have ended (R255). -/
def gainDone (s : State) : State :=
  let raw := fieldValues (gainFields s.cfg.chipMap) s.got
  complete (results ((gainValues s.cfg.quality (regime (gainFreqMhz s)) raw).map s32)) s

/-- GAIN begins its reads (R255). -/
def gainBegin (s : State) : State := load (fieldsReads (gainFields s.cfg.chipMap)) .gain gainDone s

/-! ## CNR -/

/-- The ten fields of CNR_S1 (R260, R262). -/
def cnrS1Fields (m : ChipMap) : List FieldDesc := List.replicate Config.cnrSamples m.fNeS1

/-- The floored average of the samples (R261, R264). -/
def average (samples : List Nat) : Nat := samples.sum / Config.cnrSamples

/-- The table index of an average: clamped to 32 (R261). -/
def cnrS1Index (avg : Nat) : Nat := min avg Config.cnrS1Clamp

/-- The DVB-S1 CNR of a table index, truncated toward zero (R261). -/
def cnrS1Value (q : QualityConfig) (v : Nat) : Int :=
  Int.tdiv (q.lnTab.toList.getD v 0 * q.lnScaleNum) q.lnScaleDen

/-- The reads of CNR_S1 have ended (R262). -/
def cnrS1Done (s : State) : State :=
  let avg := average (fieldValues (cnrS1Fields s.cfg.chipMap) s.got)
  let v := cnrS1Index avg
  complete (results [s32 (cnrS1Value s.cfg.quality v), regWord avg, regWord v]) s

/-- CNR_S1 begins its reads (R262). -/
def cnrS1Begin (s : State) : State := load (fieldsReads (cnrS1Fields s.cfg.chipMap)) .cnrS1 cnrS1Done s

/-- The thirty fields of CNR_S2: three a sample (R265). -/
def cnrS2Fields (m : ChipMap) : List FieldDesc :=
  (List.replicate Config.cnrSamples [m.fSigS2, m.fNoiseHi, m.fNoiseLo]).flatten

/-- sig_k of one sample's top byte (R265). -/
def signalPower (t : Nat) : Nat := t * t

/-- noise_k of one sample's two noise fields (R265). -/
def noisePower (loWidth hi lo : Nat) : Nat := (hi * 2 ^ loWidth + lo % 2 ^ loWidth) % 2 ^ Config.noiseWidth

/-- sig_k of every sample (R265). -/
def signalSamples : List Nat → List Nat
  | t :: _ :: _ :: rest => signalPower t :: signalSamples rest
  | _ => []

/-- noise_k of every sample (R265). -/
def noiseSamples (loWidth : Nat) : List Nat → List Nat
  | _ :: hi :: lo :: rest => noisePower loWidth hi lo :: noiseSamples loWidth rest
  | _ => []

/-- The table index of two nonzero averages: the clamped ratio of the larger to the smaller, less one (R267). -/
def cnrS2Index (sig noise : Nat) : Nat :=
  min (if sig ≥ noise then sig / noise else noise / sig) Config.cnrRatioClamp - 1

/-- The DVB-S2 CNR of two averages and the table index used, none in the zero cases (R266, R267). -/
def cnrS2Value (q : QualityConfig) (sig noise : Nat) : Int × Option Nat :=
  if sig = 0 ∧ noise = 0 then (q.cnrBothZero, none)
  else if noise = 0 then (q.cnrNoiseZero, none)
  else if sig = 0 then (q.cnrSigZero, none)
  else
    let entry := q.log10Tab.toList.getD (cnrS2Index sig noise) 0
    (if sig ≥ noise then entry else -entry, some (cnrS2Index sig noise))

/-- RES3 of CNR_S2: the index, or all ones where no table was read (R266, R268). -/
def indexWord : Option Nat → Word
  | some i => regWord i
  | none => 0xFFFFFFFF

/-- The reads of CNR_S2 have ended (R268). -/
def cnrS2Done (s : State) : State :=
  let vals := fieldValues (cnrS2Fields s.cfg.chipMap) s.got
  let sig := average (signalSamples vals)
  let noise := average (noiseSamples s.cfg.quality.noiseLoWidth vals)
  let r := cnrS2Value s.cfg.quality sig noise
  complete (results [s32 r.1, regWord sig, regWord noise, indexWord r.2]) s

/-- CNR_S2 begins its reads (R268). -/
def cnrS2Begin (s : State) : State := load (fieldsReads (cnrS2Fields s.cfg.chipMap)) .cnrS2 cnrS2Done s

/-! ## BER -/

/-- The window count field (R270). -/
def berWindowField (d : Dvb) (m : ChipMap) : FieldDesc :=
  match d with
  | .s1 => m.fBerWinS1
  | .s2 => m.fBerWinS2

/-- The error count field (R270). -/
def berErrorField (d : Dvb) (m : ChipMap) : FieldDesc :=
  match d with
  | .s1 => m.fBerErrS1
  | .s2 => m.fBerErrS2

/-- The window count that must be exceeded (R270). -/
def berThreshold (d : Dvb) (q : QualityConfig) : Nat :=
  match d with
  | .s1 => q.berS1Threshold
  | .s2 => Config.berS2Threshold

/-- The bits a window count adds (R270, R275). -/
def berBitsPerCount (d : Dvb) (q : QualityConfig) : Nat :=
  match d with
  | .s1 => q.berBitsPerCountS1
  | .s2 => q.berBitsPerCountS2

/-- The restart program (R270, R277). -/
def berRestartProgram (d : Dvb) (p : Programs) : BusProgram :=
  match d with
  | .s1 => p.berRestartS1
  | .s2 => p.berRestartS2

/-- BER_Q32 of two accumulators (R278). -/
def berQ32 (err cnt : BitVec 64) : BitVec 64 :=
  if cnt = 0 then 0 else BitVec.ofNat 64 (min (err.toNat * 2 ^ 32 / cnt.toNat) (2 ^ 64 - 1))

/-- A BER command completes (R279, R280). -/
def berFinish (accepted : Bool) (win err : Nat) (s : State) : State :=
  let q := berQ32 s.accErr s.accCnt
  complete (results [if accepted then 1 else 0, regWord win, regWord err, lowWord q, highWord q]) s

/-- The restart program has ended (R279, R280). -/
def berRestartDone (win err : Nat) (s : State) : State := berFinish true win err s

/-- An accepted window is added to the accumulators, which wrap mod 2^64 (R276). -/
def berAccumulate (d : Dvb) (win err : Nat) (s : State) : State :=
  { s with
    accErr := s.accErr + BitVec.ofNat 64 err
    accCnt := s.accCnt + BitVec.ofNat 64 (win * berBitsPerCount d s.cfg.quality) }

/-- The error count is read: accumulate, then restart the window (R274, R276, R277). -/
def berErrorsDone (d : Dvb) (win err : Nat) (s : State) : State :=
  load (berRestartProgram d s.cfg.programs) (.berRestart d win err) (berRestartDone win err) (berAccumulate d win err s)

/-- The window count is read: it is accepted only above the threshold (R272, R273, R274). -/
def berWindowDone (d : Dvb) (win : Nat) (s : State) : State :=
  if win > berThreshold d s.cfg.quality then
    load (fieldReads (berErrorField d s.cfg.chipMap)) (.berErrors d win)
      (fun s => berErrorsDone d win (fieldValue (berErrorField d s.cfg.chipMap) s.got) s) s
  else berFinish false win 0 s

/-- A BER command begins its window read (R271). -/
def berBegin (d : Dvb) (s : State) : State :=
  load (fieldReads (berWindowField d s.cfg.chipMap)) (.berWindow d)
    (fun s => berWindowDone d (fieldValue (berWindowField d s.cfg.chipMap) s.got) s) s

end Sys2Proof.Machine
end

