-- ==== Sys2Proof/Machine/Engine.lean ====
section
/-! DEFINITION. The command engine (R310): what it does when the chip ends a transaction, when a tick arrives and when a
computation ends, and how a command word is taken. -/

namespace Sys2Proof.Machine

/-- The transactions of the phase have all succeeded. -/
def phaseDone (s : State) : State :=
  match s.phase with
  | .idle | .computing | .pollWait => s
  | .program => programDone s
  | .pollRead => pollReadDone (s.got.headD 0) s
  | .invRead => invReadDone (fieldValue s.cfg.chipMap.fInvSrc s.got) s
  | .invWrite => invWriteDone s
  | .isiCount => isiCountDone (fieldValue s.cfg.chipMap.fIsiCount s.got) s
  | .isiSlot i cnt first => isiSlotDone i cnt first (s.got.headD 0) s
  | .isiSelect sel => isiSelected sel s
  | .agcNormal => postAux s
  | .gain => gainDone s
  | .cnrS1 => cnrS1Done s
  | .cnrS2 => cnrS2Done s
  | .berWindow d => berWindowDone d (fieldValue (berWindowField d s.cfg.chipMap) s.got) s
  | .berErrors d win => berErrorsDone d win (fieldValue (berErrorField d s.cfg.chipMap) s.got) s
  | .berRestart _ win err => berRestartDone win err s

/-- The bytes a successful transaction gives the block: a read's answer (R88). -/
def answerBytes (t : Txn) (a : Answer) : List Byte :=
  match t with
  | .read _ => [a.byte]
  | .write _ _ | .burst _ _ | .rmw _ _ _ => []

/-- The outstanding transaction of the running command has ended: a failure ends the command, a success leads to the next
transaction, or to what follows the phase (R13, R88, R91). -/
def transactionEnd (t : Txn) (rest : List Txn) (a : Answer) (s : State) : State :=
  if a.ok then
    let s := { s with got := s.got ++ answerBytes t a, todo := rest }
    match rest with
    | [] => phaseDone s
    | _ :: _ => issueHead s
  else busFailure t s

/-- The chip ends the outstanding transaction. One that a reset abandoned has its outcome discarded (R352); with none
outstanding the answer concerns nobody (log entry 9). -/
def chipAnswer (a : Answer) (s : State) : State :=
  match s.orphan with
  | some t => issueHead { deliver t a s with orphan := none }
  | none =>
    match s.todo with
    | [] => s
    | t :: rest => transactionEnd t rest a (deliver t a s)

/-- What a command does once its computation is done. -/
def computation (i : Instr) (s : State) : State :=
  match i with
  | .gold => goldBody s
  | .pll => pllBody s
  | .mclk => mclkBody s
  | .tsclk => tsclkBody s
  | .lpf => lpfBody s
  | .tune => tuneCheck s
  | .nop | .abort | .gain | .cnrS1 | .cnrS2 | .berS1 | .berS2 | .reset => s

/-- The computation in progress ends (R372). -/
def computeDone (s : State) : State :=
  match s.phase, s.running with
  | .computing, some i => computation i { s with phase := .idle }
  | _, _ => s

/-- The stimuli that only the engine and the chip bus react to. -/
def Stimulus.isEngine : Stimulus → Bool
  | .chipAnswer _ | .tick | .computeHold | .computeDone => true
  | .hostRead _ _ | .hostWrite _ _ _ | .chipReadyLevel _ | .rstNLevel _ => false

/-- The reaction to a stimulus that is no host access. -/
def react (x : Stimulus) (s : State) : State :=
  match x with
  | .chipAnswer a => chipAnswer a s
  | .tick => tickPulse s
  | .computeDone => computeDone s
  | .chipReadyLevel level => { s with chipReady := level }
  | .rstNLevel level => rstNChange level s
  | .computeHold | .hostRead _ _ | .hostWrite _ _ _ => s

/-- A command runs on while what arrives next is the engine's own (log entry 7). -/
def runOn : List Stimulus → State → State
  | [], s => s
  | x :: rest, s => if s.busy && x.isEngine then runOn rest (react x { s with inputs := rest }) else s

/-- The running command runs on with the stimuli at hand. -/
def runCommand (s : State) : State := runOn s.inputs s

/-- A command word that is neither ABORT nor RESET: ignored with OVERRUN while busy, else accepted and run (R310, R320). -/
def submit (i : Instr) (start : State → State) (s : State) : State :=
  if s.busy then setOverrun s else runCommand (start (accept i s))

end Sys2Proof.Machine
end

