-- ==== Sys2Proof/Machine/ClockCommands.lean ====
section
/-! DEFINITION. The meanings of PLL, MCLK, TSCLK and LPF (41_clock.md). -/

namespace Sys2Proof.Machine

/-- PLL (R154). -/
def execPll (s : State) : Host.Outcome State Fault Refusal := .next (submit .pll (computePoint pllBody) s)

/-- MCLK (R162). -/
def execMclk (s : State) : Host.Outcome State Fault Refusal := .next (submit .mclk (computePoint mclkBody) s)

/-- TSCLK (R169). -/
def execTsclk (s : State) : Host.Outcome State Fault Refusal := .next (submit .tsclk (computePoint tsclkBody) s)

/-- LPF (R178). -/
def execLpf (s : State) : Host.Outcome State Fault Refusal := .next (submit .lpf (computePoint lpfBody) s)

end Sys2Proof.Machine
end

