-- ==== Sys2Proof/Machine/GoldCommand.lean ====
section
/-! DEFINITION. The meaning of GOLD (40_lfsr.md). -/

namespace Sys2Proof.Machine

/-- GOLD (R133). -/
def execGold (s : State) : Host.Outcome State Fault Refusal := .next (submit .gold (computePoint goldBody) s)

end Sys2Proof.Machine
end

