-- ==== Sys2Proof/Machine/QualityCommands.lean ====
section
/-! DEFINITION. The meanings of GAIN, CNR_S1, CNR_S2, BER_S1 and BER_S2 (43_quality.md). -/

namespace Sys2Proof.Machine

/-- GAIN (R255). -/
def execGain (s : State) : Host.Outcome State Fault Refusal := .next (submit .gain (measureStart .gain gainBegin) s)

/-- CNR_S1 (R262). -/
def execCnrS1 (s : State) : Host.Outcome State Fault Refusal := .next (submit .cnrS1 (measureStart .cnrS1 cnrS1Begin) s)

/-- CNR_S2 (R268). -/
def execCnrS2 (s : State) : Host.Outcome State Fault Refusal := .next (submit .cnrS2 (measureStart .cnrS2 cnrS2Begin) s)

/-- BER_S1 (R279). -/
def execBerS1 (s : State) : Host.Outcome State Fault Refusal :=
  .next (submit .berS1 (measureStart .berS1 (berBegin .s1)) s)

/-- BER_S2 (R280). -/
def execBerS2 (s : State) : Host.Outcome State Fault Refusal :=
  .next (submit .berS2 (measureStart .berS2 (berBegin .s2)) s)

end Sys2Proof.Machine
end

