-- ==== Sys2Proof/Machine/SystemCommands.lean ====
section
/-! DEFINITION. The meanings of NOP and RESET (44_system.md). -/

namespace Sys2Proof.Machine

/-- NOP (R300). -/
def execNop (s : State) : Host.Outcome State Fault Refusal := .next (submit .nop (complete (results [])) s)

/-- RESET, acted on whether or not a command runs (R301, R310). -/
def execReset (s : State) : Host.Outcome State Fault Refusal := .next (resetKeepingCtrl s)

end Sys2Proof.Machine
end

