-- ==== Sys2Proof/Machine/TuneCommands.lean ====
section
/-! DEFINITION. The meanings of TUNE and ABORT (42_sequencer.md). -/

namespace Sys2Proof.Machine

/-- TUNE (R201). -/
def execTune (s : State) : Host.Outcome State Fault Refusal := .next (submit .tune tuneStart s)

/-- ABORT: while busy, a request to the running TUNE; while idle, it completes at once (R231, R310). -/
def execAbort (s : State) : Host.Outcome State Fault Refusal :=
  .next (if s.busy then abortWhileBusy s else complete (results []) (accept .abort s))

end Sys2Proof.Machine
end

