-- ==== Sys2Proof/Machine/Dispatch.lean ====
section
/-! DEFINITION. What the writing of each command's word to CMD does (R310), one arm per command. -/

namespace Sys2Proof.Machine

def exec (i : Instr) (s : State) : Host.Outcome State Fault Refusal :=
  match i with
  | .nop => Sys2Proof.Machine.execNop s
  | .gold => Sys2Proof.Machine.execGold s
  | .pll => Sys2Proof.Machine.execPll s
  | .mclk => Sys2Proof.Machine.execMclk s
  | .tsclk => Sys2Proof.Machine.execTsclk s
  | .lpf => Sys2Proof.Machine.execLpf s
  | .tune => Sys2Proof.Machine.execTune s
  | .abort => Sys2Proof.Machine.execAbort s
  | .gain => Sys2Proof.Machine.execGain s
  | .cnrS1 => Sys2Proof.Machine.execCnrS1 s
  | .cnrS2 => Sys2Proof.Machine.execCnrS2 s
  | .berS1 => Sys2Proof.Machine.execBerS1 s
  | .berS2 => Sys2Proof.Machine.execBerS2 s
  | .reset => Sys2Proof.Machine.execReset s

end Sys2Proof.Machine
end

