-- ==== Sys2Proof/Machine/Window.lean ====
section
/-! DEFINITION. Host accesses to the register window (R80 to R84, R350), but for a write to CMD. -/

namespace Sys2Proof.Machine

/-- The access is one the interface has: in shape (R81) and in the window (R80). -/
def windowed (off nbytes : Nat) (act : State → Host.Outcome State Fault Refusal) (s : State) :
    Host.Outcome State Fault Refusal :=
  if accessShape off nbytes then
    if inWindow off then act s else .fault (.outsideWindow off)
  else .refused (.hostAccessShape off nbytes)

/-- A host read: the register's value is shown, nothing else changes (R80, R84). -/
def hostRead (off : Nat) (s : State) : State := emit (.hostData off (readReg (regAt off) s)) s

/-- A host write of a register other than CMD; while rst_n is low it is ignored (R80, R84, R350). -/
def hostWriteReg (off : Nat) (v : Word) (s : State) : State := if s.rstN then writeReg (regAt off) v s else s

end Sys2Proof.Machine
end

