-- ==== Sys2Proof/Machine/Step.lean ====
section
/-! DEFINITION. One step of the machine: it takes the next thing that arrives at the ports (State.inputs) and reacts to it.
A command word written to CMD is the machine's instruction fetch (R100, R310). -/

namespace Sys2Proof.Machine

/-- A command word written to CMD: decoded (R120) and run, or ILLEGAL (R310). -/
def submitWord (w : Word) (s : State) : Host.Outcome State Fault Refusal :=
  match decode w with
  | .ok i => exec i s
  | .error _ => .next (submitIllegal w s)

/-- A host write (R84, R350). -/
def hostWrite (off : Nat) (v : Word) (s : State) : Host.Outcome State Fault Refusal :=
  if regAt off = .cmd ∧ s.rstN = true then submitWord v s else .next (hostWriteReg off v s)

/-- The reaction to one stimulus, already taken from the inputs. -/
def stimulusStep (x : Stimulus) (s : State) : Host.Outcome State Fault Refusal :=
  match x with
  | .hostRead off nbytes => windowed off nbytes (fun s => .next (hostRead off s)) s
  | .hostWrite off nbytes v => windowed off nbytes (hostWrite off v) s
  | .chipAnswer _ | .tick | .chipReadyLevel _ | .rstNLevel _ | .computeHold | .computeDone => .next (react x s)

/-- One step. With nothing arriving, nothing happens (log entry 3). -/
def step (s : State) : Host.Outcome State Fault Refusal :=
  match s.inputs with
  | [] => .next s
  | x :: rest => stimulusStep x { s with inputs := rest }

/-- The state with a command word as the next thing the host writes to CMD, out of reset. -/
def State.withFetchWord (s : State) (nbits w : Nat) : State :=
  { s with rstN := true, inputs := .hostWrite 0x08 4 (tableWord nbits w) :: s.inputs }

end Sys2Proof.Machine
end

