-- ==== Sys2Proof/Machine/HostProgram.lean ====
section
/-! DEFINITION. The host assembly of R118 and its pseudo-instructions (R119), as the host accesses they stand for. -/

namespace Sys2Proof.Machine

/-- One line of a host program (R118). -/
inductive HostLine where
  /-- WR reg, value -/
  | wr (r : HostReg) (v : Word)
  /-- RD reg -/
  | rd (r : HostReg)
  /-- CMD mnemonic -/
  | cmd (i : Instr)
  /-- WAIT_DONE: read STATUS until bit 1 is set -/
  | waitDone
  /-- CLR_DONE -/
  | clrDone
  deriving DecidableEq, Repr

/-- The host access a line makes; WAIT_DONE makes this one over and over until the value it reads has bit 1 set. -/
def HostLine.access : HostLine → Stimulus
  | .wr r v => .hostWrite r.offset 4 v
  | .rd r => .hostRead r.offset 4
  | .cmd i => .hostWrite HostReg.cmd.offset 4 (encode i)
  | .waitDone => .hostRead HostReg.status.offset 4
  | .clrDone => .hostWrite HostReg.status.offset 4 0x2

/-- WAIT_DONE reads again after a STATUS value with bit 1 clear (R118). -/
def waitAgain (status : Word) : Bool := !status.getLsbD 1

/-- The ARG writes of a CALL, from ARG k on (R119). -/
def callArgs : Nat → List Word → List HostLine
  | _, [] => []
  | k, a :: rest => .wr (regAt (0x10 + 4 * k)) a :: callArgs (k + 1) rest

/-- CALL mnemonic a0, a1, ... (R119). -/
def call (i : Instr) (args : List Word) : List HostLine := callArgs 0 args ++ [.cmd i, .waitDone]

/-- What POLL_STATUS expands to after its read of STATUS, f being the tuned frequency in MHz the host keeps (R119). -/
def pollStatusCalls (status f : Word) : List HostLine :=
  if status.extractLsb' 16 3 = 3 then
    if status.getLsbD 20 then call .gain [f] ++ call .cnrS2 [] ++ call .berS2 []
    else call .gain [f] ++ call .cnrS1 [] ++ call .berS1 []
  else []

/-- The frequency in MHz the host keeps for POLL_STATUS: RES6 of the last TUNE over 1000, floored (R119). -/
def keptFrequency (res6 : Word) : Word := res6 / 1000

end Sys2Proof.Machine
end

