-- ==== Sys2Proof/Safety.lean ====
section
/-! DEFINITION. What counts as a safe run, the invariant of the block, and the plain words claims about it are made in. -/

namespace Sys2Proof.Machine

/-- No command runs (STATUS.BUSY = 0). -/
abbrev Idle (s : State) : Prop := s.running = none

/-- The next stimulus does not say that the computation beginning now takes longer. -/
def Prompt (s : State) : Prop := ∀ rest, s.inputs ≠ .computeHold :: rest

/-- A stimulus that is no host access, or one the interface has (R80, R81). -/
def Stimulus.inInterface : Stimulus → Bool
  | .hostRead off nbytes => accessShape off nbytes && inWindow off
  | .hostWrite off nbytes _ => accessShape off nbytes && inWindow off
  | .chipAnswer _ | .tick | .chipReadyLevel _ | .rstNLevel _ | .computeHold | .computeDone => true

/-- A run of k steps ends in a state, with no fault and no refusal. -/
def RunsSafely (k : Nat) (s : State) : Prop := ∃ t, Sys2Proof.core.run k s = .next t

/-- How far a LockState stands along the source's order (R200). -/
def lockRank : LockState → Nat
  | .idle => 0
  | .programming => 1
  | .polling => 2
  | .locked => 3
  | .timedOut => 3
  | .failed => 4

/-- Where a command can stand between two stimuli: the phases, with the step, LockState and waiting that go with each
(R200, R218, R223, R234). -/
def PhaseFits (s : State) : Prop :=
  match s.phase with
  | .idle => s.running = none ∧ s.todo = []
  | .computing =>
    s.todo = [] ∧
      ((s.running = some .tune ∧ s.seq = .check ∧ s.lockState = .idle) ∨
        (∃ i, s.running = some i ∧ i ∈ [Instr.gold, .pll, .mclk, .tsclk, .lpf]))
  | .program =>
    s.running = some .tune ∧ s.lockState = .programming ∧ s.seq ∈ programmingSteps ∧ s.todo ≠ []
  | .pollRead => s.running = some .tune ∧ s.lockState = .polling ∧ s.seq = .pollRead ∧ s.todo ≠ []
  | .pollWait =>
    s.running = some .tune ∧ s.lockState = .polling ∧ s.seq = .pollWait ∧ s.todo = [] ∧ 0 < s.waitLeft.toNat
  | .invRead | .invWrite => s.running = some .tune ∧ s.lockState = .locked ∧ s.seq = .postInv ∧ s.todo ≠ []
  | .isiCount | .isiSlot _ _ _ | .isiSelect _ =>
    s.running = some .tune ∧ s.lockState = .locked ∧ s.seq = .postIsi ∧ s.todo ≠ []
  | .agcNormal =>
    s.running = some .tune ∧ (s.lockState = .locked ∨ s.lockState = .timedOut) ∧ s.seq = .postAgc ∧ s.todo ≠ []
  | .gain => s.running = some .gain ∧ s.todo ≠ []
  | .cnrS1 => s.running = some .cnrS1 ∧ s.todo ≠ []
  | .cnrS2 => s.running = some .cnrS2 ∧ s.todo ≠ []
  | .berWindow d | .berErrors d _ | .berRestart d _ _ =>
    s.running = some (match d with | .s1 => .berS1 | .s2 => .berS2) ∧ s.todo ≠ []

/-- The invariant of the block. -/
structure BlockInv (s : State) : Prop where
  /-- CTRL's reserved bits read 0 (R32) -/
  ctrlReserved : s.ctrl &&& 0x7 = s.ctrl
  /-- SEL_ISI's bits 31:9 read 0 (R47) -/
  selIsiReserved : s.selIsi.toNat < 512
  /-- what was delivered to the chip is in canonical form, at addresses of the bus (R87) -/
  chipCanonical : Memory.wf s.chip = true
  /-- a running command stands where its rules can put it -/
  phaseFits : PhaseFits s
  /-- commands other than TUNE leave seq at IDLE (R50), and abort_req is only a TUNE's (R53) -/
  onlyTuneSequences : s.running ≠ some .tune → s.seq = .idle ∧ s.abortReq = false
  /-- DONE and ERRCODE are cleared at acceptance and set at the end (R36, R39) -/
  busyFlags : s.running ≠ none → s.done = false ∧ s.errCode = .noError
  /-- LockState is Programming or Polling only while a TUNE runs (R234) -/
  lockTransient : s.lockState = .programming ∨ s.lockState = .polling → s.running = some .tune
  /-- poll_iter is 0..150 (R53) -/
  pollBound : s.pollIter.toNat ≤ 150
  /-- poll_iter is 0 until polling begins (R206), and below 150 while reads are still to come (R218) -/
  pollFresh : s.lockState = .programming → s.pollIter = 0
  pollOpen : s.lockState = .polling → s.pollIter.toNat < 150
  /-- no wait is longer than 20 ticks (R218, R221) -/
  waitBound : s.waitLeft.toNat ≤ 20
  /-- while rst_n is low every state item holds its reset value (R350) -/
  heldInReset : s.rstN = false →
    s = { State.reset with
          cfg := s.cfg, rstN := false, chipReady := s.chipReady, chip := s.chip, inputs := s.inputs
          outputs := s.outputs, orphan := s.orphan }

end Sys2Proof.Machine
end

