-- ==== Sys2Proof/Certificates/Slice0/Obligations.lean ====
section
/-! DEFINITION. The statements about the model, from the numbered rules of spec/, and the words they are made in. A state a
statement names is written out as the state before with the changed fields, so every other field (and with chip every
delivered byte) is unchanged. -/

namespace Sys2Proof.Claims

open Sys2Proof.Machine

/-- s after its command ended without error, the named results first in RES and every other RES 0. -/
def ended (s : State) (r : List Word) : State :=
  { s with
    latch := s.args, latchTsSerial := s.ctrl.getLsbD 1, latchXtal24 := s.ctrl.getLsbD 2
    res := #v[r.getD 0 0, r.getD 1 0, r.getD 2 0, r.getD 3 0, r.getD 4 0, r.getD 5 0, r.getD 6 0, r.getD 7 0]
    done := true, errCode := .noError, abortReq := false, seq := .idle, running := none
    phase := .idle, todo := [], got := [] }

/-- s after its command ended with an error: RES is unchanged. -/
def failedWith (s : State) (code : ErrCode) (info : Word) : State :=
  { s with
    latch := s.args, latchTsSerial := s.ctrl.getLsbD 1, latchXtal24 := s.ctrl.getLsbD 2
    errInfo := info, done := true, errCode := code, abortReq := false, seq := .idle, running := none
    phase := .idle, todo := [], got := [] }

/-- s after its TUNE ended at a step boundary that honoured an abort: place is the code (R50) of the step not started. -/
def abortedAt (s : State) (place : Byte) : State :=
  { s with
    lockState := .failed, errInfo := place ++ (0 : BitVec 24), errCode := .aborted, done := true, abortReq := false
    seq := .idle, running := none, phase := .idle, todo := [], got := [] }

/-- s after its TUNE completed with RES0 = r0 and the other results of R229. -/
def tuneEnded (s : State) (r0 : Word) : State :=
  { s with
    res := #v[r0, s.pollIter.setWidth 32, s.lastLockByte.setWidth 32, regWord s.plan.mclkKhz,
      s.plan.hi2 ++ s.plan.lo2 ++ s.plan.hi1 ++ s.plan.lo1, regWord s.plan.bwKhz, regWord s.plan.realFreqKhz, s.selIsi]
    done := true, errCode := .noError, abortReq := false, seq := .idle, running := none, phase := .idle
    todo := [], got := [] }

/-- The codes of R313. -/
def errCodes : List (ErrCode × BitVec 4) :=
  [(.noError, 0), (.illegal, 1), (.notReady, 3), (.param, 4), (.transport, 5), (.aborted, 7)]

/-- The codes of R49. -/
def lockCodes : List (LockState × BitVec 3) :=
  [(.idle, 0), (.programming, 1), (.polling, 2), (.locked, 3), (.timedOut, 4), (.failed, 5)]

/-- The codes of R50. -/
def stepCodes : List (SeqStep × Byte) :=
  [(.idle, 0x00), (.check, 0x01), (.pReset, 0x02), (.pTsclr, 0x03), (.pMclk, 0x04), (.pAgcCautious, 0x05), (.pPll, 0x06),
    (.pTsclk, 0x07), (.pLpf, 0x08), (.pBulk, 0x09), (.pDelsys, 0x0A), (.pPls, 0x0B), (.pollRead, 0x10), (.pollWait, 0x11),
    (.postInv, 0x20), (.postIsi, 0x21), (.postAgc, 0x22), (.postAux, 0x23)]

/-- The next stimulus is not the engine's own, or there is none: the running command stops and waits. -/
def Waits (l : List Stimulus) : Prop := ∀ x rest, l = x :: rest → x.isEngine = false

/-- Chip answers as stimuli. -/
def answers (as : List Answer) : List Stimulus := as.map .chipAnswer

/-- Transactions as port events. -/
def issued (ts : List Txn) : List PortEvent := ts.map .bus

/-- Every transaction is answered, with success. -/
def AllSucceed (ts : List Txn) (as : List Answer) : Prop := as.length = ts.length ∧ ∀ a ∈ as, a.ok = true

/-- The bytes successful transactions deliver, in order. -/
def deliveredBy : List Txn → List Answer → List (BusAddr × Byte)
  | t :: ts, a :: as => txnCells a.byte t ++ deliveredBy ts as
  | _, _ => []

/-- band(m) = b, as R150 says it: the least row whose bound m reaches. -/
def BandIs (c : ClockConfig) (m b : Nat) : Prop :=
  b < 9 ∧ (c.bands.toList.getD b default).loMhz ≤ m ∧ ∀ j, j < b → m < (c.bands.toList.getD j default).loMhz

/-- Q of one path, as R152 says it. -/
def pathQ (m r rd d : Nat) : Nat := m * 1000000 * d * (rd + 8) / (r * 1000)

/-- N of one path, as R152 says it. -/
def pathN (q : Nat) : Nat := (q - 1024) / 2

/-- {hi, lo} of one path, as R153 says it. -/
def pathPair (n lomod : Nat) : Nat := ((n / 256 + lomod) % 128) * 256 + n % 256

/-- off(c) of R160. -/
def folded (f c : Nat) : Nat := min (f % c) (c - f % c)

/-- The raw taps of R166 and R167, stage by stage. -/
def rawTaps (d : Nat) : List Nat :=
  if d ≤ 32 then [d / 2, d - d / 2, 0, 0]
  else if d ≤ 48 then [d / 3, (d - d / 3) / 2, (d - d / 3) - (d - d / 3) / 2, 0]
  else if d ≤ 64 then
    [d / 4, (d - d / 4) / 3, ((d - d / 4) - (d - d / 4) / 3) / 2,
      ((d - d / 4) - (d - d / 4) / 3) - ((d - d / 4) - (d - d / 4) / 3) / 2]
  else [16, 16, 16, 16]

/-- N of R166. -/
def stages (d : Nat) : Nat := if d ≤ 32 then 2 else if d ≤ 48 then 3 else 4

/-- enc of one tap, as R168 says it. -/
def encTap (serial : Bool) (t : Nat) : Nat :=
  let minTap := if serial then 8 else 9
  if t = 16 then 0 else if 0 < t ∧ t < minTap then minTap else t

/-- Four byte values as one register, the first in bits 7:0. -/
def packTaps (l : List Nat) : Nat := l.getD 0 0 + 256 * l.getD 1 0 + 65536 * l.getD 2 0 + 16777216 * l.getD 3 0

/-- TR of R51 from the operand registers. -/
def request (s : State) : TuneRequest :=
  { freqHz := s.args[0], sr := s.args[1], delsys := s.args[2].extractLsb' 0 2, mod := s.args[2].extractLsb' 4 3
    isi := s.args[3].extractLsb' 0 8, nofilter := s.args[3].getLsbD 31, scrIdx := s.args[4], fb := s.args[5]
    tsSerial := s.ctrl.getLsbD 1, xtal24 := s.ctrl.getLsbD 2 }

/-- The checks of R203 pass. -/
def RequestOk (c : Config) (tr : TuneRequest) : Prop :=
  950000000 ≤ tr.freqHz.toNat ∧ tr.freqHz.toNat ≤ 2150000000 ∧ c.clock.srMin ≤ tr.sr.toNat ∧
    tr.sr.toNat ≤ c.clock.srMax ∧ tr.delsys.toNat ≤ 1 ∧ tr.mod.toNat ≤ 4

/-- The transactions of P_RESET to P_PLS in strict order (R206 to R216). -/
def programmingTxns (c : Config) (tr : TuneRequest) (p : TunePlan) : List Txn :=
  c.programs.resetPulse ++ c.programs.tsClear ++ c.programs.mclk.toList.getD p.mclkCand [] ++ c.programs.agcCautious
    ++ [.write c.chipMap.pllRefdivAddr p.refDiv, .write c.chipMap.pllP1LoAddr p.lo1, .write c.chipMap.pllP1HiAddr p.hi1,
        .write c.chipMap.pllP2LoAddr p.lo2, .write c.chipMap.pllP2HiAddr p.hi2]
    ++ [.write c.chipMap.tsTapAddr[0] (BitVec.ofNat 8 p.tsEnc[0]), .write c.chipMap.tsTapAddr[1] (BitVec.ofNat 8 p.tsEnc[1]),
        .write c.chipMap.tsTapAddr[2] (BitVec.ofNat 8 p.tsEnc[2]), .write c.chipMap.tsTapAddr[3] (BitVec.ofNat 8 p.tsEnc[3]),
        .write c.chipMap.tsNstageAddr (BitVec.ofNat 8 p.tsN)]
    ++ lpfProgram c.programs p.bwKhz ++ c.programs.bulkPreset ++ c.programs.delsys.toList.getD tr.delsys.toNat []
    ++ [.write c.chipMap.plsAddr[0] p.pls[0], .write c.chipMap.plsAddr[1] p.pls[1], .write c.chipMap.plsAddr[2] p.pls[2]]

/-- The answers a list of fields reads, field by field, as one list. -/
def fieldAnswers (groups : List (List Answer)) : List Answer := groups.flatten

/-- One group of successful answers for every field, one answer for each of its bytes. -/
def FieldsAnswered : List FieldDesc → List (List Answer) → Prop
  | [], [] => True
  | f :: fs, g :: gs => g.length = f.nbytes ∧ (∀ a ∈ g, a.ok = true) ∧ FieldsAnswered fs gs
  | _, _ => False

/-- The value of ReadField(F) from its answers, as R90 says it: raw, shifted, masked. -/
def fieldOf (f : FieldDesc) (g : List Answer) : Nat :=
  let weigh := fun (bs : List Answer) => bs.foldr (fun a v => a.byte.toNat + 256 * v) 0
  (match f.order with
    | .le => weigh g
    | .be => weigh g.reverse) / 2 ^ f.rshift % 2 ^ f.width

/-- The value of the k-th of several fields. -/
def valueAt (fs : List FieldDesc) (gs : List (List Answer)) (k : Nat) : Nat :=
  fieldOf (fs.getD k default) (gs.getD k [])

/-- The reads of fields one after another, addresses rising from each field's own (R90). -/
def readsOf (fs : List FieldDesc) : List Txn :=
  fs.flatMap fun f => (List.range f.nbytes).map fun j => .read (f.addr + BitVec.ofNat 16 j)

/-- The state after a BER command whose accumulators are e and c, the bus having shown evs. -/
def berEnded (s : State) (rest : List Stimulus) (evs : List PortEvent) (chip : Memory) (e c : BitVec 64)
    (acc win err : Nat) : State :=
  let q := if c.toNat = 0 then 0 else min (e.toNat * 2 ^ 32 / c.toNat) (2 ^ 64 - 1)
  { ended s [BitVec.ofNat 32 acc, regWord win, regWord err, BitVec.ofNat 32 (q % 2 ^ 32), BitVec.ofNat 32 (q / 2 ^ 32)] with
    inputs := rest, outputs := s.outputs ++ evs, chip := chip, accErr := e, accCnt := c }

/-- The command and the parameters of each delivery system's BER (R270). -/
def berInstr : Dvb → Instr
  | .s1 => .berS1
  | .s2 => .berS2

/-- The window field, error field, threshold, bits per count and restart program of R270. -/
def berRow (c : Config) : Dvb → FieldDesc × FieldDesc × Nat × Nat × BusProgram
  | .s1 => (c.chipMap.fBerWinS1, c.chipMap.fBerErrS1, c.quality.berS1Threshold, c.quality.berBitsPerCountS1,
      c.programs.berRestartS1)
  | .s2 => (c.chipMap.fBerWinS2, c.chipMap.fBerErrS2, 4000, c.quality.berBitsPerCountS2, c.programs.berRestartS2)

/-- Poll reads that find no lock, each followed by 20 ticks. -/
def pollRounds (as : List Answer) : List Stimulus :=
  as.flatMap fun a => .chipAnswer a :: List.replicate 20 .tick

/-- A lock-status byte that is neither full-lock pattern (R222). -/
def notLocked (a : Answer) : Prop := a.ok = true ∧ a.byte ≠ 0x8F ∧ a.byte ≠ 0xF7

end Sys2Proof.Claims

open Sys2Proof Sys2Proof.Machine Sys2Proof.Claims

/-! ## Decoding and fetching -/

/-- R111, R115, R116, R120 over bytes: the decoder reads i and leaves rest exactly when the bytes are i's word, least
significant byte first, and rest. Both directions, so no encoding bit is dropped and no other word means i. -/
def Obligations.DecodeBytesInvertsEncode : Prop :=
  ∀ (bytes rest : List Byte) (i : Instr),
    decodeBytes bytes = .ok (i, rest) ↔ bytes = bytesOfWord (encode i) ++ rest

/-- R111. -/
def Obligations.DecodeAcceptsExactlyTheOpcodeMap : Prop :=
  ∀ w : Word, (∃ i, decode w = .ok i) ↔
    (w.extractLsb' 8 24 = 0 ∧ w.extractLsb' 0 8 ∈
      ([0x00, 0x01, 0x02, 0x03, 0x04, 0x05, 0x10, 0x11, 0x20, 0x21, 0x22, 0x23, 0x24, 0xFF] : List Byte))

/-- R115, word by word, with illegal words of R116. -/
def Obligations.OpcodeMapWordsDecode : Prop :=
  decode 0x00000000 = .ok .nop ∧ decode 0x00000001 = .ok .gold ∧ decode 0x00000002 = .ok .pll ∧
  decode 0x00000003 = .ok .mclk ∧ decode 0x00000004 = .ok .tsclk ∧ decode 0x00000005 = .ok .lpf ∧
  decode 0x00000010 = .ok .tune ∧ decode 0x00000011 = .ok .abort ∧ decode 0x00000020 = .ok .gain ∧
  decode 0x00000021 = .ok .cnrS1 ∧ decode 0x00000022 = .ok .cnrS2 ∧ decode 0x00000023 = .ok .berS1 ∧
  decode 0x00000024 = .ok .berS2 ∧ decode 0x000000FF = .ok .reset ∧
  decode 0x00000101 = .error .mbzNotZero ∧ decode 0x00000006 = .error (.reservedOpcode 0x06)

/-- R85, R100, R310: a command word the host writes to CMD, out of reset, runs as the command it decodes to, on the state
with that write taken from the inputs. -/
def Obligations.StepRunsSubmittedCommand : Prop :=
  ∀ (s : State) (w : Word) (i : Instr) (rest : List Stimulus),
    s.inputs = .hostWrite 0x08 4 w :: rest → s.rstN = true → decode w = .ok i →
      step s = exec i { s with inputs := rest }

/-- R315: a word that decodes to no command, written while idle. -/
def Obligations.IllegalWordEndsWithIllegal : Prop :=
  ∀ (s : State) (w : Word) (rest : List Stimulus),
    s.inputs = .hostWrite 0x08 4 w :: rest → s.rstN = true → Idle s → (∀ i, w ≠ encode i) →
      step s = .next { failedWith s .illegal w with inputs := rest }

/-- R320, R117: any word but the exact ABORT and RESET words, written while a command runs. -/
def Obligations.BusyWordOnlySetsOverrun : Prop :=
  ∀ (s : State) (w : Word) (rest : List Stimulus),
    s.inputs = .hostWrite 0x08 4 w :: rest → s.rstN = true → s.running ≠ none → w ≠ 0x00000011 → w ≠ 0x000000FF →
      step s = .next { s with inputs := rest, overrun := true }

/-! ## The host window -/

/-- R31, R80, R83, R84: a host read shows the register's value and changes nothing else. ERRCODE, LOCKSTATE and STEP show the
code that R313, R49 and R50 give the error, the LockState and the step. -/
def Obligations.HostReadShowsRegister : Prop :=
  ∀ (s : State) (off : Nat) (rest : List Stimulus), s.inputs = .hostRead off 4 :: rest → off % 4 = 0 → off < 128 →
    ∃ v : Word, step s = .next { s with inputs := rest, outputs := s.outputs ++ [.hostData off v] } ∧
      (off = 0x00 → v = s.ctrl) ∧ (off = 0x08 → v = 0) ∧ (off = 0x0C → v = s.errInfo) ∧
      (∀ k : Fin 8, off = 0x10 + 4 * k.val → v = s.args[k]) ∧ (∀ k : Fin 8, off = 0x30 + 4 * k.val → v = s.res[k]) ∧
      (off = 0x54 → v = s.mclkKhz) ∧ (off = 0x58 → v = s.selIsi) ∧
      (off = 0x5C → v = s.accErr.extractLsb' 0 32) ∧ (off = 0x60 → v = s.accErr.extractLsb' 32 32) ∧
      (off = 0x64 → v = s.accCnt.extractLsb' 0 32) ∧ (off = 0x68 → v = s.accCnt.extractLsb' 32 32) ∧
      (off = 0x6C → v = 0x4D540007) ∧ (0x70 ≤ off → v = 0) ∧
      (off = 0x04 → v.getLsbD 0 = s.running.isSome ∧ v.getLsbD 1 = s.done ∧ v.getLsbD 2 = s.overrun ∧
        v.getLsbD 3 = s.chipReady ∧ v.extractLsb' 4 4 = 0 ∧ (s.errCode, v.extractLsb' 8 4) ∈ errCodes ∧
        v.extractLsb' 12 4 = 0 ∧ (s.lockState, v.extractLsb' 16 3) ∈ lockCodes ∧ v.getLsbD 19 = false ∧
        v.getLsbD 20 = s.lockDelsys ∧ v.extractLsb' 21 11 = 0) ∧
      (off = 0x50 → (s.seq, v.extractLsb' 0 8) ∈ stepCodes ∧ v.extractLsb' 8 8 = s.pollIter ∧
        v.extractLsb' 16 8 = s.lastLockByte ∧ v.extractLsb' 24 8 = 0)

/-- R84, with R32, R36, R37, R40: what a host write of each register other than CMD does, out of reset. -/
def Obligations.HostWriteActsByRights : Prop :=
  ∀ (s : State) (off : Nat) (v : Word) (rest : List Stimulus),
    s.inputs = .hostWrite off 4 v :: rest → s.rstN = true → off % 4 = 0 → off < 128 →
      (off = 0x00 → step s = .next { s with inputs := rest, ctrl := v &&& 0x7 }) ∧
      (off = 0x04 → step s = .next { s with inputs := rest, done := s.done && !v.getLsbD 1,
                                            overrun := s.overrun && !v.getLsbD 2 }) ∧
      (∀ k : Fin 8, off = 0x10 + 4 * k.val → step s = .next { s with inputs := rest, args := s.args.set k v }) ∧
      (off = 0x0C ∨ 0x30 ≤ off → step s = .next { s with inputs := rest })

/-- R81, R80: what the interface does not have stops the machine, and nothing else does. -/
def Obligations.StopsExactlyOnAccessesOutsideTheInterface : Prop :=
  ∀ s : State,
    (∀ t, step s ≠ .next t) ↔
      ∃ x rest, s.inputs = x :: rest ∧
        ((∃ off n, x = .hostRead off n ∧ (n ≠ 4 ∨ off % 4 ≠ 0 ∨ 128 ≤ off)) ∨
          ∃ off n v, x = .hostWrite off n v ∧ (n ≠ 4 ∨ off % 4 ≠ 0 ∨ 128 ≤ off))

/-- R36, R369: a host write of STATUS followed by the end of the command leaves DONE at 1, whatever was written, however the
command ends: by an error, by the last transaction of a command that completes, or by the end of a computation. The model
serialises a clear in the cycle of the end this way (log entry 10). -/
def Obligations.DoneEndsSetAfterAnEarlierClear : Prop :=
  ∀ (s : State) (v : Word) (x : Stimulus) (rest : List Stimulus),
    s.inputs = .hostWrite 0x04 4 v :: x :: rest → s.rstN = true → s.running ≠ none →
    (∀ u, x.isEngine = true → Sys2Proof.core.run 2 s = .next u → u.running = none →
      u.done = true ∧ u.irq = s.ctrl.getLsbD 0) ∧
    (∀ (a : Answer) (t : Txn) (todo : List Txn), x = .chipAnswer a → s.orphan = none → s.todo = t :: todo → a.ok = false →
      ∃ u, Sys2Proof.core.run 2 s = .next u ∧ u.done = true ∧ u.running = none ∧ u.irq = s.ctrl.getLsbD 0) ∧
    (∀ (a : Answer) (t : Txn), x = .chipAnswer a → s.orphan = none → s.todo = [t] → a.ok = true →
      (s.phase ∈ [Phase.gain, .cnrS1, .cnrS2, .agcNormal] ∨ ∃ d win err, s.phase = .berRestart d win err) →
      ∃ u, Sys2Proof.core.run 2 s = .next u ∧ u.done = true ∧ u.running = none ∧ u.irq = s.ctrl.getLsbD 0) ∧
    (∀ i, x = .computeDone → s.phase = .computing → s.running = some i → i ∈ [Instr.gold, .pll, .mclk, .tsclk, .lpf] →
      ∃ u, Sys2Proof.core.run 2 s = .next u ∧ u.done = true ∧ u.running = none ∧ u.irq = s.ctrl.getLsbD 0)

/-! ## Reset -/

/-- R57: the state after reset. -/
def Obligations.ResetStateHoldsStatedValues : Prop :=
  State.reset.ctrl = 0 ∧ State.reset.busy = false ∧ State.reset.done = false ∧ State.reset.overrun = false ∧
  State.reset.errCode.code = 0 ∧ State.reset.lockState.code = 0 ∧ State.reset.lockDelsys = false ∧
  State.reset.errInfo = 0 ∧ (∀ k : Fin 8, State.reset.args[k] = 0 ∧ State.reset.latch[k] = 0 ∧ State.reset.res[k] = 0) ∧
  State.reset.latchTsSerial = false ∧ State.reset.latchXtal24 = false ∧
  State.reset.seq.code = 0 ∧ State.reset.pollIter = 0 ∧ State.reset.waitLeft = 0 ∧ State.reset.lastLockByte = 0 ∧
  State.reset.abortReq = false ∧ State.reset.mclkKhz = 0 ∧ State.reset.selIsi = 0 ∧ State.reset.accErr = 0 ∧
  State.reset.accCnt = 0 ∧
  State.reset.tr = { freqHz := 0, sr := 0, delsys := 0, mod := 0, isi := 0, nofilter := false, scrIdx := 0, fb := 0,
                     tsSerial := false, xtal24 := false } ∧
  State.reset.plan = { realFreqKhz := 0, pllMhz := 0, lpfOffsetKhz := 0, bwKhz := 0, mclkKhz := 0, mclkCand := 0,
                       refDiv := 0, band := 0, n1 := 0, n2 := 0, lo1 := 0, hi1 := 0, lo2 := 0, hi2 := 0, tsDiv := 0,
                       tsN := 0, tsRaw := #v[0, 0, 0, 0], tsEnc := #v[0, 0, 0, 0], pls := #v[0, 0, 0] } ∧
  State.reset.irq = false ∧ readReg (regAt 0x6C) State.reset = 0x4D540007 ∧
  ∀ level : Bool, ({ State.reset with chipReady := level } : State).statusWord.getLsbD 3 = level

/-- R350, R351, R352: rst_n going low sets every item of R57 to its reset value; a transaction in flight stays on the bus. A
host write while rst_n is low is ignored. That a transaction which an earlier reset abandoned is still the one in flight at a
second reset is the model's inference (log entry 8). -/
def Obligations.RstNLowResetsAndIgnoresWrites : Prop :=
  (∀ (s : State) (rest : List Stimulus), s.inputs = .rstNLevel false :: rest →
    step s = .next { State.reset with
      cfg := s.cfg, rstN := false, chipReady := s.chipReady, chip := s.chip, inputs := rest, outputs := s.outputs
      orphan := (if s.orphan = none then s.todo.head? else s.orphan) }) ∧
  (∀ (s : State) (off : Nat) (v : Word) (rest : List Stimulus), s.inputs = .hostWrite off 4 v :: rest →
    s.rstN = false → off % 4 = 0 → off < 128 → step s = .next { s with inputs := rest }) ∧
  (∀ (s : State) (rest : List Stimulus), s.inputs = .rstNLevel true :: rest →
    step s = .next { s with inputs := rest, rstN := true })

/-- R301, R353: RESET, idle or busy. -/
def Obligations.ResetCommandKeepsCtrl : Prop :=
  encode .reset = 0x000000FF ∧
  ∀ s : State, exec .reset s = .next { State.reset with
    cfg := s.cfg, ctrl := s.ctrl, rstN := s.rstN, chipReady := s.chipReady, chip := s.chip, inputs := s.inputs
    outputs := s.outputs, orphan := (if s.orphan = none then s.todo.head? else s.orphan) }

/-- R352, R88: the outcome of a transaction that a reset abandoned is discarded, whatever it is; its bytes reach the chip; the
next command's first transaction is issued then (log entry 8). -/
def Obligations.AbandonedTransactionIsDiscarded : Prop :=
  ∀ (s : State) (t : Txn) (a : Answer) (rest : List Stimulus), s.inputs = .chipAnswer a :: rest → s.orphan = some t →
    step s = .next { s with
      inputs := rest, orphan := none
      chip := Memory.storeAll (if a.ok then txnCells a.byte t else (txnCells a.byte t).take a.delivered) s.chip
      outputs := s.outputs ++ (match s.todo with | [] => [] | u :: _ => [.bus u]) }

/-! ## System commands, ABORT -/

/-- R300. -/
def Obligations.NopCompletes : Prop :=
  encode .nop = 0x00000000 ∧
  ∀ s : State,
    (Idle s → exec .nop s = .next (ended s [])) ∧ (¬ Idle s → exec .nop s = .next { s with overrun := true })

/-- R231, its command half: idle, it completes; while a TUNE runs it sets abort_req; while another command runs, nothing. -/
def Obligations.AbortCompletesRequestsOrDoesNothing : Prop :=
  ∀ s : State,
    (Idle s → exec .abort s = .next (ended s [])) ∧
    (s.running = some .tune → exec .abort s = .next { s with abortReq := true }) ∧
    (∀ i, s.running = some i → i ≠ .tune → exec .abort s = .next s)

/-- R231, its boundary half: a TUNE with abort_req = 1 ends at its next step boundary, Failed, ABORTED naming the step that has
not started: P_RESET after CHECK, each next step after a programming step's last transaction, POLL_READ after a wait,
POLL_WAIT, POST_INV or POST_AGC after a lock-status read, POST_ISI or POST_AGC after the inversion, POST_AGC after a slot count
of 0 or the selection, POST_AUX after POST_AGC. Where no POST_AUX follows POST_AGC the TUNE completes. That the abort is
honoured at POST_AUX is R231's pseudocode, against a row of 95_test_vectors.md: the model's choice (log entry 17). -/
def Obligations.AbortIsHonouredAtStepBoundaries : Prop :=
  ∀ (s : State) (rest : List Stimulus), s.running = some .tune → s.abortReq = true → s.orphan = none →
    (∀ p : TunePlan, s.phase = .computing → RequestOk s.cfg s.tr → makePlan s.cfg s.tr s.plan = (p, none) →
      s.inputs = .computeDone :: rest →
      step s = .next (abortedAt { s with
        inputs := rest, plan := p, accErr := 0, accCnt := 0, pollIter := 0, lastLockByte := 0, selIsi := 0 } 0x02)) ∧
    (s.phase = .pollWait → s.waitLeft = 1 → s.inputs = .tick :: rest →
      step s = .next (abortedAt { s with inputs := rest, waitLeft := 0 } 0x10)) ∧
    (∀ (t : Txn) (a : Answer) (u : State), s.todo = [t] → a.ok = true → s.inputs = .chipAnswer a :: rest →
      u = { s with inputs := rest, chip := Memory.storeAll (txnCells a.byte t) s.chip } →
      (∀ place, s.phase = .program →
        (s.seq, place) ∈ [(SeqStep.pReset, (0x03 : Byte)), (.pTsclr, 0x04), (.pMclk, 0x05), (.pAgcCautious, 0x06),
          (.pPll, 0x07), (.pTsclk, 0x08), (.pLpf, 0x09), (.pBulk, 0x0A), (.pDelsys, 0x0B), (.pPls, 0x10)] →
        step s = .next (abortedAt { u with
          mclkKhz := if s.seq = .pMclk then regWord s.plan.mclkKhz else s.mclkKhz } place)) ∧
      (∀ (x : BusAddr) (v : State), s.phase = .pollRead → t = .read x → s.got = [] →
        v = { u with pollIter := s.pollIter + 1, lastLockByte := a.byte } →
        (a.byte = 0x8F → step s = .next (abortedAt { v with lockDelsys := true } 0x20)) ∧
        (a.byte = 0xF7 → step s = .next (abortedAt { v with lockDelsys := false } 0x22)) ∧
        (a.byte ≠ 0x8F → a.byte ≠ 0xF7 → s.pollIter + 1 = 150 → step s = .next (abortedAt v 0x22)) ∧
        (a.byte ≠ 0x8F → a.byte ≠ 0xF7 → s.pollIter + 1 ≠ 150 → step s = .next (abortedAt v 0x11))) ∧
      (s.phase = .invWrite → step s = .next (abortedAt u (if s.tr.nofilter then 0x22 else 0x21))) ∧
      (∀ (x : BusAddr) (before : List Answer), s.phase = .isiCount → t = .read x → s.got = before.map Answer.byte →
        min (fieldOf s.cfg.chipMap.fIsiCount (before ++ [a])) s.cfg.options.isiMaxSlots = 0 →
        step s = .next (abortedAt u 0x22)) ∧
      (∀ sel, s.phase = .isiSelect sel →
        step s = .next (abortedAt { u with selIsi := BitVec.ofNat 32 (256 + sel.toNat) } 0x22)) ∧
      (s.phase = .agcNormal → s.lockState = .locked → s.cfg.options.auxPresent = true →
        step s = .next (abortedAt u 0x23)) ∧
      (s.phase = .agcNormal → s.lockState = .locked → s.cfg.options.auxPresent = false →
        step s = .next (tuneEnded u 3)) ∧
      (s.phase = .agcNormal → s.lockState = .timedOut → step s = .next (tuneEnded u 4)))

/-! ## GOLD -/

/-- R130, bit by bit. -/
def Obligations.LfsrStepShiftsFeedbackIn : Prop :=
  ∀ (tap : Fin 18) (s : GoldCode) (j : Nat), j < 18 →
    (lfsrStep tap s).getLsbD j = if j = 17 then s.getLsbD 0 ^^ s.getLsbD tap.val else s.getLsbD (j + 1)

/-- R132: the table the model holds for GOLD_SEED = 0x00001 and GOLD_TAP = 17 is the reference generator's. -/
def Obligations.CheckpointTableIsTheReference : Prop :=
  ∀ k, k < 53 → Config.checkpointsTap17.toList.getD k 0 = lfsrIter 17 (5000 * k) 0x00001

/-- R133: GOLD, operand for operand. -/
def Obligations.GoldComputes : Prop :=
  encode .gold = 0x00000001 ∧
  ∀ s : State, Idle s → Prompt s →
    ∀ i k n, i = (if s.cfg.gold.overrange = .clampIndex ∧ s.args[0].toNat > 260000 then 260000 else s.args[0].toNat) →
      k = min (i / 5000) 52 → n = i - 5000 * k →
      exec .gold s = .next (ended s
        [(lfsrIter s.cfg.gold.tap n (s.cfg.gold.checkpoints.toList.getD k 0)).setWidth 32, BitVec.ofNat 32 k,
          BitVec.ofNat 32 n])

/-- R137: the checkpoints are an optimisation only, for every configuration whose table R132 allows. -/
def Obligations.GoldEqualsReference : Prop :=
  ∀ s : State, Idle s → Prompt s → GoldTableOk s.cfg.gold →
    (s.args[0].toNat ≤ 260000 ∨ s.cfg.gold.overrange = .advance) →
    ∃ t, exec .gold s = .next t ∧
      t.res[0] = (lfsrIter s.cfg.gold.tap s.args[0].toNat s.cfg.gold.seed).setWidth 32

/-- R135, R139: the PLS bytes are the state's bytes, least significant first, the upper six bits of the last zero. -/
def Obligations.PlsBytesAreLeastSignificantFirst : Prop :=
  ∀ (c : Config) (idx : Nat),
    (idx = 0 → plsBytes c idx = c.options.plsDefault) ∧
    (idx ≠ 0 → (plsBytes c idx)[0].toNat + 256 * (plsBytes c idx)[1].toNat + 65536 * (plsBytes c idx)[2].toNat =
      (goldState c.gold idx).toNat)

/-! ## PLL, MCLK, TSCLK, LPF -/

/-- R150: on a configuration of the block, the model's lookup gives every frequency its band, and no other is one. -/
def Obligations.BandLookupIsTotal : Prop :=
  ∀ (c : Config) (m : Nat), c.bandsOk = true →
    BandIs c.clock m (bandIndex c.clock m) ∧ ∀ b, BandIs c.clock m b → b = bandIndex c.clock m

/-- R154, with R150 to R153: the results, and each error in its order. -/
def Obligations.PllComputes : Prop :=
  encode .pll = 0x00000002 ∧
  ∀ s : State, Idle s → Prompt s →
    (s.args[1].toNat ≠ 27000 → s.args[1].toNat ≠ 24000 → exec .pll s = .next (failedWith s .param 0x02000020)) ∧
    (∀ b q1 q2 rd, s.args[1].toNat = 27000 ∨ s.args[1].toNat = 24000 → BandIs s.cfg.clock s.args[0].toNat b →
      rd = (if s.args[1].toNat = 27000 then s.cfg.clock.refDiv27 else s.cfg.clock.refDiv24) →
      q1 = pathQ s.args[0].toNat s.args[1].toNat rd.toNat (s.cfg.clock.bands.toList.getD b default).div1 →
      q2 = pathQ s.args[0].toNat s.args[1].toNat rd.toNat (s.cfg.clock.bands.toList.getD b default).div2 →
      (q1 < 1024 → exec .pll s = .next (failedWith s .param 0x02000021)) ∧
      (1024 ≤ q1 → 4095 < pathN q1 → exec .pll s = .next (failedWith s .param 0x02000022)) ∧
      (1024 ≤ q1 → pathN q1 ≤ 4095 → q2 < 1024 → exec .pll s = .next (failedWith s .param 0x02000021)) ∧
      (1024 ≤ q1 → pathN q1 ≤ 4095 → 1024 ≤ q2 → 4095 < pathN q2 →
        exec .pll s = .next (failedWith s .param 0x02000022)) ∧
      (1024 ≤ q1 → pathN q1 ≤ 4095 → 1024 ≤ q2 → pathN q2 ≤ 4095 →
        exec .pll s = .next (ended s
          [BitVec.ofNat 32 (pathPair (pathN q1) (s.cfg.clock.bands.toList.getD b default).lomod1),
            BitVec.ofNat 32 (pathPair (pathN q2) (s.cfg.clock.bands.toList.getD b default).lomod2),
            BitVec.ofNat 32 (pathN q1), BitVec.ofNat 32 (pathN q2), BitVec.ofNat 32 b, rd.setWidth 32])))

/-- R160: the folded offset is the distance to the nearest multiple, at most half the candidate. -/
def Obligations.FoldedOffsetIsTheNearestMultiple : Prop :=
  ∀ f c : Nat, 0 < c →
    foldedOffset f c = folded f c ∧ foldedOffset f c ≤ c / 2 ∧
    (∃ k, f = k * c + foldedOffset f c ∨ f + foldedOffset f c = k * c) ∧
    ∀ k, foldedOffset f c ≤ (f - k * c) + (k * c - f)

/-- R162, R161: the forced high clock, or the earliest candidate of the greatest offset. -/
def Obligations.MclkSelectsTheFarthestCandidate : Prop :=
  encode .mclk = 0x00000003 ∧
  ∀ s : State, Idle s → Prompt s →
    (46000000 ≤ s.args[1].toNat → exec .mclk s = .next (ended s [regWord s.cfg.clock.mclkHighKhz, 3, 0, 0, 0])) ∧
    (s.args[1].toNat < 46000000 →
      ∃ cand : Fin 3,
        exec .mclk s = .next (ended s [regWord s.cfg.clock.mclkCand[cand], BitVec.ofNat 32 cand.val,
          BitVec.ofNat 32 (folded s.args[0].toNat s.cfg.clock.mclkCand[0]),
          BitVec.ofNat 32 (folded s.args[0].toNat s.cfg.clock.mclkCand[1]),
          BitVec.ofNat 32 (folded s.args[0].toNat s.cfg.clock.mclkCand[2])]) ∧
        ∀ c : Fin 3,
          folded s.args[0].toNat s.cfg.clock.mclkCand[c] ≤ folded s.args[0].toNat s.cfg.clock.mclkCand[cand] ∧
          (c < cand →
            folded s.args[0].toNat s.cfg.clock.mclkCand[c] < folded s.args[0].toNat s.cfg.clock.mclkCand[cand]))

/-- R169, with R165 to R168. RES0 is div where it fits 32 bits; the spec states no result where it does not, and there the
statement leaves it open (log entry 5). -/
def Obligations.TsclkComputes : Prop :=
  encode .tsclk = 0x00000004 ∧
  ∀ s : State, Idle s → Prompt s →
    (s.args[1].toNat = 0 → exec .tsclk s = .next (failedWith s .param 0x04000030)) ∧
    (∀ div, 0 < s.args[1].toNat → div = 9000 * s.args[0].toNat * 4 / s.args[1].toNat →
      ∃ r0 : Word, (div < 2 ^ 32 → r0 = BitVec.ofNat 32 div) ∧
        exec .tsclk s = .next (ended s [r0, BitVec.ofNat 32 (stages div), BitVec.ofNat 32 (packTaps (rawTaps div)),
          BitVec.ofNat 32 (packTaps (((rawTaps div).take (stages div)).map (encTap (s.ctrl.getLsbD 1))))]))

/-- R170: the raw taps sum to div, and no encoded tap lies in 1..min_tap-1. -/
def Obligations.TapsSumAndAvoidTheForbiddenRange : Prop :=
  ∀ (div : Nat) (serial : Bool), div ≤ 64 →
    (tsRawTaps div).toList.sum = div ∧
    ∀ e ∈ (tsEncTaps serial (tsStageCount div) (tsRawTaps div)).toList, e = 0 ∨ (if serial then 8 else 9) ≤ e ∧ e ≤ 15

/-- R178, with R175 to R177. A result that does not fit 32 bits is left open by regWord (log entry 5). -/
def Obligations.LpfComputes : Prop :=
  encode .lpf = 0x00000005 ∧
  ∀ s : State, Idle s → Prompt s →
    ∀ off real bw, off = (if s.args[0].toNat < 5000000 then 3000 else s.cfg.clock.lpfOffsetHighKhz) →
      real = s.args[1].toNat / 1000 + off →
      bw = min (max (s.args[0].toNat / 1000 * s.cfg.clock.lpfMulNum / s.cfg.clock.lpfMulDen + s.cfg.clock.lpfMarginKhz)
        s.cfg.clock.lpfBwMinKhz) s.cfg.clock.lpfBwMaxKhz →
      exec .lpf s = .next (ended s [regWord off, regWord bw, regWord real, regWord (real / 1000)])

/-- R372, R361, R362, R40 (log entry 7): a computation that takes longer leaves BUSY set and RES unchanged, and then ends as the
same computation that takes no time, from the operands latched at acceptance: host writes of ARG and CTRL in between change
those registers and nothing else. TUNE's CHECK is such a computation. -/
def Obligations.HeldComputationEndsTheSame : Prop :=
  ∀ (i : Instr) (s : State) (rest after : List Stimulus), i ∈ [Instr.gold, .pll, .mclk, .tsclk, .lpf, .tune] → Idle s →
    s.inputs = .computeHold :: rest → Waits rest → (∀ l, after ≠ .computeHold :: l) →
    (i = .tune → s.chipReady = true ∧ Waits after) →
    ∃ u v, exec i s = .next u ∧ u.running = some i ∧ u.res = s.res ∧ u.outputs = s.outputs ∧ u.inputs = rest ∧
      exec i { s with inputs := after } = .next v ∧ (i ≠ .tune → v.running = none) ∧
      step { u with inputs := .computeDone :: after } = .next v ∧
      (s.rstN = true → ∀ (k : Fin 8) (x c : Word),
        Sys2Proof.core.run 3 { u with
          inputs := .hostWrite (0x10 + 4 * k.val) 4 x :: .hostWrite 0x00 4 c :: .computeDone :: after } =
            .next { v with args := s.args.set k x, ctrl := c &&& 0x7 })

/-! ## TUNE -/

/-- R316, R250: the six bus-using commands with chip_ready = 0. -/
def Obligations.NotReadyEndsBusCommandsAtOnce : Prop :=
  ∀ s : State, Idle s → s.chipReady = false →
    exec .tune s = .next { failedWith s .notReady 0x10000000 with tr := request s, lockState := .idle } ∧
    exec .gain s = .next (failedWith s .notReady 0x20000000) ∧
    exec .cnrS1 s = .next (failedWith s .notReady 0x21000000) ∧
    exec .cnrS2 s = .next (failedWith s .notReady 0x22000000) ∧
    exec .berS1 s = .next (failedWith s .notReady 0x23000000) ∧
    exec .berS2 s = .next (failedWith s .notReady 0x24000000)

/-- R203, R205: each check, in its order, with no bus transaction and nothing but TR, LockState and the error changed. -/
def Obligations.TuneRejectsBadRequests : Prop :=
  ∀ (s : State) (tr : TuneRequest), Idle s → s.chipReady = true → Prompt s → tr = request s →
    ∀ rejected : Word → State,
      (∀ info, rejected info = { failedWith s .param info with tr := tr, lockState := .idle }) →
      (tr.freqHz.toNat < 950000000 ∨ 2150000000 < tr.freqHz.toNat → exec .tune s = .next (rejected 0x10000001)) ∧
      (950000000 ≤ tr.freqHz.toNat → tr.freqHz.toNat ≤ 2150000000 →
        (tr.sr.toNat < s.cfg.clock.srMin ∨ s.cfg.clock.srMax < tr.sr.toNat →
          exec .tune s = .next (rejected 0x10000002)) ∧
        (s.cfg.clock.srMin ≤ tr.sr.toNat → tr.sr.toNat ≤ s.cfg.clock.srMax →
          (1 < tr.delsys.toNat → exec .tune s = .next (rejected 0x10000003)) ∧
          (tr.delsys.toNat ≤ 1 → 4 < tr.mod.toNat → exec .tune s = .next (rejected 0x10000004))))

/-- R204, R205, R321 (log entry 11): a request whose plan cannot be made is rejected with the divider check's id; PLAN holds
what was computed before the check. -/
def Obligations.TuneRejectsUnreachableDividers : Prop :=
  ∀ (s : State) (p : TunePlan) (c : ParamCheck), Idle s → s.chipReady = true → Prompt s →
    RequestOk s.cfg (request s) → makePlan s.cfg (request s) s.plan = (p, some c) →
    exec .tune s = .next { failedWith s .param ((0x100000 : BitVec 24) ++ c.id) with tr := request s, lockState := .idle, plan := p } ∧
    (c = .dividerLow ∨ c = .dividerHigh ∨ (c = .mclkZero ∧ p.mclkKhz = 0))

/-- R204, with R139 and R150 to R177: what PLAN holds when CHECK passes. -/
def Obligations.PlanHoldsTheSynthesizersValues : Prop :=
  ∀ (c : Config) (tr : TuneRequest) (old p : TunePlan), makePlan c tr old = (p, none) →
    p.lpfOffsetKhz = (if tr.sr.toNat < 5000000 then 3000 else c.clock.lpfOffsetHighKhz) ∧
    p.realFreqKhz = tr.freqHz.toNat / 1000 + p.lpfOffsetKhz ∧ p.pllMhz = p.realFreqKhz / 1000 ∧
    p.bwKhz = lpfBandwidth c.clock tr.sr.toNat ∧
    p.mclkKhz = (mclkSelect c.clock (tr.freqHz.toNat / 1000) tr.sr.toNat).mclk ∧
    p.mclkCand = (mclkSelect c.clock (tr.freqHz.toNat / 1000) tr.sr.toNat).cand ∧
    (∃ r, pllCompute c.clock p.pllMhz (if tr.xtal24 then 24000 else 27000) = .ok r ∧ p.refDiv = r.refDiv ∧
      p.band = r.band ∧ p.n1 = r.p1.n ∧ p.n2 = r.p2.n ∧ p.n1 ≤ 4095 ∧ p.n2 ≤ 4095 ∧
      p.lo1 = r.p1.lo ∧ p.hi1 = r.p1.hi ∧ p.lo2 = r.p2.lo ∧ p.hi2 = r.p2.hi ∧
      p.hi1.toNat < 128 ∧ p.hi2.toNat < 128) ∧
    p.mclkKhz ≠ 0 ∧ p.tsDiv = 9000 * tr.fb.toNat * 4 / p.mclkKhz ∧ p.tsN = stages p.tsDiv ∧
    p.tsRaw.toList = rawTaps p.tsDiv ∧ p.tsEnc = tsEncTaps tr.tsSerial p.tsN p.tsRaw ∧
    p.pls = plsBytes c tr.scrIdx.toNat

/-- R202, R206, R207: an accepted TUNE that passes CHECK, with nothing yet from the chip: it is Programming, its first
transaction is issued, RES is unchanged. -/
def Obligations.TuneEntersProgramming : Prop :=
  encode .tune = 0x00000010 ∧
  ∀ (s : State) (p : TunePlan) (t : Txn) (ts : List Txn), Idle s → s.chipReady = true → Prompt s → Waits s.inputs →
    s.orphan = none → RequestOk s.cfg (request s) → makePlan s.cfg (request s) s.plan = (p, none) →
    s.cfg.programs.resetPulse = t :: ts →
    exec .tune s = .next { s with
      latch := s.args, latchTsSerial := s.ctrl.getLsbD 1, latchXtal24 := s.ctrl.getLsbD 2
      done := false, errCode := .noError, abortReq := false, running := some .tune
      tr := request s, plan := p, lockState := .programming, accErr := 0, accCnt := 0, pollIter := 0
      lastLockByte := 0, selIsi := 0, seq := .pReset, phase := .program, todo := t :: ts, got := []
      outputs := s.outputs ++ [.bus t] }

/-- R201, R206 to R219, R223, R228, R229, R232: a whole TUNE. Every programming transaction is issued in strict order, the
first lock-status read returns 0xF7, the normal AGC setting follows, aux_set is emitted if fitted, and the results are R229's.
RES3, RES5, RES6 and MCLK_KHZ that do not fit 32 bits are left open by regWord (log entry 5). -/
def Obligations.TuneLocksOnDvbS : Prop :=
  ∀ (s : State) (p : TunePlan) (as bs : List Answer) (lock : Answer) (rest : List Stimulus) (txns : List Txn),
    Idle s → s.chipReady = true → s.orphan = none → RequestOk s.cfg (request s) →
    makePlan s.cfg (request s) s.plan = (p, none) → txns = programmingTxns s.cfg (request s) p →
    AllSucceed txns as → lock.ok = true → lock.byte = 0xF7 → AllSucceed s.cfg.programs.agcNormal bs →
    s.inputs = answers as ++ .chipAnswer lock :: (answers bs ++ rest) →
    exec .tune s = .next { ended s
        [3, 1, 0xF7, regWord p.mclkKhz, p.hi2 ++ p.lo2 ++ p.hi1 ++ p.lo1, regWord p.bwKhz, regWord p.realFreqKhz, 0] with
      inputs := rest, tr := request s, plan := p, lockState := .locked, lockDelsys := false, accErr := 0, accCnt := 0
      pollIter := 1, lastLockByte := 0xF7, selIsi := 0, mclkKhz := regWord p.mclkKhz
      chip := Memory.storeAll (deliveredBy s.cfg.programs.agcNormal bs)
        (Memory.storeAll (deliveredBy txns as) s.chip)
      outputs := s.outputs ++ issued txns ++ [.bus (.read s.cfg.chipMap.lockStatusAddr)]
        ++ issued s.cfg.programs.agcNormal
        ++ (if s.cfg.options.auxPresent then [.auxSet s.cfg.options.auxFreqHz] else []) }

/-- R218, R219, R220, R222: one lock-status read that succeeds, no abort being requested. -/
def Obligations.LockStatusReadDecides : Prop :=
  ∀ (s : State) (t t0 t1 : Txn) (x : BusAddr) (ts0 ts1 : List Txn) (a : Answer) (rest : List Stimulus),
    s.running = some .tune → s.phase = .pollRead → s.todo = [t] → t = .read x → s.got = [] → s.orphan = none →
    s.abortReq = false → a.ok = true → s.inputs = .chipAnswer a :: rest →
    readsOf [s.cfg.chipMap.fInvSrc] = t0 :: ts0 → s.cfg.programs.agcNormal = t1 :: ts1 →
    ∀ u : State, u = { s with inputs := rest, pollIter := s.pollIter + 1, lastLockByte := a.byte } →
      (a.byte = 0x8F →
        step s = .next { u with lockState := .locked, lockDelsys := true, seq := .postInv, phase := .invRead,
                                todo := t0 :: ts0, outputs := s.outputs ++ [.bus t0] }) ∧
      (a.byte = 0xF7 →
        step s = .next { u with lockState := .locked, lockDelsys := false, seq := .postAgc, phase := .agcNormal,
                                todo := t1 :: ts1, outputs := s.outputs ++ [.bus t1] }) ∧
      (a.byte ≠ 0x8F → a.byte ≠ 0xF7 → s.pollIter + 1 = 150 →
        step s = .next { u with lockState := .timedOut, seq := .postAgc, phase := .agcNormal,
                                todo := t1 :: ts1, outputs := s.outputs ++ [.bus t1] }) ∧
      (a.byte ≠ 0x8F → a.byte ≠ 0xF7 → s.pollIter + 1 ≠ 150 →
        step s = .next { u with seq := .pollWait, phase := .pollWait, waitLeft := 20, todo := [] })

/-- R221: ticks count only while a TUNE waits; the pulse that makes wait_left 0 starts the next read. -/
def Obligations.WaitCountsTicks : Prop :=
  ∀ (s : State) (rest : List Stimulus), s.inputs = .tick :: rest →
    (s.phase ≠ .pollWait ∨ s.waitLeft = 0 → step s = .next { s with inputs := rest }) ∧
    (s.phase = .pollWait → 1 < s.waitLeft.toNat →
      step s = .next { s with inputs := rest, waitLeft := s.waitLeft - 1 }) ∧
    (s.phase = .pollWait → s.waitLeft = 1 → s.abortReq = false → s.orphan = none →
      step s = .next { s with
        inputs := rest, waitLeft := 0, seq := .pollRead, phase := .pollRead
        todo := [.read s.cfg.chipMap.lockStatusAddr], got := []
        outputs := s.outputs ++ [.bus (.read s.cfg.chipMap.lockStatusAddr)] })

/-- R220, R371: from the first read of a TUNE, 150 reads that find no lock, with 20 ticks after each but the last, end the
polling TimedOut; exactly 150 lock-status reads were issued, and the normal AGC setting follows. -/
def Obligations.PollingTimesOutAfter150Reads : Prop :=
  ∀ (s : State) (as : List Answer) (last : Answer) (t : Txn) (ts : List Txn) (rest : List Stimulus),
    s.running = some .tune → s.phase = .pollRead → s.lockState = .polling → s.seq = .pollRead →
    s.todo = [.read s.cfg.chipMap.lockStatusAddr] → s.got = [] → s.orphan = none → s.abortReq = false → s.pollIter = 0 →
    as.length = 149 → (∀ a ∈ as, notLocked a) → notLocked last → s.cfg.programs.agcNormal = t :: ts →
    s.inputs = pollRounds as ++ .chipAnswer last :: rest →
    Sys2Proof.core.run (149 * 21 + 1) s = .next { s with
      inputs := rest, pollIter := 150, lastLockByte := last.byte, waitLeft := 0, lockState := .timedOut
      seq := .postAgc, phase := .agcNormal, todo := t :: ts
      outputs := s.outputs ++ List.replicate 149 (.bus (.read s.cfg.chipMap.lockStatusAddr)) ++ [.bus t] }

/-- R224, R223, R227: once the polarity's last byte is read, the read-modify-write that copies it is issued; once that succeeds,
no abort being requested, NO_FILTER goes on to POST_AGC, and any other request to POST_ISI with the read of the slot count. -/
def Obligations.InversionIsCopiedDownstream : Prop :=
  ∀ (s : State) (a : Answer) (rest : List Stimulus), s.running = some .tune → s.orphan = none → a.ok = true →
    s.inputs = .chipAnswer a :: rest →
    (∀ (x : BusAddr) (before : List Answer), s.phase = .invRead → s.todo = [.read x] → s.got = before.map Answer.byte →
      step s = .next { s with
        inputs := rest, phase := .invWrite, got := []
        todo := [.rmw s.cfg.chipMap.invDstAddr s.cfg.chipMap.invDstMask
          (if fieldOf s.cfg.chipMap.fInvSrc (before ++ [a]) = 1 then s.cfg.chipMap.invDstMask else 0)]
        outputs := s.outputs ++ [.bus (.rmw s.cfg.chipMap.invDstAddr s.cfg.chipMap.invDstMask
          (if fieldOf s.cfg.chipMap.fInvSrc (before ++ [a]) = 1 then s.cfg.chipMap.invDstMask else 0))] }) ∧
    (∀ (x : BusAddr) (m v : Byte) (t0 t1 : Txn) (ts0 ts1 : List Txn) (u : State), s.phase = .invWrite →
      s.todo = [.rmw x m v] → s.abortReq = false → readsOf [s.cfg.chipMap.fIsiCount] = t0 :: ts0 →
      s.cfg.programs.agcNormal = t1 :: ts1 →
      u = { s with inputs := rest, got := [], chip := Memory.store x.toNat ((a.byte &&& ~~~m) ||| (v &&& m)) s.chip } →
      (s.tr.nofilter = true → step s = .next { u with
        seq := .postAgc, phase := .agcNormal, todo := t1 :: ts1, outputs := s.outputs ++ [.bus t1] }) ∧
      (s.tr.nofilter = false → step s = .next { u with
        seq := .postIsi, phase := .isiCount, todo := t0 :: ts0, outputs := s.outputs ++ [.bus t0] }))

/-- R225, R226: once the slot count is read, it is clamped to ISI_MAX_SLOTS; at 0 the step ends, SEL_ISI as it was, and POST_AGC
begins; else slot 0 is read. From there the slots are read in order up to the first that holds the requested ISI, which is
selected; if none of the cnt slots holds it, slot 0's byte is. -/
def Obligations.IsiScanSelectsFirstMatchOrFirstSlot : Prop :=
  ∀ (s : State) (cnt : Nat) (tail : List Stimulus), s.running = some .tune → s.orphan = none →
    (∀ (x : BusAddr) (a : Answer) (before : List Answer) (t : Txn) (ts : List Txn), s.phase = .isiCount →
      s.todo = [.read x] → s.got = before.map Answer.byte → s.abortReq = false → a.ok = true →
      s.inputs = .chipAnswer a :: tail → s.cfg.programs.agcNormal = t :: ts →
      cnt = min (fieldOf s.cfg.chipMap.fIsiCount (before ++ [a])) s.cfg.options.isiMaxSlots →
      (cnt = 0 → step s = .next { s with
        inputs := tail, seq := .postAgc, phase := .agcNormal, todo := t :: ts, got := []
        outputs := s.outputs ++ [.bus t] }) ∧
      (0 < cnt → step s = .next { s with
        inputs := tail, phase := .isiSlot 0 cnt 0, todo := [.read s.cfg.chipMap.isiSlotAddr], got := []
        outputs := s.outputs ++ [.bus (.read s.cfg.chipMap.isiSlotAddr)] })) ∧
    (∀ (f : Byte) (miss : List Answer), s.phase = .isiSlot 0 cnt f → s.todo = [.read s.cfg.chipMap.isiSlotAddr] →
      s.got = [] → (∀ a ∈ miss, a.ok = true ∧ a.byte ≠ s.tr.isi) →
      (∀ a, miss.length < cnt → a.ok = true → a.byte = s.tr.isi →
        s.inputs = answers miss ++ .chipAnswer a :: tail →
        ∃ t, Sys2Proof.core.run (miss.length + 1) s = .next t ∧ t.inputs = tail ∧
          t.todo = [.write s.cfg.chipMap.isiSelAddr s.tr.isi] ∧ t.phase = .isiSelect s.tr.isi ∧
          t.outputs = s.outputs
            ++ (List.range miss.length).map (fun j => .bus (.read (s.cfg.chipMap.isiSlotAddr + BitVec.ofNat 16 (j + 1))))
            ++ [.bus (.write s.cfg.chipMap.isiSelAddr s.tr.isi)]) ∧
      (∀ a more, miss = a :: more → miss.length = cnt → s.inputs = answers miss ++ tail →
        ∃ t, Sys2Proof.core.run cnt s = .next t ∧ t.inputs = tail ∧
          t.todo = [.write s.cfg.chipMap.isiSelAddr a.byte] ∧ t.phase = .isiSelect a.byte ∧
          t.outputs = s.outputs
            ++ (List.range more.length).map (fun j => .bus (.read (s.cfg.chipMap.isiSlotAddr + BitVec.ofNat 16 (j + 1))))
            ++ [.bus (.write s.cfg.chipMap.isiSelAddr a.byte)]))

/-- R225, R47, R228: the selection write succeeds: SEL_ISI shows it with VALID = 1, and POST_AGC begins. -/
def Obligations.IsiSelectionIsShown : Prop :=
  ∀ (s : State) (sel : Byte) (x : BusAddr) (a : Answer) (t : Txn) (ts : List Txn) (rest : List Stimulus),
    s.running = some .tune → s.phase = .isiSelect sel → s.todo = [.write x sel] → s.orphan = none →
    s.abortReq = false → a.ok = true → s.inputs = .chipAnswer a :: rest → s.cfg.programs.agcNormal = t :: ts →
    step s = .next { s with
      inputs := rest, selIsi := BitVec.ofNat 32 (256 + sel.toNat), chip := Memory.store x.toNat sel s.chip
      seq := .postAgc, phase := .agcNormal, todo := t :: ts, got := [], outputs := s.outputs ++ [.bus t] }

/-- R229, R232, R236: the last transaction of POST_AGC succeeds: aux_set on Locked if fitted, and the eight results.
RES3, RES5 and RES6 that do not fit 32 bits are left open by regWord (log entry 5). -/
def Obligations.TuneCompletesAfterAgc : Prop :=
  ∀ (s : State) (x : Txn) (a : Answer) (rest : List Stimulus) (r0 : Word),
    s.running = some .tune → s.phase = .agcNormal → s.todo = [x] → s.orphan = none → s.abortReq = false →
    a.ok = true → s.inputs = .chipAnswer a :: rest →
    (s.lockState = .locked ∧ r0 = 3 ∨ s.lockState = .timedOut ∧ r0 = 4) →
    step s = .next { tuneEnded { s with chip := Memory.storeAll (txnCells a.byte x) s.chip } r0 with
      inputs := rest
      outputs := s.outputs ++
        (if s.lockState = .locked ∧ s.cfg.options.auxPresent = true then [.auxSet s.cfg.options.auxFreqHz] else []) }

/-! ## The chip bus -/

/-- R13, R89, R230, R314, R318, R322: a failed transaction of any running command. -/
def Obligations.TransportFailureEndsTheCommand : Prop :=
  ∀ (s : State) (i : Instr) (t : Txn) (todo : List Txn) (a : Answer) (rest : List Stimulus) (place : Byte),
    s.running = some i → s.orphan = none → s.todo = t :: todo → a.ok = false → s.inputs = .chipAnswer a :: rest →
    place = (if i = .tune then s.seq.code else opcOf i) →
    step s = .next { s with
      inputs := rest, chip := Memory.storeAll ((txnCells a.byte t).take a.delivered) s.chip
      lockState := (if i = .tune then .failed else s.lockState)
      errInfo := place ++ (0 : BitVec 5) ++
        (match t with
          | .read _ => (1 : BitVec 3)
          | .write _ _ => 2
          | .burst _ _ => 3
          | .rmw _ _ _ => 4) ++
        (match t with
          | .read x => x
          | .write x _ => x
          | .burst x _ => x
          | .rmw x _ _ => x)
      errCode := .transport, done := true, abortReq := false, seq := .idle, running := none, phase := .idle
      todo := [], got := [] }

/-- R88, R89, R91: a transaction that succeeds with more to come: the next is issued, and the chip holds the bytes of a write,
of a burst from its address on (wrapping), of a read-modify-write; every other delivered byte is as before. -/
def Obligations.TransactionDeliversItsBytes : Prop :=
  ∀ (s : State) (t u : Txn) (todo : List Txn) (a : Answer) (rest : List Stimulus),
    s.running ≠ none → s.orphan = none → s.todo = t :: u :: todo → a.ok = true → s.inputs = .chipAnswer a :: rest →
    ∃ m : Memory,
      step s = .next { s with
        inputs := rest, todo := u :: todo, outputs := s.outputs ++ [.bus u], chip := m
        got := s.got ++ (match t with | .read _ => [a.byte] | .write _ _ | .burst _ _ | .rmw _ _ _ => []) } ∧
      (∀ x, t = .read x → m = s.chip) ∧
      (∀ x b, t = .write x b →
        Memory.load m x.toNat = some b ∧ ∀ y, y ≠ x.toNat → Memory.load m y = Memory.load s.chip y) ∧
      (∀ x mask v, t = .rmw x mask v →
        Memory.load m x.toNat = some ((a.byte &&& ~~~mask) ||| (v &&& mask)) ∧
        ∀ y, y ≠ x.toNat → Memory.load m y = Memory.load s.chip y) ∧
      (∀ x bytes, t = .burst x bytes → bytes.length ≤ 65536 →
        (∀ k (h : k < bytes.length), Memory.load m (x + BitVec.ofNat 16 k).toNat = some bytes[k]) ∧
        ∀ y, (∀ k, k < bytes.length → y ≠ (x + BitVec.ofNat 16 k).toNat) → Memory.load m y = Memory.load s.chip y)

/-- R87, R136: GOLD, PLL, MCLK, TSCLK, LPF, NOP, ABORT and RESET issue no bus transaction and emit no event. -/
def Obligations.ComputationsTouchNoBus : Prop :=
  ∀ (i : Instr) (s t : State), i ∈ [Instr.gold, .pll, .mclk, .tsclk, .lpf, .nop, .abort, .reset] → Idle s →
    s.todo = [] → exec i s = .next t → t.outputs = s.outputs

/-! ## Signal quality -/

/-- R255, with R251 to R256: GAIN, its seven fields read with success. -/
def Obligations.GainComputes : Prop :=
  encode .gain = 0x00000020 ∧
  ∀ (s : State) (gs : List (List Answer)) (rest : List Stimulus) (fs : List FieldDesc) (r : Fin 3) (v : Nat → Nat)
    (rf i bb tia pga2 bbp : Int),
    Idle s → s.chipReady = true → s.orphan = none →
    fs = [s.cfg.chipMap.fRf, s.cfg.chipMap.fIf, s.cfg.chipMap.fTia, s.cfg.chipMap.fBb, s.cfg.chipMap.fPga2Int,
      s.cfg.chipMap.fPga2Frac, s.cfg.chipMap.fBbp] →
    FieldsAnswered fs gs → s.inputs = answers gs.flatten ++ rest → v = valueAt fs gs →
    r = (if s.args[0].toNat < 1350 then 0 else if s.args[0].toNat < 1750 then 1 else 2) →
    (∀ (tab : List Int) (code : Nat) (sum : Int),
      (tab, code, sum) ∈ [(s.cfg.quality.gainRfTab[r], v 0, rf), (s.cfg.quality.gainIfTab[r], v 1, i),
        (s.cfg.quality.gainBbTab[r], v 3, bb)] →
      sum = (match s.cfg.quality.gainSumMode with
        | .inclusive => ((List.range (min code (tab.length - 1) + 1)).map (tab.getD · 0)).sum
        | .exclusive => ((List.range (min code tab.length)).map (tab.getD · 0)).sum)) →
    tia = (v 2 : Int) * s.cfg.quality.tiaStep →
    pga2 = (v 4 : Int) * s.cfg.quality.pga2IntStep + (v 5 : Int) * s.cfg.quality.pga2FracStep →
    (∀ (hi lo : Fin 16), v 6 = 16 * hi.val + lo.val → bbp = s.cfg.quality.bbpTab[hi][lo]) → v 6 < 256 →
    s.cfg.gainTablesOk = true →
    exec .gain s = .next { ended s (([rf, i, tia, bb, pga2, rf + i + tia + bb + pga2, bbp,
          rf + i + tia + bb + pga2 - s.cfg.quality.gainOffset[r] - bbp] : List Int).map (BitVec.ofInt 32)) with
      inputs := rest, outputs := s.outputs ++ issued (readsOf fs) }

/-- R262, R260, R261: CNR_S1, its ten samples read with success. -/
def Obligations.CnrS1Computes : Prop :=
  encode .cnrS1 = 0x00000021 ∧
  ∀ (s : State) (gs : List (List Answer)) (rest : List Stimulus) (fs : List FieldDesc) (avg : Nat) (v : Fin 33),
    Idle s → s.chipReady = true → s.orphan = none → fs = List.replicate 10 s.cfg.chipMap.fNeS1 →
    FieldsAnswered fs gs → s.inputs = answers gs.flatten ++ rest →
    avg = ((List.range 10).map (valueAt fs gs)).sum / 10 → v.val = min avg 32 →
    exec .cnrS1 s = .next { ended s
        [BitVec.ofInt 32 (Int.tdiv (s.cfg.quality.lnTab[v] * s.cfg.quality.lnScaleNum) s.cfg.quality.lnScaleDen),
          regWord avg, BitVec.ofNat 32 v.val] with
      inputs := rest, outputs := s.outputs ++ issued (readsOf fs) }

/-- R268, R264 to R267: CNR_S2, its ten samples of three fields read with success. -/
def Obligations.CnrS2Computes : Prop :=
  encode .cnrS2 = 0x00000022 ∧
  ∀ (s : State) (gs : List (List Answer)) (rest : List Stimulus) (fs : List FieldDesc) (sig noise : Nat) (v : Nat → Nat)
    (done : Int → Word → State),
    Idle s → s.chipReady = true → s.orphan = none →
    fs = (List.replicate 10 [s.cfg.chipMap.fSigS2, s.cfg.chipMap.fNoiseHi, s.cfg.chipMap.fNoiseLo]).flatten →
    FieldsAnswered fs gs → s.inputs = answers gs.flatten ++ rest → v = valueAt fs gs →
    sig = ((List.range 10).map (fun k => v (3 * k) * v (3 * k))).sum / 10 →
    noise = ((List.range 10).map (fun k => (v (3 * k + 1) * 2 ^ s.cfg.quality.noiseLoWidth
      + v (3 * k + 2) % 2 ^ s.cfg.quality.noiseLoWidth) % 2 ^ 14)).sum / 10 →
    (∀ cnr idx, done cnr idx = { ended s [BitVec.ofInt 32 cnr, regWord sig, regWord noise, idx] with
      inputs := rest, outputs := s.outputs ++ issued (readsOf fs) }) →
    (sig = 0 → noise = 0 → exec .cnrS2 s = .next (done s.cfg.quality.cnrBothZero 0xFFFFFFFF)) ∧
    (sig ≠ 0 → noise = 0 → exec .cnrS2 s = .next (done s.cfg.quality.cnrNoiseZero 0xFFFFFFFF)) ∧
    (sig = 0 → noise ≠ 0 → exec .cnrS2 s = .next (done s.cfg.quality.cnrSigZero 0xFFFFFFFF)) ∧
    (∀ idx : Fin 80, sig ≠ 0 → noise ≠ 0 → noise ≤ sig → idx.val = min (sig / noise) 80 - 1 →
      exec .cnrS2 s = .next (done s.cfg.quality.log10Tab[idx] (BitVec.ofNat 32 idx.val))) ∧
    (∀ idx : Fin 80, sig ≠ 0 → noise ≠ 0 → sig < noise → idx.val = min (noise / sig) 80 - 1 →
      exec .cnrS2 s = .next (done (-s.cfg.quality.log10Tab[idx]) (BitVec.ofNat 32 idx.val)))

/-- R271 to R273, R279, R280: BER_S1 and BER_S2 with a window at or below the threshold: one field read, no more. -/
def Obligations.BerWindowAtThresholdIsNotAccepted : Prop :=
  ∀ (d : Dvb) (s : State) (g : List Answer) (rest : List Stimulus) (win : Nat),
    Idle s → s.chipReady = true → s.orphan = none → FieldsAnswered [(berRow s.cfg d).1] [g] →
    s.inputs = answers g ++ rest → win = fieldOf (berRow s.cfg d).1 g → win ≤ (berRow s.cfg d).2.2.1 →
    exec (berInstr d) s =
      .next (berEnded s rest (issued (readsOf [(berRow s.cfg d).1])) s.chip s.accErr s.accCnt 0 win 0)

/-- R270 to R281: BER_S1 and BER_S2 with a window above the threshold: the error count is read, both accumulators grow modulo
2^64, the restart program is issued after that, and BER_Q32 is that of the new accumulators. -/
def Obligations.BerWindowAboveThresholdIsAccumulated : Prop :=
  encode .berS1 = 0x00000023 ∧ encode .berS2 = 0x00000024 ∧
  ∀ (d : Dvb) (s : State) (g h r : List Answer) (rest : List Stimulus) (wf ef : FieldDesc) (thr bits : Nat)
    (restart : BusProgram) (win err : Nat),
    berRow s.cfg d = (wf, ef, thr, bits, restart) → Idle s → s.chipReady = true → s.orphan = none →
    FieldsAnswered [wf] [g] → FieldsAnswered [ef] [h] → AllSucceed restart r →
    s.inputs = answers g ++ (answers h ++ (answers r ++ rest)) → win = fieldOf wf g → err = fieldOf ef h → thr < win →
    exec (berInstr d) s =
      .next (berEnded s rest (issued (readsOf [wf]) ++ issued (readsOf [ef]) ++ issued restart)
        (Memory.storeAll (deliveredBy restart r) s.chip)
        (BitVec.ofNat 64 (s.accErr.toNat + err)) (BitVec.ofNat 64 (s.accCnt.toNat + win * bits)) 1 win err)

/-- R87, R255, R262, R268, R279: a measurement command with the chip not yet answering has issued its first read and waits,
BUSY, RES as before. -/
def Obligations.MeasurementsIssueTheirFirstRead : Prop :=
  ∀ (s : State) (i : Instr) (p : Phase) (fs : List FieldDesc) (t : Txn) (ts : List Txn),
    (i, p, fs) ∈ [(.gain, .gain, gainFields s.cfg.chipMap), (.cnrS1, .cnrS1, cnrS1Fields s.cfg.chipMap),
      (.cnrS2, .cnrS2, cnrS2Fields s.cfg.chipMap), (.berS1, .berWindow .s1, [s.cfg.chipMap.fBerWinS1]),
      (.berS2, .berWindow .s2, [s.cfg.chipMap.fBerWinS2])] →
    Idle s → s.chipReady = true → s.orphan = none → Waits s.inputs → readsOf fs = t :: ts →
    exec i s = .next { s with
      latch := s.args, latchTsSerial := s.ctrl.getLsbD 1, latchXtal24 := s.ctrl.getLsbD 2
      done := false, errCode := .noError, abortReq := false, running := some i, phase := p, todo := t :: ts
      got := [], outputs := s.outputs ++ [.bus t] }

/-! ## The whole machine -/

/-- R200, R202, R234: apart from command words and reset, LockState only moves forward: it stays, or goes to a later one of
Idle, Programming, Polling, {Locked, TimedOut}, Failed. -/
def Obligations.LockStateOnlyMovesForward : Prop :=
  ∀ (s t : State) (x : Stimulus) (rest : List Stimulus), BlockInv s → s.inputs = x :: rest →
    (∀ off n v, x ≠ .hostWrite off n v) → x ≠ .rstNLevel false → step s = .next t →
    t.lockState = s.lockState ∨ lockRank s.lockState < lockRank t.lockState

/-- R234, R250: no command but TUNE and RESET changes LockState or LOCK_DELSYS, neither when its word is written nor in any later
step while it runs; nor does any other step, but rst_n going low. -/
def Obligations.OnlyTuneAndResetChangeLockState : Prop :=
  (∀ (i : Instr) (s t : State), i ≠ .tune → i ≠ .reset → BlockInv s → s.rstN = true → Idle s → exec i s = .next t →
    t.lockState = s.lockState ∧ t.lockDelsys = s.lockDelsys) ∧
  (∀ s t : State, BlockInv s → s.running ≠ some .tune → (∀ rest, s.inputs ≠ .rstNLevel false :: rest) →
    (∀ w rest, s.inputs = .hostWrite 0x08 4 w :: rest → w ≠ 0x000000FF ∧ (Idle s → w ≠ 0x00000010)) →
    step s = .next t → t.lockState = s.lockState ∧ t.lockDelsys = s.lockDelsys)

/-- R48, R282: the accumulators change only where a BER command's error count is read (its window count, should a
configuration give the error field no bytes), or a BER word is accepted, whose command runs on in that step; and they become 0 only where a TUNE passes CHECK and enters Programming, at the RESET word and
when rst_n goes low. -/
def Obligations.AccumulatorsChangeOnlyByBerTuneAndReset : Prop :=
  ∀ s t : State, BlockInv s → step s = .next t →
    (t.accErr = s.accErr ∧ t.accCnt = s.accCnt) ∨
    (∃ d a rest, s.running = some (berInstr d) ∧ s.inputs = .chipAnswer a :: rest ∧ a.ok = true ∧
      ((∃ win, s.phase = .berErrors d win) ∨ s.phase = .berWindow d ∧ (berRow s.cfg d).2.1.nbytes = 0)) ∨
    (∃ d rest, Idle s ∧ s.inputs = .hostWrite 0x08 4 (encode (berInstr d)) :: rest) ∨
    (t.accErr = 0 ∧ t.accCnt = 0 ∧ ∃ rest,
      (s.inputs = .rstNLevel false :: rest ∨ s.inputs = .hostWrite 0x08 4 0x000000FF :: rest ∨
        (∃ p, Idle s ∧ s.chipReady = true ∧ s.inputs = .hostWrite 0x08 4 0x00000010 :: rest ∧
          RequestOk s.cfg (request s) ∧ makePlan s.cfg (request s) s.plan = (p, none)) ∨
        ∃ p, s.running = some .tune ∧ s.phase = .computing ∧ s.inputs = .computeDone :: rest ∧
          RequestOk s.cfg s.tr ∧ makePlan s.cfg s.tr s.plan = (p, none)))

/-- R41, R361: a step after which a command still runs has not changed RES. -/
def Obligations.ResultsHoldWhileACommandRuns : Prop :=
  ∀ s t : State, step s = .next t → t.running ≠ none → t.res = s.res

/-- R8, R94 (log entry 1): no step changes the parameters or the tables. -/
def Obligations.ParametersNeverChange : Prop :=
  ∀ (k : Nat) (s t : State), Sys2Proof.core.run k s = .next t → t.cfg = s.cfg

/-- R80, R81, R333: a run whose host accesses are all of the interface never stops. -/
def Obligations.InterfaceRunsNeverStop : Prop :=
  ∀ (k : Nat) (s : State), (∀ x ∈ s.inputs, x.inInterface = true) → RunsSafely k s

/-- The block's invariant is kept by every step, from every state that meets it (R32, R47, R50, R53, R87, R200, R234, R350). -/
def Obligations.StepKeepsBlockInv : Prop :=
  ∀ s t : State, BlockInv s → step s = .next t → BlockInv t

/-- The state after reset meets the block's invariant. -/
def Obligations.ResetMeetsBlockInv : Prop := BlockInv State.reset
end

