-- ==== Sys2Proof/Laws/Memory.lean ====
section
/-! SUPPORT. The bytes delivered to the chip: reading back a delivery, and the canonical form kept. -/

namespace Sys2Proof.Machine

@[simp] theorem Memory.load_nil (a : Nat) : Memory.load [] a = none := rfl

@[simp] theorem Memory.storeAll_nil (m : Memory) : Memory.storeAll [] m = m := rfl

theorem Memory.load_below {lo a : Nat} {m : Memory} (h : Memory.risesFrom lo m = true) (ha : a < lo) :
    Memory.load m a = none := by
  induction m generalizing lo with
  | nil => rfl
  | cons c rest ih =>
    simp only [Memory.risesFrom, Bool.and_eq_true, decide_eq_true_eq] at h
    simp only [Memory.load]
    rw [if_neg (by omega), ih h.2 (by omega)]

/-- A delivered byte reads back. -/
theorem Memory.load_store_same (a : Nat) (b : Byte) (m : Memory) : Memory.load (Memory.store a b m) a = some b := by
  induction m with
  | nil => simp [Memory.store, Memory.load]
  | cons c rest ih =>
    unfold Memory.store
    split
    · simp [Memory.load]
    · split
      · simp [Memory.load]
      · next h1 h2 => simp only [Memory.load]; rw [if_neg (fun h => h2 h.symm), ih]

/-- A delivery leaves every other address alone. -/
theorem Memory.load_store_other {a x : Nat} (b : Byte) (m : Memory) (hx : x ≠ a) :
    Memory.load (Memory.store a b m) x = Memory.load m x := by
  induction m with
  | nil => simp [Memory.store, Memory.load, Ne.symm hx]
  | cons c rest ih =>
    unfold Memory.store
    split
    · simp [Memory.load, Ne.symm hx]
    · split
      · next h1 h2 => subst h2; simp [Memory.load, Ne.symm hx]
      · simp only [Memory.load, ih]

/-- Deliveries leave an address none of them names alone. -/
theorem Memory.load_storeAll_other (cells : List (BusAddr × Byte)) (m : Memory) (x : Nat)
    (hx : ∀ c ∈ cells, c.1.toNat ≠ x) : Memory.load (Memory.storeAll cells m) x = Memory.load m x := by
  induction cells generalizing m with
  | nil => rfl
  | cons c rest ih =>
    simp only [Memory.storeAll]
    rw [ih _ (fun d hd => hx d (by simp [hd])), Memory.load_store_other _ _ (Ne.symm (hx c (by simp)))]

theorem Memory.risesFrom_store {lo a : Nat} (b : Byte) {m : Memory} (h : Memory.risesFrom lo m = true) (ha : lo ≤ a) :
    Memory.risesFrom lo (Memory.store a b m) = true := by
  induction m generalizing lo with
  | nil => simp [Memory.store, Memory.risesFrom, ha]
  | cons c rest ih =>
    have h' := h
    simp only [Memory.risesFrom, Bool.and_eq_true, decide_eq_true_eq] at h'
    unfold Memory.store
    split
    · simp only [Memory.risesFrom, Bool.and_eq_true, decide_eq_true_eq]
      exact ⟨ha, by omega, h'.2⟩
    · split
      · next h1 h2 => subst h2; simp [Memory.risesFrom, h'.1, h'.2]
      · simp only [Memory.risesFrom, Bool.and_eq_true, decide_eq_true_eq]
        exact ⟨h'.1, ih h'.2 (by omega)⟩

theorem Memory.all_store (a : Nat) (b : Byte) (m : Memory) (p : Host.Cell → Bool) (h : m.all p = true)
    (hp : p (a, b) = true) : (Memory.store a b m).all p = true := by
  induction m with
  | nil => simp [Memory.store, hp]
  | cons c rest ih =>
    simp only [List.all_cons, Bool.and_eq_true] at h
    unfold Memory.store
    split
    · simp [hp, h.1, h.2]
    · split
      · simp [hp, h.2]
      · simp [h.1, ih h.2]

/-- A delivery keeps the canonical form. -/
theorem Memory.wf_store (a : BusAddr) (b : Byte) {m : Memory} (h : Memory.wf m = true) :
    Memory.wf (Memory.store a.toNat b m) = true := by
  simp only [Memory.wf, Bool.and_eq_true] at h ⊢
  exact ⟨Memory.risesFrom_store b h.1 (Nat.zero_le _), Memory.all_store _ _ _ _ h.2 (by simpa using a.isLt)⟩

/-- Deliveries keep the canonical form. -/
theorem Memory.wf_storeAll (cells : List (BusAddr × Byte)) {m : Memory} (h : Memory.wf m = true) :
    Memory.wf (Memory.storeAll cells m) = true := by
  induction cells generalizing m with
  | nil => exact h
  | cons c rest ih => exact ih (Memory.wf_store _ _ h)

/-- Reset's memory is canonical. -/
theorem Memory.wf_reset : Memory.wf State.reset.chip = true := rfl

/-- A transaction's end keeps the canonical form. -/
theorem deliver_wf (t : Txn) (a : Answer) {s : State} (h : Memory.wf s.chip = true) :
    Memory.wf (deliver t a s).chip = true := Memory.wf_storeAll _ h

end Sys2Proof.Machine
end

