-- ==== Sys2Proof/Laws/State.lean ====
section
/-! SUPPORT. What each shared operation does to each field of the state, one lemma a field. -/

namespace Sys2Proof.Machine

/-! ## emit -/

@[simp] theorem emit_cfg (e : PortEvent) (s : State) : (emit e s).cfg = s.cfg := rfl
@[simp] theorem emit_ctrl (e : PortEvent) (s : State) : (emit e s).ctrl = s.ctrl := rfl
@[simp] theorem emit_done (e : PortEvent) (s : State) : (emit e s).done = s.done := rfl
@[simp] theorem emit_overrun (e : PortEvent) (s : State) : (emit e s).overrun = s.overrun := rfl
@[simp] theorem emit_errCode (e : PortEvent) (s : State) : (emit e s).errCode = s.errCode := rfl
@[simp] theorem emit_lockState (e : PortEvent) (s : State) : (emit e s).lockState = s.lockState := rfl
@[simp] theorem emit_lockDelsys (e : PortEvent) (s : State) : (emit e s).lockDelsys = s.lockDelsys := rfl
@[simp] theorem emit_errInfo (e : PortEvent) (s : State) : (emit e s).errInfo = s.errInfo := rfl
@[simp] theorem emit_args (e : PortEvent) (s : State) : (emit e s).args = s.args := rfl
@[simp] theorem emit_latch (e : PortEvent) (s : State) : (emit e s).latch = s.latch := rfl
@[simp] theorem emit_latchTsSerial (e : PortEvent) (s : State) : (emit e s).latchTsSerial = s.latchTsSerial := rfl
@[simp] theorem emit_latchXtal24 (e : PortEvent) (s : State) : (emit e s).latchXtal24 = s.latchXtal24 := rfl
@[simp] theorem emit_res (e : PortEvent) (s : State) : (emit e s).res = s.res := rfl
@[simp] theorem emit_seq (e : PortEvent) (s : State) : (emit e s).seq = s.seq := rfl
@[simp] theorem emit_pollIter (e : PortEvent) (s : State) : (emit e s).pollIter = s.pollIter := rfl
@[simp] theorem emit_waitLeft (e : PortEvent) (s : State) : (emit e s).waitLeft = s.waitLeft := rfl
@[simp] theorem emit_lastLockByte (e : PortEvent) (s : State) : (emit e s).lastLockByte = s.lastLockByte := rfl
@[simp] theorem emit_abortReq (e : PortEvent) (s : State) : (emit e s).abortReq = s.abortReq := rfl
@[simp] theorem emit_mclkKhz (e : PortEvent) (s : State) : (emit e s).mclkKhz = s.mclkKhz := rfl
@[simp] theorem emit_selIsi (e : PortEvent) (s : State) : (emit e s).selIsi = s.selIsi := rfl
@[simp] theorem emit_accErr (e : PortEvent) (s : State) : (emit e s).accErr = s.accErr := rfl
@[simp] theorem emit_accCnt (e : PortEvent) (s : State) : (emit e s).accCnt = s.accCnt := rfl
@[simp] theorem emit_tr (e : PortEvent) (s : State) : (emit e s).tr = s.tr := rfl
@[simp] theorem emit_plan (e : PortEvent) (s : State) : (emit e s).plan = s.plan := rfl
@[simp] theorem emit_running (e : PortEvent) (s : State) : (emit e s).running = s.running := rfl
@[simp] theorem emit_phase (e : PortEvent) (s : State) : (emit e s).phase = s.phase := rfl
@[simp] theorem emit_todo (e : PortEvent) (s : State) : (emit e s).todo = s.todo := rfl
@[simp] theorem emit_got (e : PortEvent) (s : State) : (emit e s).got = s.got := rfl
@[simp] theorem emit_orphan (e : PortEvent) (s : State) : (emit e s).orphan = s.orphan := rfl
@[simp] theorem emit_rstN (e : PortEvent) (s : State) : (emit e s).rstN = s.rstN := rfl
@[simp] theorem emit_chipReady (e : PortEvent) (s : State) : (emit e s).chipReady = s.chipReady := rfl
@[simp] theorem emit_chip (e : PortEvent) (s : State) : (emit e s).chip = s.chip := rfl
@[simp] theorem emit_inputs (e : PortEvent) (s : State) : (emit e s).inputs = s.inputs := rfl
@[simp] theorem emit_outputs (e : PortEvent) (s : State) : (emit e s).outputs = s.outputs ++ [e] := rfl

/-! ## deliver -/

@[simp] theorem deliver_cfg (t : Txn) (a : Answer) (s : State) : (deliver t a s).cfg = s.cfg := rfl
@[simp] theorem deliver_ctrl (t : Txn) (a : Answer) (s : State) : (deliver t a s).ctrl = s.ctrl := rfl
@[simp] theorem deliver_done (t : Txn) (a : Answer) (s : State) : (deliver t a s).done = s.done := rfl
@[simp] theorem deliver_overrun (t : Txn) (a : Answer) (s : State) : (deliver t a s).overrun = s.overrun := rfl
@[simp] theorem deliver_errCode (t : Txn) (a : Answer) (s : State) : (deliver t a s).errCode = s.errCode := rfl
@[simp] theorem deliver_lockState (t : Txn) (a : Answer) (s : State) : (deliver t a s).lockState = s.lockState := rfl
@[simp] theorem deliver_lockDelsys (t : Txn) (a : Answer) (s : State) : (deliver t a s).lockDelsys = s.lockDelsys := rfl
@[simp] theorem deliver_errInfo (t : Txn) (a : Answer) (s : State) : (deliver t a s).errInfo = s.errInfo := rfl
@[simp] theorem deliver_args (t : Txn) (a : Answer) (s : State) : (deliver t a s).args = s.args := rfl
@[simp] theorem deliver_latch (t : Txn) (a : Answer) (s : State) : (deliver t a s).latch = s.latch := rfl
@[simp] theorem deliver_latchTsSerial (t : Txn) (a : Answer) (s : State) : (deliver t a s).latchTsSerial = s.latchTsSerial := rfl
@[simp] theorem deliver_latchXtal24 (t : Txn) (a : Answer) (s : State) : (deliver t a s).latchXtal24 = s.latchXtal24 := rfl
@[simp] theorem deliver_res (t : Txn) (a : Answer) (s : State) : (deliver t a s).res = s.res := rfl
@[simp] theorem deliver_seq (t : Txn) (a : Answer) (s : State) : (deliver t a s).seq = s.seq := rfl
@[simp] theorem deliver_pollIter (t : Txn) (a : Answer) (s : State) : (deliver t a s).pollIter = s.pollIter := rfl
@[simp] theorem deliver_waitLeft (t : Txn) (a : Answer) (s : State) : (deliver t a s).waitLeft = s.waitLeft := rfl
@[simp] theorem deliver_lastLockByte (t : Txn) (a : Answer) (s : State) : (deliver t a s).lastLockByte = s.lastLockByte := rfl
@[simp] theorem deliver_abortReq (t : Txn) (a : Answer) (s : State) : (deliver t a s).abortReq = s.abortReq := rfl
@[simp] theorem deliver_mclkKhz (t : Txn) (a : Answer) (s : State) : (deliver t a s).mclkKhz = s.mclkKhz := rfl
@[simp] theorem deliver_selIsi (t : Txn) (a : Answer) (s : State) : (deliver t a s).selIsi = s.selIsi := rfl
@[simp] theorem deliver_accErr (t : Txn) (a : Answer) (s : State) : (deliver t a s).accErr = s.accErr := rfl
@[simp] theorem deliver_accCnt (t : Txn) (a : Answer) (s : State) : (deliver t a s).accCnt = s.accCnt := rfl
@[simp] theorem deliver_tr (t : Txn) (a : Answer) (s : State) : (deliver t a s).tr = s.tr := rfl
@[simp] theorem deliver_plan (t : Txn) (a : Answer) (s : State) : (deliver t a s).plan = s.plan := rfl
@[simp] theorem deliver_running (t : Txn) (a : Answer) (s : State) : (deliver t a s).running = s.running := rfl
@[simp] theorem deliver_phase (t : Txn) (a : Answer) (s : State) : (deliver t a s).phase = s.phase := rfl
@[simp] theorem deliver_todo (t : Txn) (a : Answer) (s : State) : (deliver t a s).todo = s.todo := rfl
@[simp] theorem deliver_got (t : Txn) (a : Answer) (s : State) : (deliver t a s).got = s.got := rfl
@[simp] theorem deliver_orphan (t : Txn) (a : Answer) (s : State) : (deliver t a s).orphan = s.orphan := rfl
@[simp] theorem deliver_rstN (t : Txn) (a : Answer) (s : State) : (deliver t a s).rstN = s.rstN := rfl
@[simp] theorem deliver_chipReady (t : Txn) (a : Answer) (s : State) : (deliver t a s).chipReady = s.chipReady := rfl
@[simp] theorem deliver_chip (t : Txn) (a : Answer) (s : State) : (deliver t a s).chip = Memory.storeAll (arrived t a) s.chip := rfl
@[simp] theorem deliver_inputs (t : Txn) (a : Answer) (s : State) : (deliver t a s).inputs = s.inputs := rfl
@[simp] theorem deliver_outputs (t : Txn) (a : Answer) (s : State) : (deliver t a s).outputs = s.outputs := rfl

/-! ## complete -/

@[simp] theorem complete_cfg (r : Vector Word 8) (s : State) : (complete r s).cfg = s.cfg := rfl
@[simp] theorem complete_ctrl (r : Vector Word 8) (s : State) : (complete r s).ctrl = s.ctrl := rfl
@[simp] theorem complete_done (r : Vector Word 8) (s : State) : (complete r s).done = true := rfl
@[simp] theorem complete_overrun (r : Vector Word 8) (s : State) : (complete r s).overrun = s.overrun := rfl
@[simp] theorem complete_errCode (r : Vector Word 8) (s : State) : (complete r s).errCode = .noError := rfl
@[simp] theorem complete_lockState (r : Vector Word 8) (s : State) : (complete r s).lockState = s.lockState := rfl
@[simp] theorem complete_lockDelsys (r : Vector Word 8) (s : State) : (complete r s).lockDelsys = s.lockDelsys := rfl
@[simp] theorem complete_errInfo (r : Vector Word 8) (s : State) : (complete r s).errInfo = s.errInfo := rfl
@[simp] theorem complete_args (r : Vector Word 8) (s : State) : (complete r s).args = s.args := rfl
@[simp] theorem complete_latch (r : Vector Word 8) (s : State) : (complete r s).latch = s.latch := rfl
@[simp] theorem complete_latchTsSerial (r : Vector Word 8) (s : State) : (complete r s).latchTsSerial = s.latchTsSerial := rfl
@[simp] theorem complete_latchXtal24 (r : Vector Word 8) (s : State) : (complete r s).latchXtal24 = s.latchXtal24 := rfl
@[simp] theorem complete_res (r : Vector Word 8) (s : State) : (complete r s).res = r := rfl
@[simp] theorem complete_seq (r : Vector Word 8) (s : State) : (complete r s).seq = .idle := rfl
@[simp] theorem complete_pollIter (r : Vector Word 8) (s : State) : (complete r s).pollIter = s.pollIter := rfl
@[simp] theorem complete_waitLeft (r : Vector Word 8) (s : State) : (complete r s).waitLeft = s.waitLeft := rfl
@[simp] theorem complete_lastLockByte (r : Vector Word 8) (s : State) : (complete r s).lastLockByte = s.lastLockByte := rfl
@[simp] theorem complete_abortReq (r : Vector Word 8) (s : State) : (complete r s).abortReq = false := rfl
@[simp] theorem complete_mclkKhz (r : Vector Word 8) (s : State) : (complete r s).mclkKhz = s.mclkKhz := rfl
@[simp] theorem complete_selIsi (r : Vector Word 8) (s : State) : (complete r s).selIsi = s.selIsi := rfl
@[simp] theorem complete_accErr (r : Vector Word 8) (s : State) : (complete r s).accErr = s.accErr := rfl
@[simp] theorem complete_accCnt (r : Vector Word 8) (s : State) : (complete r s).accCnt = s.accCnt := rfl
@[simp] theorem complete_tr (r : Vector Word 8) (s : State) : (complete r s).tr = s.tr := rfl
@[simp] theorem complete_plan (r : Vector Word 8) (s : State) : (complete r s).plan = s.plan := rfl
@[simp] theorem complete_running (r : Vector Word 8) (s : State) : (complete r s).running = none := rfl
@[simp] theorem complete_phase (r : Vector Word 8) (s : State) : (complete r s).phase = .idle := rfl
@[simp] theorem complete_todo (r : Vector Word 8) (s : State) : (complete r s).todo = [] := rfl
@[simp] theorem complete_got (r : Vector Word 8) (s : State) : (complete r s).got = [] := rfl
@[simp] theorem complete_orphan (r : Vector Word 8) (s : State) : (complete r s).orphan = s.orphan := rfl
@[simp] theorem complete_rstN (r : Vector Word 8) (s : State) : (complete r s).rstN = s.rstN := rfl
@[simp] theorem complete_chipReady (r : Vector Word 8) (s : State) : (complete r s).chipReady = s.chipReady := rfl
@[simp] theorem complete_chip (r : Vector Word 8) (s : State) : (complete r s).chip = s.chip := rfl
@[simp] theorem complete_inputs (r : Vector Word 8) (s : State) : (complete r s).inputs = s.inputs := rfl
@[simp] theorem complete_outputs (r : Vector Word 8) (s : State) : (complete r s).outputs = s.outputs := rfl

/-! ## raiseError -/

@[simp] theorem raiseError_cfg (c : ErrCode) (w : Word) (s : State) : (raiseError c w s).cfg = s.cfg := rfl
@[simp] theorem raiseError_ctrl (c : ErrCode) (w : Word) (s : State) : (raiseError c w s).ctrl = s.ctrl := rfl
@[simp] theorem raiseError_done (c : ErrCode) (w : Word) (s : State) : (raiseError c w s).done = true := rfl
@[simp] theorem raiseError_overrun (c : ErrCode) (w : Word) (s : State) : (raiseError c w s).overrun = s.overrun := rfl
@[simp] theorem raiseError_errCode (c : ErrCode) (w : Word) (s : State) : (raiseError c w s).errCode = c := rfl
@[simp] theorem raiseError_lockState (c : ErrCode) (w : Word) (s : State) : (raiseError c w s).lockState = s.lockState := rfl
@[simp] theorem raiseError_lockDelsys (c : ErrCode) (w : Word) (s : State) : (raiseError c w s).lockDelsys = s.lockDelsys := rfl
@[simp] theorem raiseError_errInfo (c : ErrCode) (w : Word) (s : State) : (raiseError c w s).errInfo = w := rfl
@[simp] theorem raiseError_args (c : ErrCode) (w : Word) (s : State) : (raiseError c w s).args = s.args := rfl
@[simp] theorem raiseError_latch (c : ErrCode) (w : Word) (s : State) : (raiseError c w s).latch = s.latch := rfl
@[simp] theorem raiseError_latchTsSerial (c : ErrCode) (w : Word) (s : State) : (raiseError c w s).latchTsSerial = s.latchTsSerial := rfl
@[simp] theorem raiseError_latchXtal24 (c : ErrCode) (w : Word) (s : State) : (raiseError c w s).latchXtal24 = s.latchXtal24 := rfl
@[simp] theorem raiseError_res (c : ErrCode) (w : Word) (s : State) : (raiseError c w s).res = s.res := rfl
@[simp] theorem raiseError_seq (c : ErrCode) (w : Word) (s : State) : (raiseError c w s).seq = .idle := rfl
@[simp] theorem raiseError_pollIter (c : ErrCode) (w : Word) (s : State) : (raiseError c w s).pollIter = s.pollIter := rfl
@[simp] theorem raiseError_waitLeft (c : ErrCode) (w : Word) (s : State) : (raiseError c w s).waitLeft = s.waitLeft := rfl
@[simp] theorem raiseError_lastLockByte (c : ErrCode) (w : Word) (s : State) : (raiseError c w s).lastLockByte = s.lastLockByte := rfl
@[simp] theorem raiseError_abortReq (c : ErrCode) (w : Word) (s : State) : (raiseError c w s).abortReq = false := rfl
@[simp] theorem raiseError_mclkKhz (c : ErrCode) (w : Word) (s : State) : (raiseError c w s).mclkKhz = s.mclkKhz := rfl
@[simp] theorem raiseError_selIsi (c : ErrCode) (w : Word) (s : State) : (raiseError c w s).selIsi = s.selIsi := rfl
@[simp] theorem raiseError_accErr (c : ErrCode) (w : Word) (s : State) : (raiseError c w s).accErr = s.accErr := rfl
@[simp] theorem raiseError_accCnt (c : ErrCode) (w : Word) (s : State) : (raiseError c w s).accCnt = s.accCnt := rfl
@[simp] theorem raiseError_tr (c : ErrCode) (w : Word) (s : State) : (raiseError c w s).tr = s.tr := rfl
@[simp] theorem raiseError_plan (c : ErrCode) (w : Word) (s : State) : (raiseError c w s).plan = s.plan := rfl
@[simp] theorem raiseError_running (c : ErrCode) (w : Word) (s : State) : (raiseError c w s).running = none := rfl
@[simp] theorem raiseError_phase (c : ErrCode) (w : Word) (s : State) : (raiseError c w s).phase = .idle := rfl
@[simp] theorem raiseError_todo (c : ErrCode) (w : Word) (s : State) : (raiseError c w s).todo = [] := rfl
@[simp] theorem raiseError_got (c : ErrCode) (w : Word) (s : State) : (raiseError c w s).got = [] := rfl
@[simp] theorem raiseError_orphan (c : ErrCode) (w : Word) (s : State) : (raiseError c w s).orphan = s.orphan := rfl
@[simp] theorem raiseError_rstN (c : ErrCode) (w : Word) (s : State) : (raiseError c w s).rstN = s.rstN := rfl
@[simp] theorem raiseError_chipReady (c : ErrCode) (w : Word) (s : State) : (raiseError c w s).chipReady = s.chipReady := rfl
@[simp] theorem raiseError_chip (c : ErrCode) (w : Word) (s : State) : (raiseError c w s).chip = s.chip := rfl
@[simp] theorem raiseError_inputs (c : ErrCode) (w : Word) (s : State) : (raiseError c w s).inputs = s.inputs := rfl
@[simp] theorem raiseError_outputs (c : ErrCode) (w : Word) (s : State) : (raiseError c w s).outputs = s.outputs := rfl

/-! ## latchOperands -/

@[simp] theorem latchOperands_cfg (s : State) : (latchOperands s).cfg = s.cfg := rfl
@[simp] theorem latchOperands_ctrl (s : State) : (latchOperands s).ctrl = s.ctrl := rfl
@[simp] theorem latchOperands_done (s : State) : (latchOperands s).done = false := rfl
@[simp] theorem latchOperands_overrun (s : State) : (latchOperands s).overrun = s.overrun := rfl
@[simp] theorem latchOperands_errCode (s : State) : (latchOperands s).errCode = .noError := rfl
@[simp] theorem latchOperands_lockState (s : State) : (latchOperands s).lockState = s.lockState := rfl
@[simp] theorem latchOperands_lockDelsys (s : State) : (latchOperands s).lockDelsys = s.lockDelsys := rfl
@[simp] theorem latchOperands_errInfo (s : State) : (latchOperands s).errInfo = s.errInfo := rfl
@[simp] theorem latchOperands_args (s : State) : (latchOperands s).args = s.args := rfl
@[simp] theorem latchOperands_latch (s : State) : (latchOperands s).latch = s.args := rfl
@[simp] theorem latchOperands_latchTsSerial (s : State) : (latchOperands s).latchTsSerial = s.tsSerial := rfl
@[simp] theorem latchOperands_latchXtal24 (s : State) : (latchOperands s).latchXtal24 = s.xtal24 := rfl
@[simp] theorem latchOperands_res (s : State) : (latchOperands s).res = s.res := rfl
@[simp] theorem latchOperands_seq (s : State) : (latchOperands s).seq = s.seq := rfl
@[simp] theorem latchOperands_pollIter (s : State) : (latchOperands s).pollIter = s.pollIter := rfl
@[simp] theorem latchOperands_waitLeft (s : State) : (latchOperands s).waitLeft = s.waitLeft := rfl
@[simp] theorem latchOperands_lastLockByte (s : State) : (latchOperands s).lastLockByte = s.lastLockByte := rfl
@[simp] theorem latchOperands_abortReq (s : State) : (latchOperands s).abortReq = false := rfl
@[simp] theorem latchOperands_mclkKhz (s : State) : (latchOperands s).mclkKhz = s.mclkKhz := rfl
@[simp] theorem latchOperands_selIsi (s : State) : (latchOperands s).selIsi = s.selIsi := rfl
@[simp] theorem latchOperands_accErr (s : State) : (latchOperands s).accErr = s.accErr := rfl
@[simp] theorem latchOperands_accCnt (s : State) : (latchOperands s).accCnt = s.accCnt := rfl
@[simp] theorem latchOperands_tr (s : State) : (latchOperands s).tr = s.tr := rfl
@[simp] theorem latchOperands_plan (s : State) : (latchOperands s).plan = s.plan := rfl
@[simp] theorem latchOperands_running (s : State) : (latchOperands s).running = s.running := rfl
@[simp] theorem latchOperands_phase (s : State) : (latchOperands s).phase = s.phase := rfl
@[simp] theorem latchOperands_todo (s : State) : (latchOperands s).todo = s.todo := rfl
@[simp] theorem latchOperands_got (s : State) : (latchOperands s).got = s.got := rfl
@[simp] theorem latchOperands_orphan (s : State) : (latchOperands s).orphan = s.orphan := rfl
@[simp] theorem latchOperands_rstN (s : State) : (latchOperands s).rstN = s.rstN := rfl
@[simp] theorem latchOperands_chipReady (s : State) : (latchOperands s).chipReady = s.chipReady := rfl
@[simp] theorem latchOperands_chip (s : State) : (latchOperands s).chip = s.chip := rfl
@[simp] theorem latchOperands_inputs (s : State) : (latchOperands s).inputs = s.inputs := rfl
@[simp] theorem latchOperands_outputs (s : State) : (latchOperands s).outputs = s.outputs := rfl

/-! ## accept -/

@[simp] theorem accept_cfg (i : Instr) (s : State) : (accept i s).cfg = s.cfg := rfl
@[simp] theorem accept_ctrl (i : Instr) (s : State) : (accept i s).ctrl = s.ctrl := rfl
@[simp] theorem accept_done (i : Instr) (s : State) : (accept i s).done = false := rfl
@[simp] theorem accept_overrun (i : Instr) (s : State) : (accept i s).overrun = s.overrun := rfl
@[simp] theorem accept_errCode (i : Instr) (s : State) : (accept i s).errCode = .noError := rfl
@[simp] theorem accept_lockState (i : Instr) (s : State) : (accept i s).lockState = s.lockState := rfl
@[simp] theorem accept_lockDelsys (i : Instr) (s : State) : (accept i s).lockDelsys = s.lockDelsys := rfl
@[simp] theorem accept_errInfo (i : Instr) (s : State) : (accept i s).errInfo = s.errInfo := rfl
@[simp] theorem accept_args (i : Instr) (s : State) : (accept i s).args = s.args := rfl
@[simp] theorem accept_latch (i : Instr) (s : State) : (accept i s).latch = s.args := rfl
@[simp] theorem accept_latchTsSerial (i : Instr) (s : State) : (accept i s).latchTsSerial = s.tsSerial := rfl
@[simp] theorem accept_latchXtal24 (i : Instr) (s : State) : (accept i s).latchXtal24 = s.xtal24 := rfl
@[simp] theorem accept_res (i : Instr) (s : State) : (accept i s).res = s.res := rfl
@[simp] theorem accept_seq (i : Instr) (s : State) : (accept i s).seq = s.seq := rfl
@[simp] theorem accept_pollIter (i : Instr) (s : State) : (accept i s).pollIter = s.pollIter := rfl
@[simp] theorem accept_waitLeft (i : Instr) (s : State) : (accept i s).waitLeft = s.waitLeft := rfl
@[simp] theorem accept_lastLockByte (i : Instr) (s : State) : (accept i s).lastLockByte = s.lastLockByte := rfl
@[simp] theorem accept_abortReq (i : Instr) (s : State) : (accept i s).abortReq = false := rfl
@[simp] theorem accept_mclkKhz (i : Instr) (s : State) : (accept i s).mclkKhz = s.mclkKhz := rfl
@[simp] theorem accept_selIsi (i : Instr) (s : State) : (accept i s).selIsi = s.selIsi := rfl
@[simp] theorem accept_accErr (i : Instr) (s : State) : (accept i s).accErr = s.accErr := rfl
@[simp] theorem accept_accCnt (i : Instr) (s : State) : (accept i s).accCnt = s.accCnt := rfl
@[simp] theorem accept_tr (i : Instr) (s : State) : (accept i s).tr = s.tr := rfl
@[simp] theorem accept_plan (i : Instr) (s : State) : (accept i s).plan = s.plan := rfl
@[simp] theorem accept_running (i : Instr) (s : State) : (accept i s).running = some i := rfl
@[simp] theorem accept_phase (i : Instr) (s : State) : (accept i s).phase = s.phase := rfl
@[simp] theorem accept_todo (i : Instr) (s : State) : (accept i s).todo = s.todo := rfl
@[simp] theorem accept_got (i : Instr) (s : State) : (accept i s).got = s.got := rfl
@[simp] theorem accept_orphan (i : Instr) (s : State) : (accept i s).orphan = s.orphan := rfl
@[simp] theorem accept_rstN (i : Instr) (s : State) : (accept i s).rstN = s.rstN := rfl
@[simp] theorem accept_chipReady (i : Instr) (s : State) : (accept i s).chipReady = s.chipReady := rfl
@[simp] theorem accept_chip (i : Instr) (s : State) : (accept i s).chip = s.chip := rfl
@[simp] theorem accept_inputs (i : Instr) (s : State) : (accept i s).inputs = s.inputs := rfl
@[simp] theorem accept_outputs (i : Instr) (s : State) : (accept i s).outputs = s.outputs := rfl

/-! ## setOverrun -/

@[simp] theorem setOverrun_cfg (s : State) : (setOverrun s).cfg = s.cfg := rfl
@[simp] theorem setOverrun_ctrl (s : State) : (setOverrun s).ctrl = s.ctrl := rfl
@[simp] theorem setOverrun_done (s : State) : (setOverrun s).done = s.done := rfl
@[simp] theorem setOverrun_overrun (s : State) : (setOverrun s).overrun = true := rfl
@[simp] theorem setOverrun_errCode (s : State) : (setOverrun s).errCode = s.errCode := rfl
@[simp] theorem setOverrun_lockState (s : State) : (setOverrun s).lockState = s.lockState := rfl
@[simp] theorem setOverrun_lockDelsys (s : State) : (setOverrun s).lockDelsys = s.lockDelsys := rfl
@[simp] theorem setOverrun_errInfo (s : State) : (setOverrun s).errInfo = s.errInfo := rfl
@[simp] theorem setOverrun_args (s : State) : (setOverrun s).args = s.args := rfl
@[simp] theorem setOverrun_latch (s : State) : (setOverrun s).latch = s.latch := rfl
@[simp] theorem setOverrun_latchTsSerial (s : State) : (setOverrun s).latchTsSerial = s.latchTsSerial := rfl
@[simp] theorem setOverrun_latchXtal24 (s : State) : (setOverrun s).latchXtal24 = s.latchXtal24 := rfl
@[simp] theorem setOverrun_res (s : State) : (setOverrun s).res = s.res := rfl
@[simp] theorem setOverrun_seq (s : State) : (setOverrun s).seq = s.seq := rfl
@[simp] theorem setOverrun_pollIter (s : State) : (setOverrun s).pollIter = s.pollIter := rfl
@[simp] theorem setOverrun_waitLeft (s : State) : (setOverrun s).waitLeft = s.waitLeft := rfl
@[simp] theorem setOverrun_lastLockByte (s : State) : (setOverrun s).lastLockByte = s.lastLockByte := rfl
@[simp] theorem setOverrun_abortReq (s : State) : (setOverrun s).abortReq = s.abortReq := rfl
@[simp] theorem setOverrun_mclkKhz (s : State) : (setOverrun s).mclkKhz = s.mclkKhz := rfl
@[simp] theorem setOverrun_selIsi (s : State) : (setOverrun s).selIsi = s.selIsi := rfl
@[simp] theorem setOverrun_accErr (s : State) : (setOverrun s).accErr = s.accErr := rfl
@[simp] theorem setOverrun_accCnt (s : State) : (setOverrun s).accCnt = s.accCnt := rfl
@[simp] theorem setOverrun_tr (s : State) : (setOverrun s).tr = s.tr := rfl
@[simp] theorem setOverrun_plan (s : State) : (setOverrun s).plan = s.plan := rfl
@[simp] theorem setOverrun_running (s : State) : (setOverrun s).running = s.running := rfl
@[simp] theorem setOverrun_phase (s : State) : (setOverrun s).phase = s.phase := rfl
@[simp] theorem setOverrun_todo (s : State) : (setOverrun s).todo = s.todo := rfl
@[simp] theorem setOverrun_got (s : State) : (setOverrun s).got = s.got := rfl
@[simp] theorem setOverrun_orphan (s : State) : (setOverrun s).orphan = s.orphan := rfl
@[simp] theorem setOverrun_rstN (s : State) : (setOverrun s).rstN = s.rstN := rfl
@[simp] theorem setOverrun_chipReady (s : State) : (setOverrun s).chipReady = s.chipReady := rfl
@[simp] theorem setOverrun_chip (s : State) : (setOverrun s).chip = s.chip := rfl
@[simp] theorem setOverrun_inputs (s : State) : (setOverrun s).inputs = s.inputs := rfl
@[simp] theorem setOverrun_outputs (s : State) : (setOverrun s).outputs = s.outputs := rfl

/-! ## resetKeepingCtrl -/

@[simp] theorem resetKeepingCtrl_cfg (s : State) : (resetKeepingCtrl s).cfg = s.cfg := rfl
@[simp] theorem resetKeepingCtrl_ctrl (s : State) : (resetKeepingCtrl s).ctrl = s.ctrl := rfl
@[simp] theorem resetKeepingCtrl_done (s : State) : (resetKeepingCtrl s).done = State.reset.done := rfl
@[simp] theorem resetKeepingCtrl_overrun (s : State) : (resetKeepingCtrl s).overrun = State.reset.overrun := rfl
@[simp] theorem resetKeepingCtrl_errCode (s : State) : (resetKeepingCtrl s).errCode = State.reset.errCode := rfl
@[simp] theorem resetKeepingCtrl_lockState (s : State) : (resetKeepingCtrl s).lockState = State.reset.lockState := rfl
@[simp] theorem resetKeepingCtrl_lockDelsys (s : State) : (resetKeepingCtrl s).lockDelsys = State.reset.lockDelsys := rfl
@[simp] theorem resetKeepingCtrl_errInfo (s : State) : (resetKeepingCtrl s).errInfo = State.reset.errInfo := rfl
@[simp] theorem resetKeepingCtrl_args (s : State) : (resetKeepingCtrl s).args = State.reset.args := rfl
@[simp] theorem resetKeepingCtrl_latch (s : State) : (resetKeepingCtrl s).latch = State.reset.latch := rfl
@[simp] theorem resetKeepingCtrl_latchTsSerial (s : State) : (resetKeepingCtrl s).latchTsSerial = State.reset.latchTsSerial := rfl
@[simp] theorem resetKeepingCtrl_latchXtal24 (s : State) : (resetKeepingCtrl s).latchXtal24 = State.reset.latchXtal24 := rfl
@[simp] theorem resetKeepingCtrl_res (s : State) : (resetKeepingCtrl s).res = State.reset.res := rfl
@[simp] theorem resetKeepingCtrl_seq (s : State) : (resetKeepingCtrl s).seq = State.reset.seq := rfl
@[simp] theorem resetKeepingCtrl_pollIter (s : State) : (resetKeepingCtrl s).pollIter = State.reset.pollIter := rfl
@[simp] theorem resetKeepingCtrl_waitLeft (s : State) : (resetKeepingCtrl s).waitLeft = State.reset.waitLeft := rfl
@[simp] theorem resetKeepingCtrl_lastLockByte (s : State) : (resetKeepingCtrl s).lastLockByte = State.reset.lastLockByte := rfl
@[simp] theorem resetKeepingCtrl_abortReq (s : State) : (resetKeepingCtrl s).abortReq = State.reset.abortReq := rfl
@[simp] theorem resetKeepingCtrl_mclkKhz (s : State) : (resetKeepingCtrl s).mclkKhz = State.reset.mclkKhz := rfl
@[simp] theorem resetKeepingCtrl_selIsi (s : State) : (resetKeepingCtrl s).selIsi = State.reset.selIsi := rfl
@[simp] theorem resetKeepingCtrl_accErr (s : State) : (resetKeepingCtrl s).accErr = State.reset.accErr := rfl
@[simp] theorem resetKeepingCtrl_accCnt (s : State) : (resetKeepingCtrl s).accCnt = State.reset.accCnt := rfl
@[simp] theorem resetKeepingCtrl_tr (s : State) : (resetKeepingCtrl s).tr = State.reset.tr := rfl
@[simp] theorem resetKeepingCtrl_plan (s : State) : (resetKeepingCtrl s).plan = State.reset.plan := rfl
@[simp] theorem resetKeepingCtrl_running (s : State) : (resetKeepingCtrl s).running = State.reset.running := rfl
@[simp] theorem resetKeepingCtrl_phase (s : State) : (resetKeepingCtrl s).phase = State.reset.phase := rfl
@[simp] theorem resetKeepingCtrl_todo (s : State) : (resetKeepingCtrl s).todo = State.reset.todo := rfl
@[simp] theorem resetKeepingCtrl_got (s : State) : (resetKeepingCtrl s).got = State.reset.got := rfl
@[simp] theorem resetKeepingCtrl_orphan (s : State) : (resetKeepingCtrl s).orphan = inFlight s := rfl
@[simp] theorem resetKeepingCtrl_rstN (s : State) : (resetKeepingCtrl s).rstN = s.rstN := rfl
@[simp] theorem resetKeepingCtrl_chipReady (s : State) : (resetKeepingCtrl s).chipReady = s.chipReady := rfl
@[simp] theorem resetKeepingCtrl_chip (s : State) : (resetKeepingCtrl s).chip = s.chip := rfl
@[simp] theorem resetKeepingCtrl_inputs (s : State) : (resetKeepingCtrl s).inputs = s.inputs := rfl
@[simp] theorem resetKeepingCtrl_outputs (s : State) : (resetKeepingCtrl s).outputs = s.outputs := rfl

end Sys2Proof.Machine
end

