-- ==== Sys2Proof/Laws/Ops.lean ====
section
/-! SUPPORT. What each shared operation can do, said once. -/

namespace Sys2Proof.Machine

/-! ## Busy and idle -/

@[simp] theorem busy_of_running {s : State} {i : Instr} (h : s.running = some i) : s.busy = true := by
  simp [State.busy, h]

@[simp] theorem not_busy_of_idle {s : State} (h : s.running = none) : s.busy = false := by
  simp [State.busy, h]

/-! ## Issuing transactions -/

theorem issueHead_issues {s : State} {t : Txn} {rest : List Txn} (ho : s.orphan = none) (ht : s.todo = t :: rest) :
    issueHead s = emit (.bus t) s := by
  simp [issueHead, ho, ht]

theorem issueHead_waits {s : State} {t : Txn} (ho : s.orphan = some t) : issueHead s = s := by
  simp [issueHead, ho]

theorem issueHead_empty {s : State} (ht : s.todo = []) : issueHead s = s := by
  unfold issueHead
  split
  · next h => rw [ht] at h; cases h
  · rfl

/-- issueHead shows the next transaction at the port, or does nothing. -/
theorem issueHead_cases (s : State) :
    (∃ t rest, s.orphan = none ∧ s.todo = t :: rest ∧ issueHead s = emit (.bus t) s) ∨
      ((s.orphan ≠ none ∨ s.todo = []) ∧ issueHead s = s) := by
  unfold issueHead
  split
  · next t rest ho ht => exact .inl ⟨t, rest, ho, ht, rfl⟩
  · next h =>
    refine .inr ⟨?_, rfl⟩
    by_cases ho : s.orphan = none
    · right
      cases ht : s.todo with
      | nil => rfl
      | cons t rest => exact absurd ht (h t rest ho)
    · exact .inl ho

@[simp] theorem load_nil (p : Phase) (k : State → State) (s : State) :
    load [] p k s = k { s with phase := p, todo := [], got := [] } := rfl

@[simp] theorem load_cons (t : Txn) (rest : List Txn) (p : Phase) (k : State → State) (s : State) :
    load (t :: rest) p k s = issueHead { s with phase := p, todo := t :: rest, got := [] } := rfl

/-- Beginning a phase with transactions on a free bus issues the first of them. -/
theorem load_issues {txns : List Txn} {t : Txn} {rest : List Txn} (ht : txns = t :: rest) (p : Phase)
    (k : State → State) {s : State} (ho : s.orphan = none) :
    load txns p k s =
      { s with phase := p, todo := t :: rest, got := [], outputs := s.outputs ++ [.bus t] } := by
  subst ht
  exact issueHead_issues ho rfl

/-! ## Step boundaries -/

/-- A step boundary with no abort requested: the step begins (R231). -/
theorem boundary_open (st : SeqStep) (body : State → State) {s : State} (h : s.abortReq = false) :
    boundary st body s = body { s with seq := st } := by
  simp [boundary, h]

/-- A step boundary with an abort requested: the TUNE ends Failed with ABORTED (R231). -/
theorem boundary_aborted (st : SeqStep) (body : State → State) {s : State} (h : s.abortReq = true) :
    boundary st body s = raiseError .aborted (infoAborted st) { s with lockState := .failed } := by
  simp [boundary, h]

/-! ## Computation points -/

/-- A computation that is not held ends at once. -/
theorem computePoint_prompt (body : State → State) {s : State} (h : ∀ rest, s.inputs ≠ .computeHold :: rest) :
    computePoint body s = body s := by
  unfold computePoint
  split
  · next rest hr => exact absurd hr (h rest)
  · rfl

/-- A held computation leaves the command running. -/
theorem computePoint_held (body : State → State) {s : State} {rest : List Stimulus}
    (h : s.inputs = .computeHold :: rest) :
    computePoint body s = { s with inputs := rest, phase := .computing } := by
  simp [computePoint, h]

/-! ## Submitting a command -/

/-- A command word while another command runs is only an overrun (R320). -/
theorem submit_busy (i : Instr) (start : State → State) {s : State} (h : s.running ≠ none) :
    submit i start s = setOverrun s := by
  have : s.busy = true := by
    cases hr : s.running with
    | none => exact absurd hr h
    | some j => simp [State.busy, hr]
  simp [submit, this]

/-- A command word while none runs is accepted and runs on (R310). -/
theorem submit_idle (i : Instr) (start : State → State) {s : State} (h : s.running = none) :
    submit i start s = runCommand (start (accept i s)) := by
  simp [submit, State.busy, h]

/-! ## Running on -/

/-- Once no command runs, what arrives next is not the command's. -/
theorem runOn_idle (l : List Stimulus) {s : State} (h : s.running = none) : runOn l s = s := by
  cases l with
  | nil => rfl
  | cons x rest => simp [runOn, State.busy, h]

@[simp] theorem runOn_nil (s : State) : runOn [] s = s := rfl

/-- A running command takes the next stimulus of the engine's own. -/
theorem runOn_engine {x : Stimulus} {rest : List Stimulus} {s : State} (h : s.running ≠ none) (hx : x.isEngine = true) :
    runOn (x :: rest) s = runOn rest (react x { s with inputs := rest }) := by
  have : s.busy = true := by
    cases hr : s.running with
    | none => exact absurd hr h
    | some j => simp [State.busy, hr]
  simp [runOn, this, hx]

/-- A running command waits for a step of its own when something else arrives. -/
theorem runOn_other {x : Stimulus} {rest : List Stimulus} (s : State) (hx : x.isEngine = false) :
    runOn (x :: rest) s = s := by
  simp [runOn, hx]

/-- A command that has completed does not run on. -/
@[simp] theorem runCommand_complete (r : Vector Word 8) (s : State) : runCommand (complete r s) = complete r s :=
  runOn_idle _ rfl

/-- A command that has ended with an error does not run on. -/
@[simp] theorem runCommand_raiseError (c : ErrCode) (w : Word) (s : State) :
    runCommand (raiseError c w s) = raiseError c w s := runOn_idle _ rfl

/-- Accepting leaves the stimuli alone. -/
theorem prompt_accept {s : State} (i : Instr) (h : ∀ rest, s.inputs ≠ .computeHold :: rest) :
    ∀ rest, (accept i s).inputs ≠ .computeHold :: rest := h

/-- A pure computation on an idle, unheld block: accepted, computed, ended (R310). -/
theorem submit_pure (i : Instr) (body : State → State) {s : State} (h : s.running = none)
    (hp : ∀ rest, s.inputs ≠ .computeHold :: rest) (hb : (body (accept i s)).running = none) :
    submit i (computePoint body) s = body (accept i s) := by
  rw [submit_idle i _ h, computePoint_prompt body (prompt_accept i hp)]
  exact runOn_idle _ hb

end Sys2Proof.Machine
end

