-- ==== Sys2Proof/Laws/Run.lean ====
section
/-! SUPPORT. A phase whose transactions all succeed runs through to what follows it. -/

namespace Sys2Proof.Machine

/-- The bytes a list of transactions reads, given the chip's answers in order. -/
def readBytes : List Txn → List Answer → List Byte
  | t :: ts, a :: as => answerBytes t a ++ readBytes ts as
  | _, _ => []

/-- The bytes a list of successful transactions delivers, in order. -/
def sentCells : List Txn → List Answer → List (BusAddr × Byte)
  | t :: ts, a :: as => txnCells a.byte t ++ sentCells ts as
  | _, _ => []

theorem Memory.storeAll_append (xs ys : List (BusAddr × Byte)) (m : Memory) :
    Memory.storeAll (xs ++ ys) m = Memory.storeAll ys (Memory.storeAll xs m) := by
  induction xs generalizing m with
  | nil => rfl
  | cons x xs ih => exact ih _

theorem transactionEnd_last (t : Txn) {a : Answer} (s : State) (h : a.ok = true) :
    transactionEnd t [] a s = phaseDone { s with got := s.got ++ answerBytes t a, todo := [] } := by
  simp [transactionEnd, h]

theorem transactionEnd_more (t u : Txn) (rest : List Txn) {a : Answer} (s : State) (h : a.ok = true) :
    transactionEnd t (u :: rest) a s =
      issueHead { s with got := s.got ++ answerBytes t a, todo := u :: rest } := by
  simp [transactionEnd, h]

/-- A failed transaction ends the command with TRANSPORT (R13). -/
theorem transactionEnd_failed (t : Txn) (rest : List Txn) {a : Answer} (s : State) (h : a.ok = false) :
    transactionEnd t rest a s = busFailure t s := by
  simp [transactionEnd, h]

theorem chipAnswer_outstanding {s : State} {t : Txn} {rest : List Txn} (a : Answer) (ho : s.orphan = none)
    (ht : s.todo = t :: rest) : chipAnswer a s = transactionEnd t rest a (deliver t a s) := by
  simp [chipAnswer, ho, ht]

/-- Every transaction of the phase succeeds: the rest of them are issued in order, every byte is delivered and read, and the
phase is done (R88 to R92). -/
theorem runOn_answers (t : Txn) (ts : List Txn) (as : List Answer) (rest : List Stimulus) (s : State)
    (hr : s.running ≠ none) (ho : s.orphan = none) (ht : s.todo = t :: ts) (hl : as.length = ts.length + 1)
    (hok : ∀ a ∈ as, a.ok = true) :
    runOn (as.map .chipAnswer ++ rest) s =
      runOn rest (phaseDone
        { s with
          inputs := rest, todo := [], got := s.got ++ readBytes (t :: ts) as
          outputs := s.outputs ++ ts.map .bus, chip := Memory.storeAll (sentCells (t :: ts) as) s.chip }) := by
  induction ts generalizing t as s with
  | nil =>
    match as, hl with
    | [a], _ =>
      have ha : a.ok = true := hok a (by simp)
      simp only [List.map_cons, List.map_nil, List.cons_append, List.nil_append]
      rw [runOn_engine hr rfl]
      have : react (.chipAnswer a) { s with inputs := rest } =
          transactionEnd t [] a (deliver t a { s with inputs := rest }) := chipAnswer_outstanding a ho ht
      rw [this, transactionEnd_last _ _ ha]
      simp [deliver, arrived, ha, readBytes, sentCells]
  | cons u us ih =>
    match as, hl with
    | a :: as', hl =>
      have ha : a.ok = true := hok a (by simp)
      simp only [List.map_cons, List.cons_append]
      rw [runOn_engine hr rfl]
      have : react (.chipAnswer a) { s with inputs := as'.map .chipAnswer ++ rest } =
          transactionEnd t (u :: us) a (deliver t a { s with inputs := as'.map .chipAnswer ++ rest }) :=
        chipAnswer_outstanding a ho ht
      rw [this, transactionEnd_more _ _ _ _ ha, issueHead_issues (by exact ho) rfl]
      rw [ih u as' _ (by exact hr) (by exact ho) rfl (by simpa using hl) (fun b hb => hok b (by simp [hb]))]
      simp [emit, deliver, arrived, ha, readBytes, sentCells, Memory.storeAll_append]

/-- The transactions of reads alone give a byte each and deliver nothing. -/
theorem readBytes_reads {ts : List Txn} {as : List Answer} (h : ∀ t ∈ ts, ∃ a, t = .read a) (hl : as.length = ts.length) :
    readBytes ts as = as.map Answer.byte ∧ sentCells ts as = [] := by
  induction ts generalizing as with
  | nil =>
    match as, hl with
    | [], _ => exact ⟨rfl, rfl⟩
  | cons t ts ih =>
    match as, hl with
    | a :: as', hl =>
      obtain ⟨x, rfl⟩ := h t (by simp)
      have := ih (fun u hu => h u (by simp [hu])) (by simpa using hl)
      exact ⟨by simp [readBytes, answerBytes, this.1], by simp [sentCells, txnCells, this.2]⟩

theorem fieldReads_reads (f : FieldDesc) : ∀ t ∈ fieldReads f, ∃ a, t = .read a := by
  intro t ht
  simp only [fieldReads, List.mem_map] at ht
  obtain ⟨j, -, rfl⟩ := ht
  exact ⟨_, rfl⟩

theorem fieldsReads_reads (fs : List FieldDesc) : ∀ t ∈ fieldsReads fs, ∃ a, t = .read a := by
  intro t ht
  simp only [fieldsReads, List.mem_flatMap] at ht
  obtain ⟨f, -, hf⟩ := ht
  exact fieldReads_reads f t hf

@[simp] theorem fieldReads_length (f : FieldDesc) : (fieldReads f).length = f.nbytes := by simp [fieldReads]

/-- A phase whose transactions all succeed runs through to what follows it (R88 to R92). -/
theorem load_run (txns : List Txn) (p : Phase) (k : State → State) (as : List Answer) (rest : List Stimulus)
    (s u : State) (hr : s.running ≠ none) (ho : s.orphan = none) (hl : as.length = txns.length)
    (hok : ∀ a ∈ as, a.ok = true) (hi : s.inputs = as.map .chipAnswer ++ rest)
    (hu : u = { s with
      inputs := rest, phase := p, todo := [], got := readBytes txns as
      outputs := s.outputs ++ txns.map .bus, chip := Memory.storeAll (sentCells txns as) s.chip })
    (hk : phaseDone u = k u) :
    runOn s.inputs (load txns p k s) = runOn rest (k u) := by
  cases txns with
  | nil =>
    have : as = [] := by simpa using hl
    subst this
    have hi' : s.inputs = rest := by simpa using hi
    subst hi'
    simp [hu, readBytes, sentCells]
  | cons t ts =>
    rw [hi, load_issues rfl p k ho]
    rw [runOn_answers t ts as rest _ (by exact hr) (by exact ho) rfl (by simpa using hl) hok, ← hk, hu]
    simp

/-- A phase of reads alone: its bytes are the chip's answers, in order, and nothing is delivered (R90). -/
theorem load_reads_run (txns : List Txn) (p : Phase) (k : State → State) (as : List Answer) (rest : List Stimulus)
    (s : State) (hreads : ∀ t ∈ txns, ∃ a, t = .read a) (hk : ∀ u : State, u.phase = p → phaseDone u = k u)
    (hr : s.running ≠ none) (ho : s.orphan = none) (hl : as.length = txns.length) (hok : ∀ a ∈ as, a.ok = true)
    (hi : s.inputs = as.map .chipAnswer ++ rest) :
    runOn s.inputs (load txns p k s) =
      runOn rest (k { s with
        inputs := rest, phase := p, todo := [], got := as.map Answer.byte, outputs := s.outputs ++ txns.map .bus }) := by
  have hb := readBytes_reads hreads hl
  rw [load_run txns p k as rest s _ hr ho hl hok hi rfl (hk _ rfl), hb.1, hb.2]
  rfl

end Sys2Proof.Machine
end

