-- ==== Sys2Proof/Laws/Step.lean ====
section
/-! SUPPORT. One step, stimulus by stimulus. -/

namespace Sys2Proof.Machine

theorem step_nothing {s : State} (h : s.inputs = []) : step s = .next s := by
  simp only [step, h]

/-- A stimulus that is no host access: the engine's reaction. -/
theorem step_react {s : State} {x : Stimulus} {rest : List Stimulus} (h : s.inputs = x :: rest)
    (hr : ∀ off n, x ≠ .hostRead off n) (hw : ∀ off n v, x ≠ .hostWrite off n v) :
    step s = .next (react x { s with inputs := rest }) := by
  simp only [step, h]
  cases x with
  | hostRead off n => exact absurd rfl (hr off n)
  | hostWrite off n v => exact absurd rfl (hw off n v)
  | _ => rfl

theorem step_answer {s : State} {a : Answer} {rest : List Stimulus} (h : s.inputs = .chipAnswer a :: rest) :
    step s = .next (chipAnswer a { s with inputs := rest }) := by
  simp only [step, h]; rfl

theorem step_tick {s : State} {rest : List Stimulus} (h : s.inputs = .tick :: rest) :
    step s = .next (tickPulse { s with inputs := rest }) := by
  simp only [step, h]; rfl

/-- A host read of the window (R81, R84). -/
theorem step_hostRead {s : State} {off : Nat} {rest : List Stimulus} (h : s.inputs = .hostRead off 4 :: rest)
    (h4 : off % 4 = 0) (hl : off < 128) : step s = .next (hostRead off { s with inputs := rest }) := by
  simp only [step, h, stimulusStep, windowed, accessShape, inWindow, h4, hl, BEq.rfl, Bool.and_self, decide_true, if_true]

/-- A host write of the window (R81, R84). -/
theorem step_hostWrite {s : State} {off : Nat} {v : Word} {rest : List Stimulus}
    (h : s.inputs = .hostWrite off 4 v :: rest) (h4 : off % 4 = 0) (hl : off < 128) :
    step s = hostWrite off v { s with inputs := rest } := by
  simp only [step, h, stimulusStep, windowed, accessShape, inWindow, h4, hl, BEq.rfl, Bool.and_self, decide_true, if_true]

/-- A command word written to CMD out of reset (R310). -/
theorem step_submit {s : State} {w : Word} {rest : List Stimulus} (h : s.inputs = .hostWrite 0x08 4 w :: rest)
    (hr : s.rstN = true) : step s = submitWord w { s with inputs := rest } := by
  rw [step_hostWrite h rfl (by decide)]
  exact if_pos ⟨rfl, hr⟩

/-- A host write of another register out of reset (R84). -/
theorem step_writeReg {s : State} {off : Nat} {v : Word} {rest : List Stimulus}
    (h : s.inputs = .hostWrite off 4 v :: rest) (h4 : off % 4 = 0) (hl : off < 128) (hc : regAt off ≠ .cmd)
    (hr : s.rstN = true) : step s = .next (writeReg (regAt off) v { s with inputs := rest }) := by
  rw [step_hostWrite h h4 hl]
  unfold hostWrite
  rw [if_neg (fun h => hc h.1)]
  exact congrArg Host.Outcome.next (if_pos hr)

/-- What one outstanding transaction's end does: discarded if a reset abandoned it, else the command's (R88, R352). -/
theorem chipAnswer_orphan {s : State} {t : Txn} (a : Answer) (h : s.orphan = some t) :
    chipAnswer a s = issueHead { deliver t a s with orphan := none } := by
  simp only [chipAnswer, h]

theorem chipAnswer_nobody {s : State} (a : Answer) (ho : s.orphan = none) (ht : s.todo = []) : chipAnswer a s = s := by
  simp only [chipAnswer, ho, ht]

/-- The last outstanding transaction of a phase succeeds: its byte is read or its bytes are delivered, and the phase is done. -/
theorem step_answer_last {s : State} {t : Txn} {a : Answer} {rest : List Stimulus}
    (hi : s.inputs = .chipAnswer a :: rest) (ho : s.orphan = none) (ht : s.todo = [t]) (ha : a.ok = true) :
    step s = .next (phaseDone
      { s with
        inputs := rest, todo := [], got := s.got ++ answerBytes t a
        chip := Memory.storeAll (txnCells a.byte t) s.chip }) := by
  rw [step_answer hi, chipAnswer_outstanding (rest := []) a (by exact ho) (by exact ht), transactionEnd_last _ _ ha]
  simp [deliver, arrived, ha]

/-- An outstanding transaction succeeds with more to come: the next one is issued. -/
theorem step_answer_more {s : State} {t u : Txn} {ts : List Txn} {a : Answer} {rest : List Stimulus}
    (hi : s.inputs = .chipAnswer a :: rest) (ho : s.orphan = none) (ht : s.todo = t :: u :: ts) (ha : a.ok = true) :
    step s = .next
      { s with
        inputs := rest, todo := u :: ts, got := s.got ++ answerBytes t a, outputs := s.outputs ++ [.bus u]
        chip := Memory.storeAll (txnCells a.byte t) s.chip } := by
  rw [step_answer hi, chipAnswer_outstanding (rest := u :: ts) a (by exact ho) (by exact ht),
    transactionEnd_more _ _ _ _ ha, issueHead_issues (by exact ho) rfl]
  simp [deliver, arrived, ha, emit]

/-- An outstanding transaction fails: the command ends with TRANSPORT (R13). -/
theorem step_answer_failed {s : State} {t : Txn} {ts : List Txn} {a : Answer} {rest : List Stimulus}
    (hi : s.inputs = .chipAnswer a :: rest) (ho : s.orphan = none) (ht : s.todo = t :: ts) (ha : a.ok = false) :
    step s = .next (busFailure t
      { s with inputs := rest, chip := Memory.storeAll ((txnCells a.byte t).take a.delivered) s.chip }) := by
  rw [step_answer hi, chipAnswer_outstanding (rest := ts) a (by exact ho) (by exact ht), transactionEnd_failed _ _ _ ha]
  simp [deliver, arrived, ha]

/-- Every command of the block has its effect: exec never stops. -/
theorem exec_next (i : Instr) (s : State) : ∃ t, exec i s = .next t := by
  cases i <;> exact ⟨_, rfl⟩

theorem submitWord_next (w : Word) (s : State) : ∃ t, submitWord w s = .next t := by
  unfold submitWord
  split
  · exact exec_next _ _
  · exact ⟨_, rfl⟩

theorem hostWrite_next (off : Nat) (v : Word) (s : State) : ∃ t, hostWrite off v s = .next t := by
  unfold hostWrite
  split
  · exact submitWord_next _ _
  · exact ⟨_, rfl⟩

/-- A run takes its first step, then the others. -/
theorem run_succ {s t : State} (k : Nat) (h : step s = .next t) :
    Sys2Proof.core.run (k + 1) s = Sys2Proof.core.run k t := by
  simp only [Host.Core.run, Sys2Proof.core]
  rw [h]

theorem run_zero (s : State) : Sys2Proof.core.run 0 s = .next s := rfl

/-- A run of j + k steps is a run of k steps from where j steps lead. -/
theorem run_add {s t : State} (j k : Nat) (h : Sys2Proof.core.run j s = .next t) :
    Sys2Proof.core.run (j + k) s = Sys2Proof.core.run k t := by
  induction j generalizing s with
  | zero =>
    cases h
    rw [Nat.zero_add]
  | succ j ih =>
    cases hs : step s with
    | next u =>
      rw [run_succ j hs] at h
      rw [Nat.add_right_comm, run_succ _ hs]
      exact ih h
    | fault r =>
      have : Sys2Proof.core.run (j + 1) s = .fault r := by
        simp only [Host.Core.run, Sys2Proof.core]; rw [hs]
      rw [this] at h; cases h
    | refused r =>
      have : Sys2Proof.core.run (j + 1) s = .refused r := by
        simp only [Host.Core.run, Sys2Proof.core]; rw [hs]
      rw [this] at h; cases h

end Sys2Proof.Machine
end

