-- ==== Sys2Proof/Laws/Accumulators.lean ====
section
/-! SUPPORT. What leaves the accumulators as they are: everything the engine does but an accepted BER window and a TUNE's
entering Programming (R48, R282). -/

namespace Sys2Proof.Machine

/-- ACC_ERR and ACC_CNT. -/
def accs (s : State) : BitVec 64 × BitVec 64 := (s.accErr, s.accCnt)

theorem accs_eq {s t : State} (h : accs t = accs s) : t.accErr = s.accErr ∧ t.accCnt = s.accCnt :=
  ⟨congrArg Prod.fst h, congrArg Prod.snd h⟩

@[simp] theorem complete_accs (r : Vector Word 8) (s : State) : accs (complete r s) = accs s := rfl

@[simp] theorem raiseError_accs (c : ErrCode) (w : Word) (s : State) : accs (raiseError c w s) = accs s := rfl

@[simp] theorem issueHead_accs (s : State) : accs (issueHead s) = accs s := by
  rcases issueHead_cases s with ⟨t, r, -, -, h⟩ | ⟨-, h⟩ <;> rw [h]
  rfl

theorem load_accs (ts : List Txn) (p : Phase) (k : State → State) (s : State) (hk : ∀ u, accs (k u) = accs u) :
    accs (load ts p k s) = accs s := by
  cases ts with
  | nil => rw [load_nil, hk]; rfl
  | cons t r => rw [load_cons, issueHead_accs]; rfl

theorem boundary_accs (st : SeqStep) (k : State → State) (s : State) (hk : ∀ u, accs (k u) = accs u) :
    accs (boundary st k s) = accs s := by
  unfold boundary
  split
  · rfl
  · rw [hk]; rfl

@[simp] theorem postAux_accs (s : State) : accs (postAux s) = accs s := by
  unfold postAux
  split
  · exact boundary_accs _ _ _ fun _ => rfl
  · rfl

@[simp] theorem postAgc_accs (s : State) : accs (postAgc s) = accs s :=
  boundary_accs _ _ _ fun _ => load_accs _ _ _ _ postAux_accs

@[simp] theorem isiSelected_accs (sel : Byte) (s : State) : accs (isiSelected sel s) = accs s := postAgc_accs _

@[simp] theorem isiSelect_accs (sel : Byte) (s : State) : accs (isiSelect sel s) = accs s :=
  load_accs _ _ _ _ fun u => isiSelected_accs sel u

@[simp] theorem isiReadSlot_accs (i cnt : Nat) (first : Byte) (s : State) : accs (isiReadSlot i cnt first s) = accs s :=
  load_accs _ _ _ _ fun _ => rfl

@[simp] theorem isiSlotDone_accs (i cnt : Nat) (first b : Byte) (s : State) : accs (isiSlotDone i cnt first b s) = accs s := by
  unfold isiSlotDone
  simp only
  split_ifs <;> simp

@[simp] theorem isiCountDone_accs (count : Nat) (s : State) : accs (isiCountDone count s) = accs s := by
  unfold isiCountDone
  simp only
  split_ifs <;> simp

@[simp] theorem postIsi_accs (s : State) : accs (postIsi s) = accs s :=
  boundary_accs _ _ _ fun _ => load_accs _ _ _ _ fun _ => isiCountDone_accs _ _

@[simp] theorem invWriteDone_accs (s : State) : accs (invWriteDone s) = accs s := by
  unfold invWriteDone
  split_ifs <;> simp

@[simp] theorem invReadDone_accs (inv : Nat) (s : State) : accs (invReadDone inv s) = accs s :=
  load_accs _ _ _ _ invWriteDone_accs

@[simp] theorem postInv_accs (s : State) : accs (postInv s) = accs s :=
  boundary_accs _ _ _ fun _ => load_accs _ _ _ _ fun _ => invReadDone_accs _ _

@[simp] theorem afterPoll_accs (s : State) : accs (afterPoll s) = accs s := by
  unfold afterPoll
  split_ifs <;> simp

@[simp] theorem pollRead_accs (s : State) : accs (pollRead s) = accs s :=
  boundary_accs _ _ _ fun _ => load_accs _ _ _ _ fun _ => rfl

@[simp] theorem pollWaitStart_accs (s : State) : accs (pollWaitStart s) = accs s := boundary_accs _ _ _ fun _ => rfl

@[simp] theorem pollReadDone_accs (b : Byte) (s : State) : accs (pollReadDone b s) = accs s := by
  unfold pollReadDone
  simp only
  split_ifs
  · exact afterPoll_accs _
  · exact afterPoll_accs _
  · exact afterPoll_accs _
  · exact pollWaitStart_accs _

@[simp] theorem tickPulse_accs (s : State) : accs (tickPulse s) = accs s := by
  unfold tickPulse
  simp only
  split_ifs
  · exact pollRead_accs _
  · rfl
  · rfl

@[simp] theorem stepEffect_accs (st : SeqStep) (s : State) : accs (stepEffect st s) = accs s := by
  unfold stepEffect
  split_ifs <;> rfl

@[simp] theorem programFrom_accs (sts : List SeqStep) (s : State) : accs (programFrom sts s) = accs s := by
  induction sts generalizing s with
  | nil => exact pollRead_accs _
  | cons st sts ih => exact boundary_accs _ _ _ fun _ => load_accs _ _ _ _ fun u => (ih _).trans (stepEffect_accs st u)

/-- CHECK sets both to 0 when it passes, and leaves them when it does not (R205, R206). -/
theorem tuneCheck_accs (s : State) :
    (accs (tuneCheck s) = accs s) ∨
      (accs (tuneCheck s) = (0, 0) ∧ validateRequest s.cfg s.tr = none ∧ ∃ p, makePlan s.cfg s.tr s.plan = (p, none)) := by
  unfold tuneCheck
  split
  · exact .inl rfl
  · next hv =>
    split
    · exact .inl rfl
    · next p hp => exact .inr ⟨programFrom_accs _ _, hv, p, hp⟩

@[simp] theorem busFailure_accs (t : Txn) (s : State) : accs (busFailure t s) = accs s := by
  unfold busFailure
  split_ifs <;> rfl

/-- The window count leaves them, unless the error field has no bytes to read (R273). -/
theorem berWindowDone_accs (d : Dvb) (win : Nat) (s : State) (h : (berErrorField d s.cfg.chipMap).nbytes ≠ 0) :
    accs (berWindowDone d win s) = accs s := by
  unfold berWindowDone
  split_ifs
  · obtain ⟨t, ts, ht⟩ : ∃ t ts, fieldReads (berErrorField d s.cfg.chipMap) = t :: ts := by
      match hf : fieldReads (berErrorField d s.cfg.chipMap) with
      | [] => exact absurd (by simpa using congrArg List.length hf) h
      | t :: ts => exact ⟨t, ts, rfl⟩
    rw [ht, load_cons, issueHead_accs]
    rfl
  · rfl

/-- A phase's end leaves them, unless it reads a BER command's error count (R276). -/
theorem phaseDone_accs (s : State) (he : ∀ d win, s.phase ≠ .berErrors d win)
    (hw : ∀ d, s.phase = .berWindow d → (berErrorField d s.cfg.chipMap).nbytes ≠ 0) : accs (phaseDone s) = accs s := by
  unfold phaseDone
  cases hp : s.phase with
  | idle | computing | pollWait | gain | cnrS1 | cnrS2 | berRestart => rfl
  | program => exact (programFrom_accs _ _).trans (stepEffect_accs _ _)
  | berErrors d win => exact absurd hp (he d win)
  | berWindow d => exact berWindowDone_accs _ _ _ (hw d hp)
  | _ => simp

/-- The end of a transaction leaves them, unless it succeeds and reads a BER command's error count (R276). -/
theorem chipAnswer_accs (a : Answer) (s : State) (he : a.ok = true → ∀ d win, s.phase ≠ .berErrors d win)
    (hw : a.ok = true → ∀ d, s.phase = .berWindow d → (berErrorField d s.cfg.chipMap).nbytes ≠ 0) :
    accs (chipAnswer a s) = accs s := by
  unfold chipAnswer
  split
  · exact issueHead_accs _
  · split
    · rfl
    · unfold transactionEnd
      simp only
      split_ifs with ha
      · split
        · exact phaseDone_accs _ (he ha) (hw ha)
        · exact issueHead_accs _
      · exact busFailure_accs _ _

end Sys2Proof.Machine
end

