-- ==== Sys2Proof/Laws/Sequencer.lean ====
section
/-! SUPPORT. The TUNE sequencer: its checks, its programming, and its polling, each said once. -/

namespace Sys2Proof.Machine

/-! ## CHECK -/

/-- The checks of R203 all pass exactly in these ranges. -/
theorem validateRequest_none (c : Config) (tr : TuneRequest) :
    validateRequest c tr = none ↔
      Config.tuneFreqMinHz ≤ tr.freqHz.toNat ∧ tr.freqHz.toNat ≤ Config.tuneFreqMaxHz ∧
        c.clock.srMin ≤ tr.sr.toNat ∧ tr.sr.toNat ≤ c.clock.srMax ∧ tr.delsys.toNat ≤ 1 ∧ tr.mod.toNat ≤ 4 := by
  unfold validateRequest
  generalize Config.tuneFreqMinHz = lo
  generalize Config.tuneFreqMaxHz = hi
  generalize tr.freqHz.toNat = f
  split_ifs <;> simp <;> omega

/-- A TUNE accepted with chip_ready = 1 and not held begins CHECK (R201, R202). -/
theorem exec_tune_checks {s : State} (hr : s.running = none) (hc : s.chipReady = true)
    (hp : ∀ rest, s.inputs ≠ .computeHold :: rest) :
    exec .tune s = .next (runCommand (tuneCheck
      { accept .tune s with tr := tuneRequest (accept .tune s), lockState := .idle, seq := .check })) := by
  simp only [exec, execTune]
  rw [submit_idle _ _ hr]
  unfold tuneStart
  rw [if_pos (show (accept Instr.tune s).chipReady = true from hc), computePoint_prompt _ (by exact hp)]

/-! ## Programming -/

/-- What follows a programming step is the rest of the list it stands in (R206). -/
theorem stepsAfter_suffix {pre rest : List SeqStep} {st : SeqStep} (h : programmingSteps = pre ++ st :: rest) :
    stepsAfter st = rest := by
  have hl := congrArg List.length h
  simp only [programmingSteps, List.length_cons, List.length_nil, List.length_append] at hl
  have hd := congrArg (List.drop pre.length) h
  rw [List.drop_left] at hd
  have : pre.length < 10 := by omega
  generalize pre.length = n at hd this
  interval_cases n <;>
    (simp only [programmingSteps, List.drop_succ_cons, List.drop_zero] at hd
     injection hd with h1 h2
     rw [← h1, ← h2]
     rfl)

/-- The transactions of some programming steps, in order. -/
def stepsPrograms (sts : List SeqStep) (c : Config) (tr : TuneRequest) (p : TunePlan) : BusProgram :=
  sts.flatMap fun st => stepProgram st c tr p

/-- Polling starts alike wherever programming left seq and the phase. -/
theorem pollStart_fields (s : State) (st : SeqStep) (p : Phase) (t : List Txn) (g : List Byte) (ha : s.abortReq = false) :
    pollStart { s with seq := st, phase := p, todo := t, got := g } = pollStart s := by
  unfold pollStart pollRead
  rw [boundary_open _ _ (by exact ha), boundary_open _ _ (by exact ha)]
  rfl

theorem readBytes_append (xs ys : List Txn) (as bs : List Answer) (h : as.length = xs.length) :
    readBytes (xs ++ ys) (as ++ bs) = readBytes xs as ++ readBytes ys bs := by
  induction xs generalizing as with
  | nil =>
    have : as = [] := by simpa using h
    subst this; rfl
  | cons x xs ih =>
    match as, h with
    | a :: as', h => simp [readBytes, ih as' (by simpa using h)]

theorem sentCells_append (xs ys : List Txn) (as bs : List Answer) (h : as.length = xs.length) :
    sentCells (xs ++ ys) (as ++ bs) = sentCells xs as ++ sentCells ys bs := by
  induction xs generalizing as with
  | nil =>
    have : as = [] := by simpa using h
    subst this; rfl
  | cons x xs ih =>
    match as, h with
    | a :: as', h => simp [sentCells, ih as' (by simpa using h)]

/-- The programming steps from one on, every transaction succeeding and no abort requested: every transaction is issued in
order, P_MCLK writes MCLK_KHZ, and polling starts (R206 to R217). -/
theorem programFrom_run (sts pre : List SeqStep) (hs : programmingSteps = pre ++ sts) (as : List Answer)
    (rest : List Stimulus) (s : State) (hr : s.running ≠ none) (ho : s.orphan = none) (ha : s.abortReq = false)
    (hl : as.length = (stepsPrograms sts s.cfg s.tr s.plan).length) (hok : ∀ a ∈ as, a.ok = true)
    (hi : s.inputs = as.map .chipAnswer ++ rest) :
    runOn s.inputs (programFrom sts s) = runOn rest (pollStart
      { s with
        inputs := rest, mclkKhz := if SeqStep.pMclk ∈ sts then regWord s.plan.mclkKhz else s.mclkKhz
        outputs := s.outputs ++ (stepsPrograms sts s.cfg s.tr s.plan).map .bus
        chip := Memory.storeAll (sentCells (stepsPrograms sts s.cfg s.tr s.plan) as) s.chip }) := by
  induction sts generalizing pre as s with
  | nil =>
    have : as = [] := by simpa [stepsPrograms] using hl
    subst this
    have hi' : s.inputs = rest := by simpa using hi
    subst hi'
    simp [programFrom, stepsPrograms, sentCells]
  | cons st sts ih =>
    have hprog : stepsPrograms (st :: sts) s.cfg s.tr s.plan =
        stepProgram st s.cfg s.tr s.plan ++ stepsPrograms sts s.cfg s.tr s.plan := by simp [stepsPrograms]
    rw [hprog] at hl ⊢
    obtain ⟨as₁, as₂, rfl, hl₁⟩ : ∃ as₁ as₂, as = as₁ ++ as₂ ∧ as₁.length = (stepProgram st s.cfg s.tr s.plan).length :=
      ⟨as.take (stepProgram st s.cfg s.tr s.plan).length, as.drop (stepProgram st s.cfg s.tr s.plan).length,
        (List.take_append_drop _ _).symm, by simp at hl ⊢; omega⟩
    have hl₂ : as₂.length = (stepsPrograms sts s.cfg s.tr s.plan).length := by simp at hl; omega
    have hok₁ : ∀ a ∈ as₁, a.ok = true := fun a h => hok a (by simp [h])
    have hok₂ : ∀ a ∈ as₂, a.ok = true := fun a h => hok a (by simp [h])
    unfold programFrom
    rw [boundary_open st _ ha]
    have hi₁ : s.inputs = as₁.map .chipAnswer ++ (as₂.map .chipAnswer ++ rest) := by simpa using hi
    have hsuf := stepsAfter_suffix (pre := pre) (rest := sts) (st := st) hs
    show runOn ({ s with seq := st } : State).inputs (load (stepProgram st s.cfg s.tr s.plan) .program
      (fun s => programFrom sts (stepEffect st s)) { s with seq := st }) = _
    rw [load_run _ .program _ as₁ (as₂.map .chipAnswer ++ rest) { s with seq := st } _ (by exact hr) (by exact ho) hl₁ hok₁
      (by exact hi₁) rfl (by simp only [phaseDone, programDone, hsuf])]
    have heff : ∀ u : State, stepEffect st u =
        { u with mclkKhz := if st = .pMclk then regWord u.plan.mclkKhz else u.mclkKhz } := by
      intro u; unfold stepEffect; split <;> rfl
    rw [heff]
    have := ih (pre ++ [st]) (by simpa using hs) as₂
      { s with
        seq := st, inputs := as₂.map .chipAnswer ++ rest, phase := .program, todo := []
        got := readBytes (stepProgram st s.cfg s.tr s.plan) as₁
        outputs := s.outputs ++ (stepProgram st s.cfg s.tr s.plan).map .bus
        chip := Memory.storeAll (sentCells (stepProgram st s.cfg s.tr s.plan) as₁) s.chip
        mclkKhz := if st = .pMclk then regWord s.plan.mclkKhz else s.mclkKhz }
      (by exact hr) (by exact ho) (by exact ha) hl₂ hok₂ rfl
    refine this.trans ?_
    congr 1
    refine Eq.trans (pollStart_fields
      { s with
        inputs := rest
        mclkKhz := if SeqStep.pMclk ∈ sts then regWord s.plan.mclkKhz
          else if st = .pMclk then regWord s.plan.mclkKhz else s.mclkKhz
        outputs := (s.outputs ++ (stepProgram st s.cfg s.tr s.plan).map .bus)
          ++ (stepsPrograms sts s.cfg s.tr s.plan).map .bus
        chip := Memory.storeAll (sentCells (stepsPrograms sts s.cfg s.tr s.plan) as₂)
          (Memory.storeAll (sentCells (stepProgram st s.cfg s.tr s.plan) as₁) s.chip) }
      st .program [] (readBytes (stepProgram st s.cfg s.tr s.plan) as₁) (by exact ha)) ?_
    congr 1
    rw [sentCells_append _ _ _ _ hl₁, Memory.storeAll_append]
    simp only [List.map_append, List.append_assoc, List.mem_cons]
    congr 1
    split_ifs <;> simp_all

/-! ## Polling -/

/-- A lock-status byte of DVB-S2 (R219). -/
theorem pollReadDone_s2 (s : State) : pollReadDone 0x8F s =
    afterPoll { s with pollIter := s.pollIter + 1, lastLockByte := 0x8F, lockState := .locked, lockDelsys := true } := rfl

/-- A lock-status byte of DVB-S (R219). -/
theorem pollReadDone_s1 (s : State) : pollReadDone 0xF7 s =
    afterPoll { s with pollIter := s.pollIter + 1, lastLockByte := 0xF7, lockState := .locked, lockDelsys := false } := rfl

/-- The 150th read finds no lock (R220). -/
theorem pollReadDone_timeout {s : State} {b : Byte} (h2 : b ≠ 0x8F) (h1 : b ≠ 0xF7) (hn : s.pollIter + 1 = 150) :
    pollReadDone b s = afterPoll { s with pollIter := 150, lastLockByte := b, lockState := .timedOut } := by
  refine (if_neg (show b ≠ Config.lockS2 from h2)).trans ((if_neg (show b ≠ Config.lockS1 from h1)).trans
    ((if_pos (show s.pollIter + 1 = Config.pollMax from hn)).trans ?_))
  simp only [hn]

/-- An earlier read finds no lock (R218). -/
theorem pollReadDone_waits {s : State} {b : Byte} (h2 : b ≠ 0x8F) (h1 : b ≠ 0xF7) (hn : s.pollIter + 1 ≠ 150) :
    pollReadDone b s = pollWaitStart { s with pollIter := s.pollIter + 1, lastLockByte := b } := by
  exact (if_neg (show b ≠ Config.lockS2 from h2)).trans ((if_neg (show b ≠ Config.lockS1 from h1)).trans
    (if_neg (show s.pollIter + 1 ≠ Config.pollMax from hn)))

/-! ## The stimuli are the step's affair -/

theorem issueHead_inputs (s : State) : (issueHead s).inputs = s.inputs := by
  rcases issueHead_cases s with ⟨t, r, -, -, h⟩ | ⟨-, h⟩ <;> rw [h]
  rfl

theorem load_inputs (ts : List Txn) (p : Phase) (k : State → State) (s : State)
    (hk : ∀ u : State, (k u).inputs = u.inputs) : (load ts p k s).inputs = s.inputs := by
  cases ts with
  | nil => rw [load_nil, hk]
  | cons t r => rw [load_cons, issueHead_inputs]

theorem boundary_inputs (st : SeqStep) (k : State → State) (s : State) (hk : ∀ u : State, (k u).inputs = u.inputs) :
    (boundary st k s).inputs = s.inputs := by
  unfold boundary
  split
  · rfl
  · rw [hk]

theorem stepEffect_inputs (st : SeqStep) (s : State) : (stepEffect st s).inputs = s.inputs := by
  unfold stepEffect
  split <;> rfl

/-- Programming takes no stimulus by itself. -/
theorem programFrom_inputs (sts : List SeqStep) (s : State) : (programFrom sts s).inputs = s.inputs := by
  induction sts generalizing s with
  | nil => exact boundary_inputs _ _ _ fun u => load_inputs _ _ _ _ fun _ => rfl
  | cons st sts ih =>
    exact boundary_inputs _ _ _ fun u => load_inputs _ _ _ _ fun v => (ih _).trans (stepEffect_inputs st v)

/-! ## The end of a TUNE -/

/-- The normal AGC setting, every transaction succeeding and no abort requested (R228). -/
theorem postAgc_run (bs : List Answer) (rest : List Stimulus) (s : State) (hr : s.running ≠ none) (ho : s.orphan = none)
    (ha : s.abortReq = false) (hl : bs.length = s.cfg.programs.agcNormal.length) (hok : ∀ a ∈ bs, a.ok = true)
    (hi : s.inputs = bs.map .chipAnswer ++ rest) :
    runOn s.inputs (postAgc s) = runOn rest (postAux
      { s with
        seq := .postAgc, inputs := rest, phase := .agcNormal, todo := []
        got := readBytes s.cfg.programs.agcNormal bs
        outputs := s.outputs ++ s.cfg.programs.agcNormal.map .bus
        chip := Memory.storeAll (sentCells s.cfg.programs.agcNormal bs) s.chip }) := by
  unfold postAgc
  rw [boundary_open _ _ ha]
  exact load_run s.cfg.programs.agcNormal .agcNormal postAux bs rest { s with seq := .postAgc } _ (by exact hr)
    (by exact ho) hl hok hi rfl rfl

/-- POST_AUX, no abort being requested: aux_set on Locked if fitted, then the results (R229, R232). -/
theorem postAux_ends (s : State) (ha : s.abortReq = false) :
    postAux s = complete (tuneResults s)
      { s with
        outputs := s.outputs ++
          if s.lockState = .locked ∧ s.cfg.options.auxPresent = true then [.auxSet s.cfg.options.auxFreqHz] else [] } := by
  unfold postAux
  split
  · rw [boundary_open _ _ ha]; rfl
  · rw [List.append_nil]; rfl

end Sys2Proof.Machine
end

