-- ==== Sys2Proof/Laws/Estimator.lean ====
section
/-! SUPPORT. Field reads, and a measurement command whose reads all succeed, said once. -/

namespace Sys2Proof.Machine

/-! ## Fields -/

theorem fieldValues_length (fs : List FieldDesc) (bytes : List Byte) : (fieldValues fs bytes).length = fs.length := by
  induction fs generalizing bytes with
  | nil => rfl
  | cons f fs ih => simp [fieldValues, ih]

/-- The first field takes its own bytes, the others the bytes after them (R90). -/
theorem fieldValues_append (f : FieldDesc) (fs : List FieldDesc) (xs ys : List Byte) (h : xs.length = f.nbytes) :
    fieldValues (f :: fs) (xs ++ ys) = fieldValue f xs :: fieldValues fs ys := by
  simp only [fieldValues, List.take_left' h, List.drop_left' h]

theorem fieldsReads_length (fs : List FieldDesc) : (fieldsReads fs).length = (fs.map FieldDesc.nbytes).sum := by
  induction fs with
  | nil => rfl
  | cons f fs ih =>
    have : fieldsReads (f :: fs) = fieldReads f ++ fieldsReads fs := by simp [fieldsReads]
    rw [this, List.length_append, ih, fieldReads_length]
    simp

theorem leValue_foldr (bs : List Byte) : leValue bs = bs.foldr (fun b v => b.toNat + 256 * v) 0 := by
  induction bs with
  | nil => rfl
  | cons b bs ih => simp [leValue, ih]

/-! ## Gain tables -/

/-- The table sum, entry by entry (R252). -/
theorem sum_take_range (row : List Int) (n : Nat) (h : n ≤ row.length) :
    (row.take n).sum = ((List.range n).map (row.getD · 0)).sum := by
  congr 1
  apply List.ext_getElem
  · simp; omega
  · intro i h1 h2
    simp at h1 h2
    simp [h1]

/-! ## Measurement commands -/

/-- A measurement command that begins with the reads of some fields, every read succeeding: the command goes on from the bytes
read, and ends there (R250, R310). -/
theorem submit_reads (i : Instr) (fs : List FieldDesc) (as : List Answer) (rest : List Stimulus) (p : Phase)
    (k : State → State) (s : State) (hid : s.running = none) (hc : s.chipReady = true) (ho : s.orphan = none)
    (hl : as.length = (fieldsReads fs).length) (hok : ∀ a ∈ as, a.ok = true) (hi : s.inputs = as.map .chipAnswer ++ rest)
    (hk : ∀ u : State, u.phase = p → phaseDone u = k u) (hend : ∀ u, (k u).running = none) :
    submit i (measureStart i (load (fieldsReads fs) p k)) s =
      k { accept i s with
        inputs := rest, phase := p, todo := [], got := as.map Answer.byte
        outputs := s.outputs ++ (fieldsReads fs).map .bus } := by
  rw [submit_idle _ _ hid]
  unfold measureStart
  rw [if_pos (show (accept i s).chipReady = true from hc)]
  unfold runCommand
  have main := load_reads_run (fieldsReads fs) p k as rest (accept i s) (fieldsReads_reads fs) hk (Option.some_ne_none _) ho
    hl hok hi
  rw [runOn_idle rest (hend _)] at main
  cases h : fieldsReads fs with
  | nil =>
    rw [h] at main
    rw [load_nil, runOn_idle _ (hend _)] at main ⊢
    exact main
  | cons t r =>
    rw [h] at main
    have e : (load (t :: r) p k (accept i s)).inputs = (accept i s).inputs := by rw [load_cons, issueHead_inputs]
    rw [e]
    exact main

theorem gainBegin_eq : gainBegin = fun s => load (fieldsReads (gainFields s.cfg.chipMap)) .gain gainDone s := rfl

theorem cnrS1Begin_eq : cnrS1Begin = fun s => load (fieldsReads (cnrS1Fields s.cfg.chipMap)) .cnrS1 cnrS1Done s := rfl

theorem cnrS2Begin_eq : cnrS2Begin = fun s => load (fieldsReads (cnrS2Fields s.cfg.chipMap)) .cnrS2 cnrS2Done s := rfl

end Sys2Proof.Machine
end

