-- ==== Sys2Proof/Laws/Keeps.lean ====
section
/-! SUPPORT. What no reaction of the engine changes, in any state whatever: the parameters, rst_n and the stimuli to come; RES
only at a command's end, CTRL, and a command ends, with DONE, but never begins (R36, R41, R94, R310). -/

namespace Sys2Proof.Machine

/-- What every reaction of the engine keeps. -/
structure Keeps (s t : State) : Prop where
  cfg : t.cfg = s.cfg
  rstN : t.rstN = s.rstN
  inputs : t.inputs = s.inputs
  ctrl : t.ctrl = s.ctrl
  ending : (t.running = s.running ∧ t.done = s.done) ∨ (t.running = none ∧ t.done = true)
  res : t.running ≠ none → t.res = s.res

theorem Keeps.running {s t : State} (h : Keeps s t) : t.running = s.running ∨ t.running = none :=
  h.ending.imp And.left And.left

theorem Keeps.refl (s : State) : Keeps s s := ⟨rfl, rfl, rfl, rfl, .inl ⟨rfl, rfl⟩, fun _ => rfl⟩

theorem Keeps.trans {s t u : State} (h : Keeps s t) (k : Keeps t u) : Keeps s u where
  cfg := k.cfg.trans h.cfg
  rstN := k.rstN.trans h.rstN
  inputs := k.inputs.trans h.inputs
  ctrl := k.ctrl.trans h.ctrl
  ending := by
    rcases k.ending with a | a
    · rw [a.1, a.2]; exact h.ending
    · exact .inr a
  res := fun hu => by
    have ht : t.running ≠ none := by
      rcases k.running with a | a
      · rwa [a] at hu
      · exact absurd a hu
    rw [k.res hu, h.res ht]

/-- An update of fields that every reaction may change. -/
theorem Keeps.of_eq {s t : State} (h1 : t.cfg = s.cfg := by rfl) (h2 : t.rstN = s.rstN := by rfl)
    (h3 : t.inputs = s.inputs := by rfl) (h4 : t.running = s.running := by rfl) (h5 : t.res = s.res := by rfl)
    (h6 : t.ctrl = s.ctrl := by rfl) (h7 : t.done = s.done := by rfl) : Keeps s t :=
  ⟨h1, h2, h3, h6, .inl ⟨h4, h7⟩, fun _ => h5⟩

theorem complete_keeps (r : Vector Word 8) (s : State) : Keeps s (complete r s) :=
  ⟨rfl, rfl, rfl, rfl, .inr ⟨rfl, rfl⟩, fun h => absurd rfl h⟩

theorem raiseError_keeps (c : ErrCode) (w : Word) (s : State) : Keeps s (raiseError c w s) :=
  ⟨rfl, rfl, rfl, rfl, .inr ⟨rfl, rfl⟩, fun h => absurd rfl h⟩

theorem issueHead_keeps (s : State) : Keeps s (issueHead s) := by
  rcases issueHead_cases s with ⟨t, r, -, -, h⟩ | ⟨-, h⟩ <;> rw [h]
  · exact .of_eq
  · exact .refl s

theorem load_keeps (ts : List Txn) (p : Phase) (k : State → State) (hk : ∀ u, Keeps u (k u)) (s : State) :
    Keeps s (load ts p k s) := by
  cases ts with
  | nil => exact Keeps.trans (t := { s with phase := p, todo := [], got := [] }) .of_eq (hk _)
  | cons t r => exact Keeps.trans (t := { s with phase := p, todo := t :: r, got := [] }) .of_eq (issueHead_keeps _)

theorem boundary_keeps (st : SeqStep) (k : State → State) (hk : ∀ u, Keeps u (k u)) (s : State) :
    Keeps s (boundary st k s) := by
  unfold boundary
  split
  · exact Keeps.trans (t := { s with lockState := .failed }) .of_eq (raiseError_keeps _ _ _)
  · exact Keeps.trans (t := { s with seq := st }) .of_eq (hk _)

theorem postAux_keeps (s : State) : Keeps s (postAux s) := by
  unfold postAux
  split
  · exact boundary_keeps _ _ (fun u => Keeps.trans (t := emit (.auxSet u.cfg.options.auxFreqHz) u) .of_eq (complete_keeps _ _)) s
  · exact complete_keeps _ s

theorem postAgc_keeps (s : State) : Keeps s (postAgc s) :=
  boundary_keeps _ _ (fun u => load_keeps _ _ _ postAux_keeps u) s

theorem isiSelected_keeps (sel : Byte) (s : State) : Keeps s (isiSelected sel s) :=
  Keeps.trans (t := { s with selIsi := selIsiWord sel }) .of_eq (postAgc_keeps _)

theorem isiSelect_keeps (sel : Byte) (s : State) : Keeps s (isiSelect sel s) :=
  load_keeps _ _ _ (isiSelected_keeps sel) s

theorem isiReadSlot_keeps (i cnt : Nat) (first : Byte) (s : State) : Keeps s (isiReadSlot i cnt first s) :=
  load_keeps _ _ _ (fun u => .refl u) s

theorem isiSlotDone_keeps (i cnt : Nat) (first b : Byte) (s : State) : Keeps s (isiSlotDone i cnt first b s) := by
  unfold isiSlotDone
  simp only
  split
  · exact isiSelect_keeps _ s
  · split
    · exact isiReadSlot_keeps _ _ _ s
    · exact isiSelect_keeps _ s

theorem isiCountDone_keeps (count : Nat) (s : State) : Keeps s (isiCountDone count s) := by
  unfold isiCountDone
  simp only
  split
  · exact postAgc_keeps s
  · exact isiReadSlot_keeps _ _ _ s

theorem postIsi_keeps (s : State) : Keeps s (postIsi s) :=
  boundary_keeps _ _ (fun u => load_keeps _ _ _ (fun v => isiCountDone_keeps _ v) u) s

theorem invWriteDone_keeps (s : State) : Keeps s (invWriteDone s) := by
  unfold invWriteDone
  split
  · exact postAgc_keeps s
  · exact postIsi_keeps s

theorem invReadDone_keeps (inv : Nat) (s : State) : Keeps s (invReadDone inv s) :=
  load_keeps _ _ _ invWriteDone_keeps s

theorem postInv_keeps (s : State) : Keeps s (postInv s) :=
  boundary_keeps _ _ (fun u => load_keeps _ _ _ (fun v => invReadDone_keeps _ v) u) s

theorem afterPoll_keeps (s : State) : Keeps s (afterPoll s) := by
  unfold afterPoll
  split
  · exact postInv_keeps s
  · exact postAgc_keeps s

theorem pollRead_keeps (s : State) : Keeps s (pollRead s) :=
  boundary_keeps _ _ (fun u => load_keeps _ _ _ (fun v => .refl v) u) s

theorem pollWaitStart_keeps (s : State) : Keeps s (pollWaitStart s) := boundary_keeps _ _ (fun _ => .of_eq) s

theorem pollReadDone_keeps (b : Byte) (s : State) : Keeps s (pollReadDone b s) := by
  unfold pollReadDone
  simp only
  split
  · exact Keeps.trans .of_eq (afterPoll_keeps _)
  split
  · exact Keeps.trans .of_eq (afterPoll_keeps _)
  split
  · exact Keeps.trans .of_eq (afterPoll_keeps _)
  · exact Keeps.trans .of_eq (pollWaitStart_keeps _)

theorem tickPulse_keeps (s : State) : Keeps s (tickPulse s) := by
  unfold tickPulse
  split
  · simp only
    split
    · exact Keeps.trans (t := { s with waitLeft := s.waitLeft - 1 }) .of_eq (pollRead_keeps _)
    · exact .of_eq
  · exact .refl s

theorem pollStart_keeps (s : State) : Keeps s (pollStart s) :=
  Keeps.trans (t := { s with lockState := .polling }) .of_eq (pollRead_keeps _)

theorem stepEffect_keeps (st : SeqStep) (s : State) : Keeps s (stepEffect st s) := by
  unfold stepEffect
  split
  · exact .of_eq
  · exact .refl s

theorem programFrom_keeps (sts : List SeqStep) (s : State) : Keeps s (programFrom sts s) := by
  induction sts generalizing s with
  | nil => exact pollStart_keeps s
  | cons st sts ih =>
    exact boundary_keeps _ _ (fun u => load_keeps _ _ _ (fun v => (stepEffect_keeps st v).trans (ih _)) u) s

theorem tuneCheck_keeps (s : State) : Keeps s (tuneCheck s) := by
  unfold tuneCheck
  split
  · exact raiseError_keeps _ _ s
  · split
    · exact Keeps.trans .of_eq (raiseError_keeps _ _ _)
    · exact Keeps.trans .of_eq (programFrom_keeps _ _)

theorem computePoint_running (body : State → State) (hb : ∀ u, Keeps u (body u)) (s : State) :
    (computePoint body s).cfg = s.cfg ∧ ((computePoint body s).running ≠ none → (computePoint body s).res = s.res) := by
  unfold computePoint
  split
  · exact ⟨rfl, fun _ => rfl⟩
  · exact ⟨(hb s).cfg, (hb s).res⟩

theorem measureStart_keeps (i : Instr) (b : State → State) (hb : ∀ u, Keeps u (b u)) (s : State) :
    Keeps s (measureStart i b s) := by
  unfold measureStart
  split
  · exact hb s
  · exact raiseError_keeps _ _ s

theorem gainBegin_keeps (s : State) : Keeps s (gainBegin s) := load_keeps _ _ _ (fun _ => complete_keeps _ _) s

theorem cnrS1Begin_keeps (s : State) : Keeps s (cnrS1Begin s) := load_keeps _ _ _ (fun _ => complete_keeps _ _) s

theorem cnrS2Begin_keeps (s : State) : Keeps s (cnrS2Begin s) := load_keeps _ _ _ (fun _ => complete_keeps _ _) s

theorem berErrorsDone_keeps (d : Dvb) (win err : Nat) (s : State) : Keeps s (berErrorsDone d win err s) :=
  Keeps.trans (t := berAccumulate d win err s) .of_eq (load_keeps _ _ _ (fun _ => complete_keeps _ _) _)

theorem berWindowDone_keeps (d : Dvb) (win : Nat) (s : State) : Keeps s (berWindowDone d win s) := by
  unfold berWindowDone
  split
  · exact load_keeps _ _ _ (fun u => berErrorsDone_keeps _ _ _ u) s
  · exact complete_keeps _ s

theorem berBegin_keeps (d : Dvb) (s : State) : Keeps s (berBegin d s) :=
  load_keeps _ _ _ (fun u => berWindowDone_keeps _ _ u) s

theorem pllBody_keeps (s : State) : Keeps s (pllBody s) := by
  unfold pllBody
  split
  · exact raiseError_keeps _ _ s
  · exact complete_keeps _ s

theorem tsclkBody_keeps (s : State) : Keeps s (tsclkBody s) := by
  unfold tsclkBody
  split
  · exact raiseError_keeps _ _ s
  · exact complete_keeps _ s

theorem computation_keeps (i : Instr) (s : State) : Keeps s (computation i s) := by
  cases i <;>
    first
    | exact complete_keeps _ s
    | exact pllBody_keeps s
    | exact tsclkBody_keeps s
    | exact tuneCheck_keeps s
    | exact .refl s

theorem computeDone_keeps (s : State) : Keeps s (computeDone s) := by
  unfold computeDone
  split
  · exact Keeps.trans (t := { s with phase := .idle }) .of_eq (computation_keeps _ _)
  · exact .refl s

theorem phaseDone_keeps (s : State) : Keeps s (phaseDone s) := by
  unfold phaseDone
  cases s.phase with
  | idle | computing | pollWait => exact .refl s
  | program => exact (stepEffect_keeps _ s).trans (programFrom_keeps _ _)
  | pollRead => exact pollReadDone_keeps _ s
  | invRead => exact invReadDone_keeps _ s
  | invWrite => exact invWriteDone_keeps s
  | isiCount => exact isiCountDone_keeps _ s
  | isiSlot i cnt first => exact isiSlotDone_keeps _ _ _ _ s
  | isiSelect sel => exact isiSelected_keeps _ s
  | agcNormal => exact postAux_keeps s
  | gain | cnrS1 | cnrS2 => exact complete_keeps _ s
  | berWindow d => exact berWindowDone_keeps _ _ s
  | berErrors d win => exact berErrorsDone_keeps _ _ _ s
  | berRestart d win err => exact complete_keeps _ s

theorem busFailure_keeps (t : Txn) (s : State) : Keeps s (busFailure t s) := by
  unfold busFailure
  split
  · exact Keeps.trans (t := { s with lockState := .failed }) .of_eq (raiseError_keeps _ _ _)
  · exact raiseError_keeps _ _ s

theorem transactionEnd_keeps (t : Txn) (rest : List Txn) (a : Answer) (s : State) : Keeps s (transactionEnd t rest a s) := by
  unfold transactionEnd
  split
  · split
    · exact Keeps.trans (t := { s with got := s.got ++ answerBytes t a, todo := [] }) .of_eq (phaseDone_keeps _)
    · next u us =>
      exact Keeps.trans (t := { s with got := s.got ++ answerBytes t a, todo := u :: us }) .of_eq (issueHead_keeps _)
  · exact busFailure_keeps t s

theorem chipAnswer_keeps (a : Answer) (s : State) : Keeps s (chipAnswer a s) := by
  unfold chipAnswer
  split
  · next t _ => exact Keeps.trans (t := { deliver t a s with orphan := none }) .of_eq (issueHead_keeps _)
  · split
    · exact .refl s
    · next t rest _ => exact Keeps.trans (t := deliver t a s) .of_eq (transactionEnd_keeps t rest a _)

/-- Every reaction to one of the engine's own stimuli. -/
theorem react_keeps {x : Stimulus} (hx : x.isEngine = true) (s : State) : Keeps s (react x s) := by
  cases x with
  | chipAnswer a => exact chipAnswer_keeps a s
  | tick => exact tickPulse_keeps s
  | computeHold => exact .refl s
  | computeDone => exact computeDone_keeps s
  | hostRead | hostWrite | chipReadyLevel | rstNLevel => cases hx

/-- A command that runs on keeps all this but the stimuli it takes. -/
theorem runOn_keeps (l : List Stimulus) (s : State) :
    (runOn l s).cfg = s.cfg ∧ (runOn l s).rstN = s.rstN ∧
      ((runOn l s).running = s.running ∨ (runOn l s).running = none) ∧
      ((runOn l s).running ≠ none → (runOn l s).res = s.res) := by
  induction l generalizing s with
  | nil => exact ⟨rfl, rfl, .inl rfl, fun _ => rfl⟩
  | cons x rest ih =>
    unfold runOn
    split
    · next hc =>
      simp only [Bool.and_eq_true] at hc
      have k := react_keeps hc.2 { s with inputs := rest }
      obtain ⟨h1, h2, h3, h4⟩ := ih (react x { s with inputs := rest })
      refine ⟨h1.trans k.cfg, h2.trans k.rstN, ?_, fun hr => ?_⟩
      · rcases h3 with a | a
        · rw [a]; exact k.running
        · exact .inr a
      · have : (react x { s with inputs := rest }).running ≠ none := by
          rcases h3 with a | a
          · rwa [a] at hr
          · exact absurd a hr
        rw [h4 hr, k.res this]
    · exact ⟨rfl, rfl, .inl rfl, fun _ => rfl⟩

end Sys2Proof.Machine
end

