-- ==== Sys2Proof/Laws/Invariant.lean ====
section
/-! SUPPORT. The block's invariant, reaction by reaction: every reaction of the engine leads from a state that meets it to one
that meets it, and moves the lock state and the accumulators only as the rules say. -/

namespace Sys2Proof.Machine

/-- How a reaction of the engine moves the lock state, the accumulators and the command. -/
structure Forward (s t : State) : Prop where
  rstN : t.rstN = s.rstN
  running : t.running = s.running ∨ t.running = none
  lock : t.lockState = s.lockState ∨ lockRank s.lockState < lockRank t.lockState
  other : s.running ≠ some .tune → t.lockState = s.lockState ∧ t.lockDelsys = s.lockDelsys
  acc : s.running ≠ some .berS1 → s.running ≠ some .berS2 →
    (t.accErr = s.accErr ∧ t.accCnt = s.accCnt) ∨ (t.accErr = 0 ∧ t.accCnt = 0 ∧ s.running = some .tune)

theorem Forward.refl (s : State) : Forward s s := ⟨rfl, .inl rfl, .inl rfl, fun _ => ⟨rfl, rfl⟩, fun _ _ => .inl ⟨rfl, rfl⟩⟩

theorem Forward.not_running {s t : State} (h : Forward s t) {i : Instr} (hn : s.running ≠ some i) : t.running ≠ some i := by
  rcases h.running with a | a <;> rw [a]
  · exact hn
  · simp

theorem Forward.trans {s t u : State} (h : Forward s t) (k : Forward t u) : Forward s u where
  rstN := k.rstN.trans h.rstN
  running := by
    rcases k.running with a | a
    · rw [a]; exact h.running
    · exact .inr a
  lock := by
    rcases k.lock with a | a <;> rcases h.lock with b | b
    · exact .inl (a.trans b)
    · exact .inr (by rw [a]; exact b)
    · exact .inr (by rw [b] at a; exact a)
    · exact .inr (by omega)
  other := fun hn =>
    have a := h.other hn
    have b := k.other (h.not_running hn)
    ⟨b.1.trans a.1, b.2.trans a.2⟩
  acc := fun h1 h2 => by
    rcases k.acc (h.not_running h1) (h.not_running h2) with ⟨c, d⟩ | ⟨c, d, e⟩
    · rw [c, d]; exact h.acc h1 h2
    · refine .inr ⟨c, d, ?_⟩
      rcases h.running with a | a <;> rw [a] at e
      · exact e
      · cases e

/-- The bounds of R32, R47, R53, R87 and R221 on a state out of reset. -/
structure Bounds (s : State) : Prop where
  ctrlReserved : s.ctrl &&& 0x7 = s.ctrl
  selIsiReserved : s.selIsi.toNat < 512
  chipCanonical : Memory.wf s.chip = true
  pollBound : s.pollIter.toNat ≤ 150
  waitBound : s.waitLeft.toNat ≤ 20
  outOfReset : s.rstN = true

/-- A reaction leads to a state that meets the invariant, and moved only forward. -/
def Leads (s t : State) : Prop := BlockInv t ∧ Forward s t

theorem Leads.of {s t u : State} (h : Forward s t) (k : Leads t u) : Leads s u := ⟨k.1, h.trans k.2⟩

/-- LockState is not one that only a running TUNE shows (R234). -/
def Settled (l : LockState) : Prop := l ≠ .programming ∧ l ≠ .polling

/-- A state in which no command runs. -/
theorem ended_inv {t : State} (b : Bounds t) (h1 : t.running = none) (h2 : t.phase = .idle) (h3 : t.todo = [])
    (h4 : t.seq = .idle) (h5 : t.abortReq = false)
   (hl : Settled t.lockState) : BlockInv t where
  ctrlReserved := b.ctrlReserved
  selIsiReserved := b.selIsiReserved
  chipCanonical := b.chipCanonical
  phaseFits := by unfold PhaseFits; rw [h2]; exact ⟨h1, h3⟩
  onlyTuneSequences := fun _ => ⟨h4, h5⟩
  busyFlags := fun h => absurd h1 h
  lockTransient := fun h => by
    rcases h with h | h
    · exact absurd h hl.1
    · exact absurd h hl.2
  pollBound := b.pollBound
  pollFresh := fun h => absurd h hl.1
  pollOpen := fun h => absurd h hl.2
  waitBound := b.waitBound
  heldInReset := fun h => by rw [b.outOfReset] at h; cases h

/-- complete() from within the bounds (R311). -/
theorem complete_inv (r) {s : State} (b : Bounds s) (hl : Settled s.lockState) : Leads s (complete r s) :=
  ⟨ended_inv ⟨b.1, b.2, b.3, b.4, b.5, b.6⟩ rfl rfl rfl rfl rfl hl,
      ⟨rfl, .inr rfl, .inl rfl, fun _ => ⟨rfl, rfl⟩, fun _ _ => .inl ⟨rfl, rfl⟩⟩⟩

/-- raise Error from within the bounds (R312). -/
theorem raise_inv (c w) {s : State} (b : Bounds s) (hl : Settled s.lockState) : Leads s (raiseError c w s) :=
  ⟨ended_inv ⟨b.1, b.2, b.3, b.4, b.5, b.6⟩ rfl rfl rfl rfl rfl hl,
      ⟨rfl, .inr rfl, .inl rfl, fun _ => ⟨rfl, rfl⟩, fun _ _ => .inl ⟨rfl, rfl⟩⟩⟩

/-- Within a TUNE whose LockState is l. -/
structure InTune (s : State) (l : LockState) : Prop where
  base : Bounds s
  done : s.done = false
  err : s.errCode = .noError
  run : s.running = some .tune
  lk : s.lockState = l
  pollOpen : l = .polling → s.pollIter.toNat < 150
  pollFresh : l = .programming → s.pollIter = 0

theorem Bounds.same {s t : State} (b : Bounds s) (h1 : t.ctrl = s.ctrl := by rfl) (h2 : t.selIsi = s.selIsi := by rfl)
    (h3 : t.chip = s.chip := by rfl)
  (h4 : t.pollIter = s.pollIter := by rfl) (h5 : t.waitLeft = s.waitLeft := by rfl)
      (h6 : t.rstN = s.rstN := by rfl) : Bounds t :=
  ⟨by rw [h1]; exact b.1, by rw [h2]; exact b.2, by rw [h3]; exact b.3, by rw [h4]; exact b.4, by rw [h5]; exact b.5, by
      rw [h6]; exact b.6⟩

/-- An update that touches neither the lock state nor the accumulators. -/
theorem forward_same {s t : State} (h1 : t.rstN = s.rstN := by rfl) (h2 : t.running = s.running := by rfl)
    (h3 : t.lockState = s.lockState := by rfl) (h4 : t.lockDelsys = s.lockDelsys := by rfl)
    (h5 : t.accErr = s.accErr := by rfl) (h6 : t.accCnt = s.accCnt := by rfl) : Forward s t :=
  ⟨h1, .inl h2, .inl h3, fun _ => ⟨h3, h4⟩, fun _ _ => .inl ⟨h5, h6⟩⟩

/-- An update of a TUNE that moves its lock state. -/
theorem forward_lock {s t : State} (hr : s.running = some .tune)
    (hl : t.lockState = s.lockState ∨ lockRank s.lockState < lockRank t.lockState) (h1 : t.rstN = s.rstN := by rfl)
    (h2 : t.running = s.running := by rfl) (h5 : t.accErr = s.accErr := by rfl) (h6 : t.accCnt = s.accCnt := by rfl) :
    Forward s t :=
  ⟨h1, .inl h2, hl, fun hn => absurd hr hn, fun _ _ => .inl ⟨h5, h6⟩⟩

theorem InTune.same {s t : State} {l} (h : InTune s l) (b : Bounds t) (h2 : t.done = s.done := by rfl)
    (h3 : t.errCode = s.errCode := by rfl) (h4 : t.running = s.running := by rfl)
   (h5 : t.lockState = s.lockState := by rfl) (h6 : t.pollIter = s.pollIter := by rfl) : InTune t l :=
  ⟨b, by rw [h2]; exact h.done, by rw [h3]; exact h.err, by rw [h4]; exact h.run, by rw [h5]; exact h.lk, by
      rw [h6]; exact h.pollOpen, by rw [h6]; exact h.pollFresh⟩

theorem failed_last (s : State) : lockRank s.lockState < lockRank .failed ∨ s.lockState = .failed := by
  cases s.lockState <;> simp [lockRank]

/-- A step boundary: the abort ends the TUNE Failed, else its step decides (R231). -/
theorem boundary_inv (st : SeqStep) (k : State → State) {s : State} {l} (h : InTune s l)
   (hk : InTune { s with seq := st } l → Leads { s with seq := st } (k { s with seq := st })) : Leads s
       (boundary st k s) := by
  unfold boundary
  split
  · refine Leads.of (t := { s with lockState := .failed })
      (forward_lock h.run (by rcases failed_last s with h | h; exact .inr h; exact .inl h.symm))
      (raise_inv _ _ h.base.same ⟨by simp, by simp⟩)
  · exact Leads.of (t := { s with seq := st }) forward_same (hk (h.same h.base.same))

theorem issueHead_forward (s : State) : Forward s (issueHead s) := by
  rcases issueHead_cases s with ⟨t, r, -, -, h⟩ | ⟨-, h⟩ <;> rw [h]
  · exact forward_same
  · exact Forward.refl s

theorem issueHead_inv {s : State} (hr : s.rstN = true) (h : BlockInv s) : BlockInv (issueHead s) := by
  rcases issueHead_cases s with ⟨t, r, -, -, e⟩ | ⟨-, e⟩ <;> rw [e]
  · exact ⟨h.1, h.2, h.3, h.4, h.5, h.6, h.7, h.8, h.9, h.10, h.11, fun h => by simp [hr] at h⟩
  · exact h

/-- Beginning a phase: with no transactions what follows decides, else the phase must fit. -/
theorem load_inv (ts : List Txn) (p : Phase) (k : State → State) {s : State}
   (hk : Leads s (k { s with phase := p, todo := [], got := [] }))
   (hinv : ∀ t r, ts = t :: r → BlockInv { s with phase := p, todo := t :: r, got := [] }) (hr : s.rstN = true) : Leads s
       (load ts p k s) := by
  cases ts with
  | nil => exact hk
  | cons t r =>
    rw [load_cons]
    exact ⟨issueHead_inv hr (hinv t r rfl), Forward.trans
        (t := { s with phase := p, todo := t :: r, got := [] }) forward_same (issueHead_forward _)⟩

/-- A TUNE standing where its rules can put it. -/
theorem inTune_inv {s : State} {l} (h : InTune s l) (hp : PhaseFits s) : BlockInv s where
  ctrlReserved := h.base.ctrlReserved
  selIsiReserved := h.base.selIsiReserved
  chipCanonical := h.base.chipCanonical
  phaseFits := hp
  onlyTuneSequences := fun k => absurd h.run k
  busyFlags := fun _ => ⟨h.done, h.err⟩
  lockTransient := fun _ => h.run
  pollBound := h.base.pollBound
  pollFresh := fun k => h.pollFresh (by rw [← h.lk, k])
  pollOpen := fun k => h.pollOpen (by rw [← h.lk, k])
  waitBound := h.base.waitBound
  heldInReset := fun k => by rw [h.base.outOfReset] at k; cases k

theorem InTune.phase {s : State} {l} (h : InTune s l) (p t g) : InTune { s with phase := p, todo := t, got := g } l :=
    h.same h.base.same

/-- Beginning a phase of a TUNE. -/
theorem load_tune (ts : List Txn) (p : Phase) (k : State → State) {s : State} {l} (h : InTune s l)
   (hk : InTune { s with phase := p, todo := [], got := [] } l →
       Leads { s with phase := p, todo := [], got := [] } (k { s with phase := p, todo := [], got := [] }))
   (hfit : ∀ t r, PhaseFits { s with phase := p, todo := t :: r, got := [] }) : Leads s (load ts p k s) :=
  load_inv ts p k (Leads.of forward_same (hk (h.phase p [] [])))
      (fun t r _ => inTune_inv (h.phase _ _ _) (hfit t r)) h.base.outOfReset

/-- Beginning a phase of a TUNE that has one transaction. -/
theorem load_tune_one (t : Txn) (p : Phase) (k : State → State) {s : State} {l} (h : InTune s l)
   (hfit : PhaseFits { s with phase := p, todo := [t], got := [] }) : Leads s (load [t] p k s) := by
  rw [load_cons]
  exact ⟨issueHead_inv h.base.outOfReset (inTune_inv (h.phase _ _ _) hfit),
      Forward.trans (t := { s with phase := p, todo := [t], got := [] }) forward_same (issueHead_forward _)⟩

theorem postAux_inv {s : State} {l} (h : InTune s l) (hl : l = .locked ∨ l = .timedOut) : Leads s (postAux s) := by
  have nt : Settled l := by rcases hl with rfl | rfl <;> exact ⟨by simp, by simp⟩
  unfold postAux
  split
  · refine boundary_inv _ _ h fun h => ?_
    exact Leads.of (t := emit (.auxSet s.cfg.options.auxFreqHz) { s with seq := .postAux }) forward_same
      (complete_inv _ h.base.same (by have := h.lk; simp only at this; simp only [emit_lockState]; rw [this]; exact nt))
  · exact complete_inv _ h.base (by rw [h.lk]; exact nt)

theorem postAgc_inv {s : State} {l} (h : InTune s l) (hl : l = .locked ∨ l = .timedOut) : Leads s (postAgc s) := by
  refine boundary_inv _ _ h fun h => load_tune _ _ _ h (fun hu => postAux_inv hu hl) fun t r => ?_
  exact ⟨h.run, by have := h.lk; simp only at this; rcases hl with rfl | rfl <;> simp [this], rfl, by simp⟩

theorem selIsi_lt (b : Byte) : (selIsiWord b).toNat < 512 := by
  unfold selIsiWord; rw [BitVec.toNat_append, Nat.shiftLeft_eq]
  have := b.isLt
  have h2 : (1 : BitVec 24).toNat = 1 := rfl
  rw [h2]
  exact Nat.or_lt_two_pow (n := 9) (by omega) (by omega)

theorem isiSelected_inv (sel) {s : State} (h : InTune s .locked) : Leads s (isiSelected sel s) :=
  Leads.of (t := { s with selIsi := selIsiWord sel }) forward_same
    (postAgc_inv (h.same ⟨h.base.1, selIsi_lt sel, h.base.3, h.base.4, h.base.5, h.base.6⟩) (.inl rfl))

theorem isiSelect_inv (sel) {s : State} (h : InTune s .locked) (hs : s.seq = .postIsi) : Leads s (isiSelect sel s) :=
  load_tune_one _ _ _ h ⟨h.run, h.lk, hs, by simp⟩

theorem isiReadSlot_inv (i cnt f) {s : State} (h : InTune s .locked) (hs : s.seq = .postIsi) : Leads s
    (isiReadSlot i cnt f s) :=
  load_tune_one _ _ _ h ⟨h.run, h.lk, hs, by simp⟩

theorem isiSlotDone_inv (i cnt f b) {s : State} (h : InTune s .locked) (hs : s.seq = .postIsi) : Leads s
    (isiSlotDone i cnt f b s) := by
  unfold isiSlotDone; simp only
  split
  · exact isiSelect_inv _ h hs
  · split
    · exact isiReadSlot_inv _ _ _ h hs
    · exact isiSelect_inv _ h hs

theorem isiCountDone_inv (n) {s : State} (h : InTune s .locked) (hs : s.seq = .postIsi) : Leads s (isiCountDone n s) := by
  unfold isiCountDone; simp only
  split
  · exact postAgc_inv h (.inl rfl)
  · exact isiReadSlot_inv _ _ _ h hs

theorem postIsi_inv {s : State} (h : InTune s .locked) : Leads s (postIsi s) :=
  boundary_inv _ _ h fun h => load_tune _ _ _ h (fun h => isiCountDone_inv _ h rfl) fun t r => ⟨h.run, h.lk, rfl, by simp⟩

theorem invWriteDone_inv {s : State} (h : InTune s .locked) : Leads s (invWriteDone s) := by
  unfold invWriteDone; split
  · exact postAgc_inv h (.inl rfl)
  · exact postIsi_inv h

theorem invReadDone_inv (n) {s : State} (h : InTune s .locked) (hs : s.seq = .postInv) : Leads s (invReadDone n s) :=
  load_tune_one _ _ _ h ⟨h.run, h.lk, hs, by simp⟩

theorem postInv_inv {s : State} (h : InTune s .locked) : Leads s (postInv s) :=
  boundary_inv _ _ h fun h => load_tune _ _ _ h (fun h => invReadDone_inv _ h rfl) fun t r => ⟨h.run, h.lk, rfl, by simp⟩

theorem afterPoll_inv {s : State} {l} (h : InTune s l) (hl : l = .locked ∨ l = .timedOut) : Leads s (afterPoll s) := by
  unfold afterPoll; split
  · rename_i hc
    have : l = .locked := by rw [← h.lk]; exact hc.1
    subst this; exact postInv_inv h
  · exact postAgc_inv h hl

theorem pollRead_inv {s : State} (h : InTune s .polling) : Leads s (pollRead s) :=
  boundary_inv _ _ h fun h => load_tune_one _ _ _ h ⟨h.run, h.lk, rfl, by simp⟩

theorem pollWaitStart_inv {s : State} (h : InTune s .polling) : Leads s (pollWaitStart s) :=
  boundary_inv _ _ h fun h => ⟨inTune_inv (h.same ⟨h.base.1, h.base.2, h.base.3, h.base.4,
      show Config.pollTicks.toNat ≤ 20 by decide, h.base.6⟩)
      ⟨h.run, h.lk, rfl, rfl, show 0 < Config.pollTicks.toNat by decide⟩, forward_same⟩

theorem succ_toNat {x : Byte} (h : x.toNat < 150) : (x + 1).toNat = x.toNat + 1 := by simp; omega

theorem pollReadDone_inv (b) {s : State} (h : InTune s .polling) : Leads s (pollReadDone b s) := by
  have hp := h.pollOpen rfl
  have e := succ_toNat hp
  have hb : ∀ t : State, t.ctrl = s.ctrl → t.selIsi = s.selIsi → t.chip = s.chip → t.pollIter = s.pollIter + 1 →
      t.waitLeft = s.waitLeft → t.rstN = s.rstN → Bounds t :=
    fun t h1 h2 h3 h4 h5 h6 => ⟨by rw [h1]; exact h.base.1, by rw [h2]; exact h.base.2, by rw [h3]; exact h.base.3, by
        rw [h4]; omega, by rw [h5]; exact h.base.5, by rw [h6]; exact h.base.6⟩
  have hrank : ∀ l, l = .locked ∨ l = .timedOut → lockRank s.lockState < lockRank l := by
    intro l hl; rw [h.lk]; rcases hl with rfl | rfl <;> simp [lockRank]
  unfold pollReadDone; simp only
  split
  · refine Leads.of (forward_lock h.run
      (t := { s with pollIter := s.pollIter + 1, lastLockByte := b, lockState := .locked, lockDelsys := true })
      (.inr (hrank _ (.inl rfl)))) (afterPoll_inv ⟨hb _ rfl rfl rfl rfl rfl rfl, h.done, h.err, h.run, rfl, by simp, by
      simp⟩ (.inl rfl))
  split
  · refine Leads.of (forward_lock h.run
      (t := { s with pollIter := s.pollIter + 1, lastLockByte := b, lockState := .locked, lockDelsys := false })
      (.inr (hrank _ (.inl rfl)))) (afterPoll_inv ⟨hb _ rfl rfl rfl rfl rfl rfl, h.done, h.err, h.run, rfl, by simp, by
      simp⟩ (.inl rfl))
  split
  · refine Leads.of (forward_lock h.run
      (t := { s with pollIter := s.pollIter + 1, lastLockByte := b, lockState := .timedOut })
      (.inr (hrank _ (.inr rfl)))) (afterPoll_inv ⟨hb _ rfl rfl rfl rfl rfl rfl, h.done, h.err, h.run, rfl, by simp, by
      simp⟩ (.inr rfl))
  · rename_i hne
    refine Leads.of (forward_same (t := { s with pollIter := s.pollIter + 1, lastLockByte := b }))
        (pollWaitStart_inv ⟨hb _ rfl rfl rfl rfl rfl rfl, h.done, h.err, h.run, h.lk, fun _ => ?_, by simp⟩)
    have : (s.pollIter + 1).toNat ≠ 150 := fun hc => hne (BitVec.eq_of_toNat_eq hc)
    show (s.pollIter + 1).toNat < 150
    omega

theorem pollStart_inv {s : State} (h : InTune s .programming) (hp : s.pollIter.toNat < 150) : Leads s (pollStart s) :=
  Leads.of (t := { s with lockState := .polling }) (forward_lock h.run (.inr (by rw [h.lk]; simp [lockRank])))
      (pollRead_inv ⟨h.base.same, h.done, h.err, h.run, rfl, fun _ => hp, by simp⟩)

theorem stepEffect_inTune (st) {s : State} {l} (h : InTune s l) : InTune (stepEffect st s) l ∧
    Forward s (stepEffect st s) ∧ (stepEffect st s).pollIter = s.pollIter := by
  unfold stepEffect; split
  · exact ⟨h.same h.base.same, forward_same, rfl⟩
  · exact ⟨h, Forward.refl s, rfl⟩

theorem programFrom_inv (sts : List SeqStep) (hs : ∀ x ∈ sts, x ∈ programmingSteps) {s : State}
    (h : InTune s .programming) (hp : s.pollIter.toNat < 150) : Leads s (programFrom sts s) := by
  induction sts generalizing s with
  | nil => exact pollStart_inv h hp
  | cons st sts ih =>
    refine boundary_inv _ _ h fun h => load_tune _ _ _ h (fun h => ?_) fun t r => ⟨h.run, h.lk, hs st (by simp), by simp⟩
    have := stepEffect_inTune st h
    exact Leads.of this.2.1 (ih (fun x hx => hs x (by simp [hx])) this.1 (by rw [this.2.2]; exact hp))

theorem stepsAfter_mem (st) : ∀ x ∈ stepsAfter st, x ∈ programmingSteps := by cases st <;> decide

/-- Within a command i other than TUNE. -/
structure InOther (s : State) (i : Instr) : Prop where
  base : Bounds s
  done : s.done = false
  err : s.errCode = .noError
  run : s.running = some i
  notTune : i ≠ .tune
  seq : s.seq = .idle
  ab : s.abortReq = false
  lk : Settled s.lockState

theorem InOther.same {s t : State} {i} (h : InOther s i) (b : Bounds t) (h2 : t.done = s.done := by rfl)
    (h3 : t.errCode = s.errCode := by rfl) (h4 : t.running = s.running := by rfl)
   (h5 : t.lockState = s.lockState := by rfl) (h6 : t.seq = s.seq := by rfl)
       (h7 : t.abortReq = s.abortReq := by rfl) : InOther t i :=
  ⟨b, by rw [h2]; exact h.done, by rw [h3]; exact h.err, by rw [h4]; exact h.run, h.notTune, by rw [h6]; exact h.seq, by
      rw [h7]; exact h.ab, by rw [h5]; exact h.lk⟩

/-- Another command standing where its rules can put it. -/
theorem inOther_inv {s : State} {i} (h : InOther s i) (hp : PhaseFits s) : BlockInv s where
  ctrlReserved := h.base.ctrlReserved
  selIsiReserved := h.base.selIsiReserved
  chipCanonical := h.base.chipCanonical
  phaseFits := hp
  onlyTuneSequences := fun _ => ⟨h.seq, h.ab⟩
  busyFlags := fun _ => ⟨h.done, h.err⟩
  lockTransient := fun k => k.elim (fun k => absurd k h.lk.1) (fun k => absurd k h.lk.2)
  pollBound := h.base.pollBound
  pollFresh := fun k => absurd k h.lk.1
  pollOpen := fun k => absurd k h.lk.2
  waitBound := h.base.waitBound
  heldInReset := fun k => by rw [h.base.outOfReset] at k; cases k

/-- Beginning a phase of another command. -/
theorem load_other (ts : List Txn) (p : Phase) (k : State → State) {s : State} {i} (h : InOther s i)
   (hk : InOther { s with phase := p, todo := [], got := [] } i →
       Leads { s with phase := p, todo := [], got := [] } (k { s with phase := p, todo := [], got := [] }))
   (hfit : ∀ t r, PhaseFits { s with phase := p, todo := t :: r, got := [] }) : Leads s (load ts p k s) :=
  load_inv ts p k (Leads.of forward_same (hk (h.same h.base.same)))
      (fun t r _ => inOther_inv (h.same h.base.same) (hfit t r)) h.base.outOfReset

theorem complete_other (r) {s : State} {i} (h : InOther s i) : Leads s (complete r s) := complete_inv r h.base h.lk

theorem raise_other (c w) {s : State} {i} (h : InOther s i) : Leads s (raiseError c w s) := raise_inv c w h.base h.lk

/-- The BER command of a delivery system (R270). -/
def berCommand : Dvb → Instr | .s1 => .berS1 | .s2 => .berS2

theorem berCommand_eq {s : State} {d : Dvb} : s.running = some (berCommand d) →
    s.running = some (match d with | .s1 => Instr.berS1 | .s2 => .berS2) := by intro h; cases d <;> exact h

theorem berErrorsDone_inv (d w e) {s : State} (h : InOther s (berCommand d)) : Leads s (berErrorsDone d w e s) := by
  refine Leads.of (t := berAccumulate d w e s) ⟨rfl, .inl rfl, .inl rfl, fun _ => ⟨rfl, rfl⟩, fun h1 h2 => ?_⟩
      (load_other _ _ _ (h.same h.base.same) (fun h => complete_other _ h) fun t r => ⟨berCommand_eq h.run, by simp⟩)
  have := h.run
  cases d <;> exact absurd this (by assumption)

theorem berWindowDone_inv (d w) {s : State} (h : InOther s (berCommand d)) : Leads s (berWindowDone d w s) := by
  unfold berWindowDone; split
  · exact load_other _ _ _ h (fun h => berErrorsDone_inv _ _ _ h) fun t r => ⟨berCommand_eq h.run, by simp⟩
  · exact complete_other _ h

theorem berBegin_inv (d) {s : State} (h : InOther s (berCommand d)) : Leads s (berBegin d s) :=
  load_other _ _ _ h (fun h => berWindowDone_inv _ _ h) fun t r => ⟨berCommand_eq h.run, by simp⟩

/-- The five commands that only compute. -/
def pureCommands : List Instr := [.gold, .pll, .mclk, .tsclk, .lpf]

theorem pureBody_inv {i s} (h : InOther s i) (hi : i ∈ pureCommands) : Leads s (computation i s) := by
  simp only [pureCommands, List.mem_cons, List.not_mem_nil, or_false] at hi
  rcases hi with rfl | rfl | rfl | rfl | rfl <;> simp only [computation]
  · exact complete_other _ h
  · unfold pllBody; split <;> first | exact raise_other _ _ h | exact complete_other _ h
  · exact complete_other _ h
  · unfold tsclkBody; split <;> first | exact raise_other _ _ h | exact complete_other _ h
  · exact complete_other _ h

theorem tuneCheck_inv {s : State} (h : InTune s .idle) : Leads s (tuneCheck s) := by
  have nt : Settled s.lockState := by rw [h.lk]; exact ⟨by simp, by simp⟩
  unfold tuneCheck; split
  · exact raise_inv _ _ h.base nt
  · split
    · rename_i p c _
      exact Leads.of (t := { s with plan := p }) forward_same (raise_inv _ _ h.base.same nt)
    · rename_i p _
      refine Leads.of (t :=
          { s with
            plan := p, lockState := .programming, accErr := 0, accCnt := 0, pollIter := 0, lastLockByte := 0, selIsi := 0 })
        ⟨rfl, .inl rfl, .inr (by rw [h.lk]; simp [lockRank]), fun hn => absurd h.run hn, fun _ _ => .inr ⟨rfl, rfl, h.run⟩⟩ ?_
      exact programFrom_inv _ (fun x h => h) ⟨⟨h.base.1, show (0 : Word).toNat < 512 by decide, h.base.3,
          show (0 : Byte).toNat ≤ 150 by decide, h.base.5, h.base.6⟩, h.done, h.err, h.run, rfl, by simp, fun _ => rfl⟩
          (show (0 : Byte).toNat < 150 by decide)

theorem BlockInv.bounds {s : State} (h : BlockInv s) (hr : s.rstN = true) : Bounds s := ⟨h.1, h.2, h.3, h.8, h.11, hr⟩

theorem BlockInv.inTune {s : State} (h : BlockInv s) (hr : s.rstN = true)
    (ht : s.running = some .tune) : InTune s s.lockState :=
  have hf := h.busyFlags (by rw [ht]; exact Option.some_ne_none _)
  ⟨h.bounds hr, hf.1, hf.2, ht, rfl, h.pollOpen, h.pollFresh⟩

theorem BlockInv.inOther {s : State} (h : BlockInv s) (hr : s.rstN = true) {i} (ht : s.running = some i)
    (hi : i ≠ .tune) : InOther s i :=
  have hf := h.busyFlags (by rw [ht]; exact Option.some_ne_none _)
  have hn : s.running ≠ some .tune := by rw [ht]; simpa using hi
  ⟨h.bounds hr, hf.1, hf.2, ht, hi, (h.onlyTuneSequences hn).1, (h.onlyTuneSequences hn).2,
      ⟨fun k => hn (h.lockTransient (.inl k)), fun k => hn (h.lockTransient (.inr k))⟩⟩

/-- What follows a phase keeps the invariant. -/
theorem phaseDone_inv {s : State} (h : BlockInv s) (hr : s.rstN = true) (hne : s.todo ≠ []) (c : Memory)
    (hc : Memory.wf c = true) (g) :
    Leads { s with todo := [], got := g, chip := c } (phaseDone { s with todo := [], got := g, chip := c }) := by
  have hf := h.phaseFits
  have tb : ∀ {l}, InTune s l → InTune { s with todo := [], got := g, chip := c } l :=
      fun t => t.same ⟨t.base.1, t.base.2, hc, t.base.4, t.base.5, t.base.6⟩
  have mb : ∀ {i}, InOther s i → InOther { s with todo := [], got := g, chip := c } i :=
      fun t => t.same ⟨t.base.1, t.base.2, hc, t.base.4, t.base.5, t.base.6⟩
  have hphase : ({ s with todo := [], got := g, chip := c } : State).phase = s.phase := rfl
  have hseq : ({ s with todo := [], got := g, chip := c } : State).seq = s.seq := rfl
  have hpi : ({ s with todo := [], got := g, chip := c } : State).pollIter = s.pollIter := rfl
  generalize ({ s with todo := [], got := g, chip := c } : State) = u at *
  unfold PhaseFits at hf
  unfold phaseDone
  rw [hphase]
  cases hp : s.phase <;> rw [hp] at hf <;> simp only at hf ⊢
  case idle => exact absurd hf.2 hne
  case computing => exact absurd hf.1 hne
  case program =>
    have t := h.inTune hr hf.1
    rw [hf.2.1] at t
    have e := stepEffect_inTune u.seq (tb t)
    unfold programDone
    refine Leads.of e.2.1 (programFrom_inv _ (stepsAfter_mem _) e.1 ?_)
    rw [e.2.2, hpi]
    rw [t.pollFresh rfl]; decide
  case pollRead => have t := h.inTune hr hf.1; rw [hf.2.1] at t; exact pollReadDone_inv _ (tb t)
  case pollWait => exact absurd hf.2.2.2.1 hne
  case invRead => have t := h.inTune hr hf.1; rw [hf.2.1] at t; exact invReadDone_inv _ (tb t) (hseq.trans hf.2.2.1)
  case invWrite => have t := h.inTune hr hf.1; rw [hf.2.1] at t; exact invWriteDone_inv (tb t)
  case isiCount => have t := h.inTune hr hf.1; rw [hf.2.1] at t; exact isiCountDone_inv _ (tb t) (hseq.trans hf.2.2.1)
  case isiSlot => have t := h.inTune hr hf.1; rw [hf.2.1] at t; exact isiSlotDone_inv _ _ _ _ (tb t) (hseq.trans hf.2.2.1)
  case isiSelect => have t := h.inTune hr hf.1; rw [hf.2.1] at t; exact isiSelected_inv _ (tb t)
  case agcNormal => have t := h.inTune hr hf.1; exact postAux_inv (tb t) hf.2.1
  case gain => exact complete_other _ (mb (h.inOther hr hf.1 (by simp)))
  case cnrS1 => exact complete_other _ (mb (h.inOther hr hf.1 (by simp)))
  case cnrS2 => exact complete_other _ (mb (h.inOther hr hf.1 (by simp)))
  case berWindow d =>
    exact berWindowDone_inv d _ (mb
      (h.inOther hr (i := berCommand d) (by rw [hf.1]; cases d <;> rfl) (by cases d <;> simp [berCommand])))
  case berErrors d w =>
    exact berErrorsDone_inv d _ _
      (mb (h.inOther hr (i := berCommand d) (by rw [hf.1]; cases d <;> rfl) (by cases d <;> simp [berCommand])))
  case berRestart d w e =>
    exact complete_other _ (mb
      (h.inOther hr (i := berCommand d) (by rw [hf.1]; cases d <;> rfl) (by cases d <;> simp [berCommand])))

/-- The invariant looks at these fields only. -/
theorem BlockInv.fields {s t : State} (h : BlockInv s) (hr : t.rstN = true) (hc : Memory.wf t.chip = true)
    (h1 : t.ctrl = s.ctrl := by rfl) (h2 : t.selIsi = s.selIsi := by rfl) (h3 : t.phase = s.phase := by rfl)
    (h4 : t.running = s.running := by rfl) (h5 : t.seq = s.seq := by rfl) (h6 : t.lockState = s.lockState := by rfl)
    (h7 : t.abortReq = s.abortReq := by rfl) (h8 : t.done = s.done := by rfl) (h9 : t.errCode = s.errCode := by rfl)
    (h10 : t.pollIter = s.pollIter := by rfl) (h11 : t.waitLeft = s.waitLeft := by rfl)
    (h12 : t.todo = s.todo := by rfl) : BlockInv t where
  ctrlReserved := by rw [h1]; exact h.ctrlReserved
  selIsiReserved := by rw [h2]; exact h.selIsiReserved
  chipCanonical := hc
  phaseFits := by
    have := h.phaseFits
    unfold PhaseFits at this ⊢
    rw [h3, h4, h5, h6, h11, h12]
    exact this
  onlyTuneSequences := by rw [h4, h5, h7]; exact h.onlyTuneSequences
  busyFlags := by rw [h4, h8, h9]; exact h.busyFlags
  lockTransient := by rw [h4, h6]; exact h.lockTransient
  pollBound := by rw [h10]; exact h.pollBound
  pollFresh := by rw [h6, h10]; exact h.pollFresh
  pollOpen := by rw [h6, h10]; exact h.pollOpen
  waitBound := by rw [h11]; exact h.waitBound
  heldInReset := fun k => by rw [hr] at k; cases k

theorem phase_todo {s : State} (h : BlockInv s) (hne : s.todo ≠ []) {ts} (hts : ts ≠ []) {t : State}
    (h1 : t.phase = s.phase := by rfl) (h2 : t.running = s.running := by rfl) (h3 : t.seq = s.seq := by rfl)
   (h4 : t.lockState = s.lockState := by rfl) (h5 : t.waitLeft = s.waitLeft := by rfl)
       (h6 : t.todo = ts := by rfl) : PhaseFits t := by
  have := h.4
  unfold PhaseFits at this ⊢
  rw [h1, h2, h3, h4, h5, h6]
  revert this
  cases s.phase <;> simp only <;> intro this <;> simp_all

theorem BlockInv.todo {s : State} (h : BlockInv s) (hr : s.rstN = true) (hne : s.todo ≠ []) (ts : List Txn)
    (hts : ts ≠ []) (c) (hc : Memory.wf c = true) (g) :
   BlockInv { s with todo := ts, chip := c, got := g } :=
  ⟨h.1, h.2, hc, phase_todo h hne hts, h.5, h.6, h.7, h.8, h.9, h.10, h.11, fun k => by rw [hr] at k; cases k⟩

theorem busFailure_inv (t) {s : State} (b : Bounds s) (hl : s.running ≠ some .tune → Settled s.lockState) : Leads s
    (busFailure t s) := by
  unfold busFailure
  split
  · rename_i hrun
    refine Leads.of (t := { s with lockState := .failed })
        (forward_lock hrun (by rcases failed_last s with h | h; exact .inr h; exact .inl h.symm))
        (raise_inv _ _ b.same ⟨by simp, by simp⟩)
  · exact raise_inv _ _ b (hl (by assumption))

/-- A transaction's end keeps the invariant. -/
theorem chipAnswer_inv (a) {s : State} (h : BlockInv s) (hr : s.rstN = true) : Leads s (chipAnswer a s) := by
  unfold chipAnswer
  split
  · rename_i t _
    have hb : BlockInv { deliver t a s with orphan := none } := h.fields hr (deliver_wf t a h.3)
    exact ⟨issueHead_inv hr hb, Forward.trans (t := { deliver t a s with orphan := none }) forward_same
        (issueHead_forward _)⟩
  · split
    · exact ⟨h, Forward.refl s⟩
    · rename_i t rest ht
      have hne : s.todo ≠ [] := by rw [ht]; simp
      unfold transactionEnd
      split
      · split
        · exact Leads.of (t :=
            { s with todo := [], got := s.got ++ answerBytes t a, chip := (deliver t a s).chip }) forward_same
            (phaseDone_inv h hr hne _ (deliver_wf t a h.3) _)
        · rename_i u us
          have hb : BlockInv { s with todo := u :: us, got := s.got ++ answerBytes t a, chip := (deliver t a s).chip } :=
              h.todo hr hne _ (by simp) _ (deliver_wf t a h.3) _
          exact ⟨issueHead_inv hr hb, Forward.trans
              (t := { s with todo := u :: us, got := s.got ++ answerBytes t a, chip := (deliver t a s).chip }) forward_same (issueHead_forward _)⟩
      · refine Leads.of (t := deliver t a s) forward_same
          (busFailure_inv t ⟨h.1, h.2, deliver_wf t a h.3, h.8, h.11, hr⟩ fun hn =>
          ⟨fun k => hn (h.lockTransient (.inl k)), fun k => hn (h.lockTransient (.inr k))⟩)

/-- A tick keeps the invariant (R221). -/
theorem tickPulse_inv {s : State} (h : BlockInv s) (hr : s.rstN = true) : Leads s (tickPulse s) := by
  unfold tickPulse
  split
  · rename_i hc
    have hf := h.4
    unfold PhaseFits at hf; rw [hc.1] at hf; simp only at hf
    have hw : (s.waitLeft - 1).toNat = s.waitLeft.toNat - 1 := by
      have := hf.2.2.2.2; simp; omega
    have t := h.inTune hr hf.1
    rw [hf.2.1] at t
    have b2 : InTune { s with waitLeft := s.waitLeft - 1 } .polling :=
        t.same ⟨t.base.1, t.base.2, t.base.3, t.base.4, by show (s.waitLeft - 1).toNat ≤ 20; have := t.base.5; omega,
        t.base.6⟩
    simp only
    split
    · exact Leads.of (t := { s with waitLeft := s.waitLeft - 1 }) forward_same (pollRead_inv b2)
    · rename_i hz
      refine ⟨inTune_inv b2 ?_, forward_same⟩
      unfold PhaseFits; rw [hc.1]
      refine ⟨hf.1, hf.2.1, hf.2.2.1, hf.2.2.2.1, ?_⟩
      show 0 < (s.waitLeft - 1).toNat
      rcases Nat.eq_zero_or_pos (s.waitLeft - 1).toNat with k | k
      · exact absurd (BitVec.eq_of_toNat_eq (by simpa using k)) hz
      · exact k
  · exact ⟨h, Forward.refl s⟩

/-- A computation's end keeps the invariant (R372). -/
theorem computeDone_inv {s : State} (h : BlockInv s) (hr : s.rstN = true) : Leads s (computeDone s) := by
  unfold computeDone
  split
  · rename_i i hp hrun
    have hf := h.4
    unfold PhaseFits at hf; rw [hp] at hf; simp only at hf
    rcases hf.2 with ⟨h1, h2, h3⟩ | ⟨j, h1, h2⟩
    · rw [h1] at hrun; cases hrun
      have t := h.inTune hr h1
      rw [h3] at t
      exact Leads.of (t := { s with phase := .idle }) forward_same (tuneCheck_inv (t.same t.base.same))
    · rw [h1] at hrun; cases hrun
      have hne : i ≠ .tune := by rintro rfl; simp at h2
      exact Leads.of (t := { s with phase := .idle }) forward_same
          (pureBody_inv ((h.inOther hr h1 hne).same (h.bounds hr).same) h2)
  · exact ⟨h, Forward.refl s⟩

/-- Every reaction of the engine keeps the invariant. -/
theorem react_inv {x : Stimulus} (hx : x.isEngine = true) {s : State} (h : BlockInv s) (hr : s.rstN = true) : Leads s
    (react x s) := by
  cases x <;> simp only [Stimulus.isEngine, Bool.false_eq_true] at hx <;> simp only [react]
  · exact chipAnswer_inv _ h hr
  · exact tickPulse_inv h hr
  · exact ⟨h, Forward.refl s⟩
  · exact computeDone_inv h hr

theorem BlockInv.inputs {s : State} (h : BlockInv s) (hr : s.rstN = true) (l) : BlockInv { s with inputs := l } :=
    h.fields hr h.3

/-- A command that runs on keeps the invariant. -/
theorem runOn_inv (l) {s : State} (h : BlockInv s) (hr : s.rstN = true) : Leads s (runOn l s) := by
  induction l generalizing s with
  | nil => exact ⟨h, Forward.refl s⟩
  | cons x rest ih =>
    unfold runOn
    split
    · rename_i hc
      simp only [Bool.and_eq_true] at hc
      have h1 := react_inv hc.2 (h.inputs hr rest) hr
      have hr' : (react x { s with inputs := rest }).rstN = true := h1.2.rstN.trans hr
      exact Leads.of (Forward.trans (t := { s with inputs := rest }) forward_same h1.2) (ih h1.1 hr')
    · exact ⟨h, Forward.refl s⟩

theorem accept_inOther {s : State} (h : BlockInv s) (hr : s.rstN = true) (hid : s.running = none) {i}
    (hi : i ≠ .tune) : InOther (accept i s) i :=
  have hn : s.running ≠ some .tune := by rw [hid]; simp
  ⟨(h.bounds hr).same, rfl, rfl, rfl, hi, (h.onlyTuneSequences hn).1, rfl,
      ⟨fun k => hn (h.lockTransient (.inl k)), fun k => hn (h.lockTransient (.inr k))⟩⟩

theorem Leads.run {s t : State} (h : Leads s t) (hr : s.rstN = true) : Leads s (runCommand t) :=
  Leads.of h.2 (runOn_inv _ h.1 (h.2.rstN.trans hr))

theorem computePoint_inv {s : State} {i} (h : InOther s i) (hi : i ∈ pureCommands) (ht : s.todo = []) : Leads s
    (computePoint (computation i) s) := by
  unfold computePoint
  split
  · rename_i rest hin
    refine ⟨inOther_inv (h.same h.base.same) ⟨ht, .inr ⟨i, h.run, hi⟩⟩, forward_same⟩
  · exact pureBody_inv h hi

theorem todo_of_idle {s : State} (h : BlockInv s) (hid : s.running = none) : s.todo = [] := by
  have := h.4
  unfold PhaseFits at this
  cases hp : s.phase <;> rw [hp] at this <;> simp_all

theorem measureStart_inv (b) {s : State} {i} (h : InOther s i) (hb : Leads s (b s)) : Leads s (measureStart i b s) := by
  unfold measureStart; split
  · exact hb
  · exact raise_other _ _ h

/-- A command but TUNE and RESET, written while idle: from its acceptance the block moved only forward. -/
theorem exec_idle_inv (i : Instr) (hi : i ≠ .tune) (hi2 : i ≠ .reset) {s : State} (h : BlockInv s) (hr : s.rstN = true)
    (hid : s.running = none) :
   ∃ t, exec i s = .next t ∧ Leads (accept i s) t := by
  have m := accept_inOther h hr hid hi
  have ht : (accept i s).todo = [] := show s.todo = [] from todo_of_idle h hid
  have hr' : (accept i s).rstN = true := hr
  cases i <;> simp only [exec] <;> first | (exact absurd rfl hi) | (exact absurd rfl hi2) | skip
  · exact ⟨_, congrArg Host.Outcome.next (submit_idle _ _ hid), (complete_other _ m).run hr'⟩
  · exact ⟨_, congrArg Host.Outcome.next (submit_idle _ _ hid), (computePoint_inv m (by decide) ht).run hr'⟩
  · exact ⟨_, congrArg Host.Outcome.next (submit_idle _ _ hid), (computePoint_inv m (by decide) ht).run hr'⟩
  · exact ⟨_, congrArg Host.Outcome.next (submit_idle _ _ hid), (computePoint_inv m (by decide) ht).run hr'⟩
  · exact ⟨_, congrArg Host.Outcome.next (submit_idle _ _ hid), (computePoint_inv m (by decide) ht).run hr'⟩
  · exact ⟨_, congrArg Host.Outcome.next (submit_idle _ _ hid), (computePoint_inv m (by decide) ht).run hr'⟩
  · refine ⟨_, rfl, ?_⟩
    rw [if_neg (by simp [State.busy, hid])]
    exact complete_other _ m
  · exact ⟨_, congrArg Host.Outcome.next (submit_idle _ _ hid),
      (measureStart_inv gainBegin m (load_other _ .gain gainDone m (fun h => complete_other _ h) fun t r =>
      ⟨m.run, by simp⟩)).run hr'⟩
  · exact ⟨_, congrArg Host.Outcome.next (submit_idle _ _ hid),
      (measureStart_inv cnrS1Begin m (load_other _ .cnrS1 cnrS1Done m (fun h => complete_other _ h) fun t r =>
      ⟨m.run, by simp⟩)).run hr'⟩
  · exact ⟨_, congrArg Host.Outcome.next (submit_idle _ _ hid),
      (measureStart_inv cnrS2Begin m (load_other _ .cnrS2 cnrS2Done m (fun h => complete_other _ h) fun t r =>
      ⟨m.run, by simp⟩)).run hr'⟩
  · exact ⟨_, congrArg Host.Outcome.next (submit_idle _ _ hid), (measureStart_inv _ m (berBegin_inv .s1 m)).run hr'⟩
  · exact ⟨_, congrArg Host.Outcome.next (submit_idle _ _ hid), (measureStart_inv _ m (berBegin_inv .s2 m)).run hr'⟩

/-- TUNE written while idle (R202). -/
theorem tune_idle_inv {s : State} (h : BlockInv s) (hr : s.rstN = true) (hid : s.running = none) :
   ∃ t, exec .tune s = .next t ∧
       Leads { accept .tune s with lockState := .idle, tr := tuneRequest (accept .tune s), seq := .check } t := by
  refine ⟨_, congrArg Host.Outcome.next (submit_idle _ _ hid), ?_⟩
  have tn : InTune { accept .tune s with lockState := .idle, tr := tuneRequest (accept .tune s), seq := .check } .idle :=
    ⟨(h.bounds hr).same, rfl, rfl, rfl, rfl, by simp, by simp⟩
  refine Leads.run ?_ hr
  unfold tuneStart; simp only
  split
  · unfold computePoint; split
    · refine ⟨inTune_inv (tn.same tn.base.same) ⟨show s.todo = [] from todo_of_idle h hid, .inl ⟨rfl, rfl, rfl⟩⟩,
        forward_same⟩
    · exact tuneCheck_inv tn
  · exact raise_inv _ _ tn.base ⟨by simp, by simp⟩

/-- RESET (R353). -/
theorem reset_inv {s : State} (h : BlockInv s) (hr : s.rstN = true) : BlockInv (resetKeepingCtrl s) :=
  ended_inv ⟨h.1, show (0:Word).toNat < 512 by decide, h.3, show (0:Byte).toNat ≤ 150 by decide,
      show (0:Byte).toNat ≤ 20 by decide, hr⟩ rfl rfl rfl rfl rfl
      ⟨show LockState.idle ≠ .programming by decide, show LockState.idle ≠ .polling by decide⟩

/-- A command but RESET, written while another runs (R117). -/
theorem busy_inv (i : Instr) (h2 : i ≠ .reset) {s : State} (h : BlockInv s) (hr : s.rstN = true) (hid : s.running ≠ none) :
   ∃ t, exec i s = .next t ∧ Leads s t := by
  have hov : Leads s (setOverrun s) := ⟨h.fields hr h.3, forward_same⟩
  have hb : s.busy = true := by simpa [State.busy, Option.isSome_iff_ne_none] using hid
  by_cases ha : i = .abort
  · subst ha
    refine ⟨_, rfl, ?_⟩
    rw [if_pos hb]; unfold abortWhileBusy; split
    · rename_i ht
      have t := h.inTune hr ht
      exact ⟨inTune_inv (t.same t.base.same) h.4, forward_same⟩
    · exact ⟨h, Forward.refl s⟩
  · cases i <;> first | exact absurd rfl h2 | exact absurd rfl ha | exact
      ⟨_, congrArg Host.Outcome.next (submit_busy _ _ hid), hov⟩

end Sys2Proof.Machine
end

