-- ==== Sys2Proof/Laws/PerInstr.lean ====
section
/-! SUPPORT. Statements proved command by command: every command's word decodes to it, and no other word does. -/

namespace Sys2Proof

/-- A word with a zero MBZ field is its opcode, zero-extended (R110). -/
theorem word_of_opcField {w : Word} (h : mbzZero w = true) : w = (opcField w).setWidth 32 := by
  simp only [mbzZero, beq_iff_eq] at h
  apply BitVec.eq_of_getLsbD_eq
  intro j hj
  have := congrArg (fun v => v.getLsbD (j - 8)) h
  simp [opcField, BitVec.getLsbD_extractLsb'] at this ⊢
  by_cases h8 : j < 8
  · simp [h8, hj]
  · have := this (by omega)
    rw [show 8 + (j - 8) = j by omega] at this
    simp [h8, this]

/-- The opcode map, read backwards (R115). -/
theorem opcOf_of_decodeOpc {b : Byte} {i : Instr} (h : decodeOpc b = .ok i) : b = opcOf i := by
  unfold decodeOpc at h
  by_cases h0 : b = 0x00#8
  · rw [if_pos h0] at h; cases h; exact h0
  rw [if_neg h0] at h
  by_cases h1 : b = 0x01#8
  · rw [if_pos h1] at h; cases h; exact h1
  rw [if_neg h1] at h
  by_cases h2 : b = 0x02#8
  · rw [if_pos h2] at h; cases h; exact h2
  rw [if_neg h2] at h
  by_cases h3 : b = 0x03#8
  · rw [if_pos h3] at h; cases h; exact h3
  rw [if_neg h3] at h
  by_cases h4 : b = 0x04#8
  · rw [if_pos h4] at h; cases h; exact h4
  rw [if_neg h4] at h
  by_cases h5 : b = 0x05#8
  · rw [if_pos h5] at h; cases h; exact h5
  rw [if_neg h5] at h
  by_cases h10 : b = 0x10#8
  · rw [if_pos h10] at h; cases h; exact h10
  rw [if_neg h10] at h
  by_cases h11 : b = 0x11#8
  · rw [if_pos h11] at h; cases h; exact h11
  rw [if_neg h11] at h
  by_cases h20 : b = 0x20#8
  · rw [if_pos h20] at h; cases h; exact h20
  rw [if_neg h20] at h
  by_cases h21 : b = 0x21#8
  · rw [if_pos h21] at h; cases h; exact h21
  rw [if_neg h21] at h
  by_cases h22 : b = 0x22#8
  · rw [if_pos h22] at h; cases h; exact h22
  rw [if_neg h22] at h
  by_cases h23 : b = 0x23#8
  · rw [if_pos h23] at h; cases h; exact h23
  rw [if_neg h23] at h
  by_cases h24 : b = 0x24#8
  · rw [if_pos h24] at h; cases h; exact h24
  rw [if_neg h24] at h
  by_cases hFF : b = 0xFF#8
  · rw [if_pos hFF] at h; cases h; exact hFF
  rw [if_neg hFF] at h
  cases h

/-- Only a command's own word decodes to it (R111). -/
theorem encode_of_decode {w : Word} {i : Instr} (h : decode w = .ok i) : w = encode i := by
  unfold decode at h
  by_cases hm : mbzZero w = true
  · rw [if_pos hm] at h
    rw [word_of_opcField hm, opcOf_of_decodeOpc h]; rfl
  · rw [if_neg hm] at h
    cases h

namespace Laws.EncodeDecode

/-- The command's word decodes to it (R115). -/
def Statement (i : Instr) : Prop := decode (encode i) = .ok i

theorem nop : Statement .nop := rfl
theorem gold : Statement .gold := rfl
theorem pll : Statement .pll := rfl
theorem mclk : Statement .mclk := rfl
theorem tsclk : Statement .tsclk := rfl
theorem lpf : Statement .lpf := rfl
theorem tune : Statement .tune := rfl
theorem abort : Statement .abort := rfl
theorem gain : Statement .gain := rfl
theorem cnrS1 : Statement .cnrS1 := rfl
theorem cnrS2 : Statement .cnrS2 := rfl
theorem berS1 : Statement .berS1 := rfl
theorem berS2 : Statement .berS2 := rfl
theorem reset : Statement .reset := rfl

end Laws.EncodeDecode

namespace Laws.OneWord

/-- Only one word decodes to the command, and its MBZ field is zero (R111). -/
def Statement (i : Instr) : Prop := ∀ w, decode w = .ok i → w = encode i ∧ mbzZero w = true

theorem nop : Statement .nop := fun _ h => ⟨encode_of_decode h, encode_of_decode h ▸ rfl⟩
theorem gold : Statement .gold := fun _ h => ⟨encode_of_decode h, encode_of_decode h ▸ rfl⟩
theorem pll : Statement .pll := fun _ h => ⟨encode_of_decode h, encode_of_decode h ▸ rfl⟩
theorem mclk : Statement .mclk := fun _ h => ⟨encode_of_decode h, encode_of_decode h ▸ rfl⟩
theorem tsclk : Statement .tsclk := fun _ h => ⟨encode_of_decode h, encode_of_decode h ▸ rfl⟩
theorem lpf : Statement .lpf := fun _ h => ⟨encode_of_decode h, encode_of_decode h ▸ rfl⟩
theorem tune : Statement .tune := fun _ h => ⟨encode_of_decode h, encode_of_decode h ▸ rfl⟩
theorem abort : Statement .abort := fun _ h => ⟨encode_of_decode h, encode_of_decode h ▸ rfl⟩
theorem gain : Statement .gain := fun _ h => ⟨encode_of_decode h, encode_of_decode h ▸ rfl⟩
theorem cnrS1 : Statement .cnrS1 := fun _ h => ⟨encode_of_decode h, encode_of_decode h ▸ rfl⟩
theorem cnrS2 : Statement .cnrS2 := fun _ h => ⟨encode_of_decode h, encode_of_decode h ▸ rfl⟩
theorem berS1 : Statement .berS1 := fun _ h => ⟨encode_of_decode h, encode_of_decode h ▸ rfl⟩
theorem berS2 : Statement .berS2 := fun _ h => ⟨encode_of_decode h, encode_of_decode h ▸ rfl⟩
theorem reset : Statement .reset := fun _ h => ⟨encode_of_decode h, encode_of_decode h ▸ rfl⟩

end Laws.OneWord

end Sys2Proof
end

