-- ==== Sys2Proof/Tests/Example.lean ====
section
/-! SUPPORT. The example configuration EX of 95_test_vectors.md section 1, which is invented and fills the OPEN parameters
for tests, and small states and stimuli to test with. -/

namespace Sys2Proof.Tests

open Sys2Proof.Machine

/-- A one-byte field descriptor of EX. -/
def byteField (a : BusAddr) : FieldDesc := { addr := a, nbytes := 1, order := .le, rshift := 0, width := 8 }

/-- A two-byte field descriptor of EX. -/
def wideField (a : BusAddr) (o : ByteOrder) : FieldDesc := { addr := a, nbytes := 2, order := o, rshift := 0, width := 16 }

/-- Section 1.1. -/
def exClock : ClockConfig :=
  { bands := #v[⟨1900, 2, 0x00, 2, 0x00⟩, ⟨1700, 2, 0x00, 3, 0x10⟩, ⟨1550, 3, 0x10, 3, 0x10⟩,
      ⟨1380, 3, 0x10, 4, 0x40⟩, ⟨1250, 4, 0x40, 4, 0x40⟩, ⟨1150, 4, 0x40, 6, 0x30⟩, ⟨1050, 6, 0x30, 6, 0x30⟩,
      ⟨1000, 6, 0x30, 8, 0x60⟩, ⟨0, 8, 0x60, 8, 0x60⟩]
    refDiv27 := 19, refDiv24 := 16, mclkHighKhz := 144000, mclkCand := #v[96000, 93000, 99000]
    lpfOffsetHighKhz := 0, lpfMulNum := 13, lpfMulDen := 10, lpfMarginKhz := 2000, lpfBwMinKhz := 6000
    lpfBwMaxKhz := 40000, srMin := 1000000, srMax := 60000000 }

/-- Section 1.2. -/
def exChip : ChipMap :=
  { pllRefdivAddr := 0x0100, pllP1LoAddr := 0x0101, pllP1HiAddr := 0x0102, pllP2LoAddr := 0x0103, pllP2HiAddr := 0x0104
    tsTapAddr := #v[0x0200, 0x0201, 0x0202, 0x0203], tsNstageAddr := 0x0204, plsAddr := #v[0x0300, 0x0301, 0x0302]
    lockStatusAddr := 0x0400
    fInvSrc := { addr := 0x0410, nbytes := 1, order := .le, rshift := 3, width := 1 }
    invDstAddr := 0x0411, invDstMask := 0x01, fIsiCount := byteField 0x0420, isiSlotAddr := 0x0430, isiSelAddr := 0x0421
    fRf := byteField 0x0500, fIf := byteField 0x0501, fTia := byteField 0x0502, fBb := byteField 0x0503
    fPga2Int := byteField 0x0504, fPga2Frac := byteField 0x0505, fBbp := byteField 0x0506, fNeS1 := byteField 0x0510
    fSigS2 := byteField 0x0520, fNoiseHi := byteField 0x0521, fNoiseLo := byteField 0x0522
    fBerWinS1 := wideField 0x0530 .le, fBerErrS1 := wideField 0x0532 .le
    fBerWinS2 := wideField 0x0540 .be, fBerErrS2 := wideField 0x0542 .le }

/-- Section 1.3; LPF_PROG at the bandwidths the vectors reach. -/
def exPrograms : Programs :=
  { resetPulse := [.write 0x0000 0x01, .write 0x0000 0x00], tsClear := [.write 0x0010 0x00]
    mclk := #v[[.write 0x0020 0], [.write 0x0020 1], [.write 0x0020 2], [.write 0x0020 3]]
    agcCautious := [.write 0x0030 0x11], bulkPreset := [.burst 0x0050 [0xA0, 0xA1, 0xA2, 0xA3]]
    delsys := #v[[.rmw 0x0060 0x03 0], [.rmw 0x0060 0x03 1]], agcNormal := [.write 0x0030 0x22]
    berRestartS1 := [.write 0x0534 0x01, .write 0x0534 0x00], berRestartS2 := [.write 0x0544 0x01, .write 0x0544 0x00]
    lpf := [(6000, [.write 0x0040 6]), (37750, [.write 0x0040 37]), (40000, [.write 0x0040 40])] }

/-- Section 1.4. -/
def exQuality : QualityConfig :=
  { gainSumMode := .inclusive
    gainRfTab := #v[[0, 29, 28, 30, 29, 28, 30, 29, 28, 30, 29, 28, 30, 29, 28, 30],
      [0, 27, 26, 28, 27, 26, 28, 27, 26, 28, 27, 26, 28, 27, 26, 28],
      [0, 25, 24, 26, 25, 24, 26, 25, 24, 26, 25, 24, 26, 25, 24, 26]]
    gainIfTab := #v[0 :: List.replicate 15 20, 0 :: List.replicate 15 21, 0 :: List.replicate 15 22]
    gainBbTab := #v[0 :: List.replicate 15 15, 0 :: List.replicate 15 15, 0 :: List.replicate 15 15]
    tiaStep := 60, pga2IntStep := 30, pga2FracStep := 10
    bbpTab := Vector.ofFn fun h => Vector.ofFn fun l => -(600 + 10 * (h.val : Int) + (l.val : Int))
    gainOffset := #v[400, 420, 450]
    lnTab := #v[300, 231, 190, 161, 139, 121, 105, 92, 80, 70, 60, 52, 44, 36, 29, 23, 17,
      11, 6, 0, -4, -9, -14, -18, -22, -26, -30, -33, -37, -40, -43, -47, -50]
    lnScaleNum := 3, lnScaleDen := 4
    log10Tab := #v[0, 30, 48, 60, 70, 78, 85, 90, 95, 100, 104, 108, 111, 115, 118, 120, 123, 126, 128, 130,
      132, 134, 136, 138, 140, 141, 143, 145, 146, 148, 149, 151, 152, 153, 154, 156, 157, 158, 159, 160,
      161, 162, 163, 164, 165, 166, 167, 168, 169, 170, 171, 172, 172, 173, 174, 175, 176, 176, 177, 178,
      179, 179, 180, 181, 181, 182, 183, 183, 184, 185, 185, 186, 186, 187, 188, 188, 189, 189, 190, 190]
    noiseLoWidth := 6, cnrBothZero := 0, cnrNoiseZero := 250, cnrSigZero := -250, berS1Threshold := 100
    berBitsPerCountS1 := 1632, berBitsPerCountS2 := 1504 }

/-- EX. -/
def EX : Config :=
  { gold := { seed := 0x00001, tap := 17, overrange := .clampIndex, checkpoints := Config.checkpointsTap17 }
    clock := exClock, chipMap := exChip, programs := exPrograms, quality := exQuality
    options := { plsDefault := #v[0x01, 0x00, 0x00], isiMaxSlots := 16, auxPresent := true, auxFreqHz := 27000000 } }

/-- An idle block under EX with chip_ready = 1, operands and stimuli as given (section 4). -/
def idle (args : List Word) (inputs : List Stimulus) : State :=
  { State.reset with cfg := EX, chipReady := true, args := results args, inputs := inputs }

/-- The chip reads as a byte. -/
def rd (b : Byte) : Stimulus := .chipAnswer ⟨true, b, 0⟩

/-- The chip accepts a write. -/
def ok : Stimulus := rd 0

/-- The chip fails a transaction, having received d bytes of it. -/
def bad (d : Nat) : Stimulus := .chipAnswer ⟨false, 0, d⟩

/-- n chip answers to writes. -/
def oks (n : Nat) : List Stimulus := List.replicate n ok

/-- The next state of an outcome; the given state where it has none. -/
def after (o : Host.Outcome State Fault Refusal) (s : State) : State :=
  match o with
  | .next t => t
  | .fault _ => s
  | .refused _ => s

/-- The state after a command. -/
def run (i : Instr) (s : State) : State := after (exec i s) s

/-- The state after n steps, each taking one stimulus. -/
def steps : Nat → State → State
  | 0, s => s
  | n + 1, s => steps n (after (step s) s)

/-- RES0 to RES7 as numbers. -/
def resNats (s : State) : List Nat := s.res.toList.map BitVec.toNat

/-- The operands of T1 (section 4.7). -/
def t1Args : List Word := [1200000000, 27500000, 0x1, 0x80000000, 0, 100]

end Sys2Proof.Tests
end

