-- ==== Sys2Proof/Tests/Slice0.lean ====
section
/-! SUPPORT. Tests: what each well-formedness check refuses, the words of the opcode map, and at most two small tests for
each command. Every expected value is 95_test_vectors.md's; its section is named. -/

namespace Sys2Proof.Tests

open Sys2Proof.Machine

/-! ## Well-formedness: EX passes, and each check refuses an ill-formed term -/

theorem test_ex_is_valid : EX.valid = true := by decide +kernel

theorem test_mbz_refused : mbzZero 0x00000101 = false := by decide

theorem test_shapes_refused : [(0x06, 4), (0x04, 2), (0x04, 1)].map (fun p => accessShape p.1 p.2) = [false, false, false] := by
  decide

theorem test_window_edge : (inWindow 124, inWindow 128) = (true, false) := by decide

theorem test_field_refused :
    [byteField 0, { byteField 0 with nbytes := 0 }, { byteField 0 with nbytes := 5 }, { byteField 0 with rshift := 32 },
     { byteField 0 with width := 0 }, { byteField 0 with width := 33 }].map FieldDesc.wf
      = [true, false, false, false, false, false] := by decide

theorem test_empty_burst_refused : (Txn.burst 0x0050 []).wf = false := by decide

theorem test_program_refused : programWf [.write 0 0, .burst 0x0050 []] = false := by decide

theorem test_entry_refused : (signed32 2147483648, signed32 (-2147483648)) = (false, true) := by decide

theorem test_divider_refused : (dividerOk 5, dividerOk 12) = (false, true) := by decide

/-- A band table out of order, and one whose last row is not at 0 (R9). -/
theorem test_bands_refused :
    ({ EX with clock := { exClock with bands := exClock.bands.set 1 ⟨1900, 2, 0, 3, 0⟩ } }.bandsOk,
      { EX with clock := { exClock with bands := exClock.bands.set 8 ⟨1, 8, 0, 8, 0⟩ } }.bandsOk) = (false, false) := by
  decide +kernel

theorem test_zero_clock_refused :
    ({ EX with clock := { exClock with mclkHighKhz := 0 } }.clocksOk,
      { EX with clock := { exClock with mclkCand := #v[96000, 0, 99000] } }.clocksOk) = (false, false) := by decide +kernel

theorem test_filter_refused :
    ({ EX with clock := { exClock with lpfMulDen := 0 } }.lpfOk,
      { EX with clock := { exClock with lpfBwMinKhz := 40001 } }.lpfOk) = (false, false) := by decide +kernel

theorem test_symbol_rates_refused :
    { EX with clock := { exClock with srMin := 60000001 } }.symbolRatesOk = false := by decide +kernel

theorem test_ln_scale_refused : { EX with quality := { exQuality with lnScaleDen := 0 } }.lnScaleOk = false := by
  decide +kernel

theorem test_empty_gain_table_refused :
    { EX with quality := { exQuality with gainIfTab := exQuality.gainIfTab.set 2 [] } }.gainTablesOk = false := by
  decide +kernel

theorem test_big_entry_refused :
    { EX with quality := { exQuality with tiaStep := 2147483648 } }.entriesOk = false := by decide +kernel

theorem test_noise_width_refused : { EX with quality := { exQuality with noiseLoWidth := 15 } }.noiseOk = false := by
  decide +kernel

theorem test_isi_slots_refused :
    [0, 256, 257].map (fun n => { EX with options := { EX.options with isiMaxSlots := n } }.isiOk)
      = [false, true, false] := by decide +kernel

theorem test_field_width_refused :
    { EX with chipMap := { exChip with fInvSrc := byteField 0x0410 } }.fieldsOk = false := by decide +kernel

theorem test_programs_refused :
    { EX with programs := { exPrograms with lpf := [(6000, [.burst 0 []])] } }.programsOk = false := by decide +kernel

/-! ## Decoding: each row of the opcode map, its word written out (R110: MBZ, then OPC) -/

/-- A command word from its MBZ field and the eight bits of its OPC. -/
def wordOf (mbz : BitVec 24) (opc : BitVec 8) : Word := mbz ++ opc

theorem test_decode_nop : decode (wordOf 0 0b00000000) = .ok .nop := by decide
theorem test_decode_gold : decode (wordOf 0 0b00000001) = .ok .gold := by decide
theorem test_decode_pll : decode (wordOf 0 0b00000010) = .ok .pll := by decide
theorem test_decode_mclk : decode (wordOf 0 0b00000011) = .ok .mclk := by decide
theorem test_decode_tsclk : decode (wordOf 0 0b00000100) = .ok .tsclk := by decide
theorem test_decode_lpf : decode (wordOf 0 0b00000101) = .ok .lpf := by decide
theorem test_decode_tune : decode (wordOf 0 0b00010000) = .ok .tune := by decide
theorem test_decode_abort : decode (wordOf 0 0b00010001) = .ok .abort := by decide
theorem test_decode_gain : decode (wordOf 0 0b00100000) = .ok .gain := by decide
theorem test_decode_cnrS1 : decode (wordOf 0 0b00100001) = .ok .cnrS1 := by decide
theorem test_decode_cnrS2 : decode (wordOf 0 0b00100010) = .ok .cnrS2 := by decide
theorem test_decode_berS1 : decode (wordOf 0 0b00100011) = .ok .berS1 := by decide
theorem test_decode_berS2 : decode (wordOf 0 0b00100100) = .ok .berS2 := by decide
theorem test_decode_reset : decode (wordOf 0 0b11111111) = .ok .reset := by decide

/-- Section 4.1's illegal words. -/
theorem test_illegal_words :
    ([0x06, 0x0F, 0x12, 0x25, 0xFE, 0x101, 0x80000010, 0x1FF] : List Word).map (fun w => (decode w).toOption)
      = List.replicate 8 none := by decide

/-- The decoder reads the little-endian bytes of a table row's word. -/
theorem test_table_words :
    [(32, 0x10), (32, 0xFF), (32, 0x06), (8, 0x24)].map (fun p => decodeTableWord p.1 p.2)
      = [some .tune, some .reset, none, some .berS2] := by decide

/-- The first thing that happens after reset is the command placed there. -/
theorem test_fetch_after_reset :
    step (State.reset.withFetchWord 32 0) = .next (after (exec .nop { State.reset with inputs := [] }) State.reset) := rfl

/-! ## System commands (sections 4.1, 4.8, 4.13) -/

theorem test_nop_status : (run .nop (idle [] [])).statusWord = 0x0000000A := by decide +kernel

/-- After GOLD left RES0 = 0x20000. -/
theorem test_nop_zeroes_results :
    resNats (run .nop (run .gold (idle [1] []))) = [0, 0, 0, 0, 0, 0, 0, 0] := by decide +kernel

/-- P5: read 1 is made, the TUNE waits; RESET ends it. -/
theorem test_reset_abandons_tune :
    let s := run .reset (run .tune { idle t1Args (oks 21 ++ [rd 0]) with ctrl := 1 })
    s.ctrl = 1 ∧ s.statusWord = 0x00000008 ∧ s.seqWord = 0 ∧ s.mclkKhz = 0 ∧ s.outputs.length = 22 := by decide +kernel

/-- ABORT in CHECK is honoured before P_RESET. -/
theorem test_abort_in_check :
    let s := steps 3 (idle t1Args [.hostWrite 8 4 0x10, .computeHold, .hostWrite 8 4 0x11, .computeDone])
    s.errInfo = 0x02000000 ∧ s.statusWord = 0x0005070A ∧ s.outputs = [] := by decide +kernel

/-- ABORT during P_PLL's first write: ten transactions, then the end. -/
theorem test_abort_in_programming :
    let s := steps 7 (idle t1Args ([.hostWrite 8 4 0x10] ++ oks 5 ++ [.hostWrite 8 4 0x11] ++ oks 5))
    s.errInfo = 0x07000000 ∧ s.statusWord = 0x0005070A ∧ s.outputs.length = 10 := by decide +kernel

/-! ## GOLD (section 4.2) -/

theorem test_gold_steps : resNats (run .gold (idle [35] [])) = [0x15555, 0, 35, 0, 0, 0, 0, 0] := by decide +kernel

theorem test_gold_clamps : resNats (run .gold (idle [300000] [])) = [0x073F5, 52, 0, 0, 0, 0, 0, 0] := by decide +kernel

/-! ## PLL, MCLK, TSCLK, LPF (sections 4.3 to 4.6) -/

theorem test_pll_paths_differ :
    resNats (run .pll (idle [1200, 27000] [])) = [0x4760, 0x3C10, 0x760, 0xC10, 5, 19, 0, 0] := by decide +kernel

theorem test_pll_errors :
    [[1200, 25000], [100, 27000], [5000, 27000]].map (fun a => (run .pll (idle a [])).errInfo)
      = [0x02000020, 0x02000021, 0x02000022] := by decide +kernel

theorem test_mclk_last_candidate :
    resNats (run .mclk (idle [950000, 1000000] [])) = [99000, 2, 10000, 20000, 40000, 0, 0, 0] := by decide +kernel

theorem test_mclk_keeps_the_earlier :
    resNats (run .mclk (idle [0, 27500000] [])) = [96000, 0, 0, 0, 0, 0, 0, 0] := by decide +kernel

/-- Taps 1 and 2 are snapped to 9, parallel. -/
theorem test_tsclk_snaps :
    resNats (run .tsclk (idle [10, 96000] [])) = [3, 2, 0x201, 0x909, 0, 0, 0, 0] := by decide +kernel

/-- Three taps of 16 encode as 0, serial. -/
theorem test_tsclk_encodes_sixteen :
    resNats (run .tsclk { idle [170, 96000] [] with ctrl := 2 }) = [63, 4, 0x1010100F, 0xF, 0, 0, 0, 0] := by
  decide +kernel

theorem test_lpf_low_symbol_rate :
    resNats (run .lpf (idle [2000000, 1200000000] [])) = [3000, 6000, 1203000, 1203, 0, 0, 0, 0] := by decide +kernel

theorem test_lpf_at_the_threshold :
    resNats (run .lpf (idle [5000000, 950000000] [])) = [0, 8500, 950000, 950, 0, 0, 0, 0] := by decide +kernel

/-! ## TUNE (section 4.7) -/

/-- T3. -/
theorem test_tune_t3 :
    let s := run .tune { idle [950000000, 2000000, 0x10, 0, 1, 64] (oks 21 ++ [rd 0xF7, ok]) with ctrl := 6 }
    resNats s = [3, 1, 0xF7, 0x182B8, 0x6CE46CE4, 0x1770, 0xE8AA8, 0] ∧ s.statusWord = 0x0003000A ∧
      s.outputs.getLast? = some (.auxSet 27000000) ∧ s.outputs.length = 24 := by decide +kernel

/-- T5: the slot scan finds no match and falls back to slot 0. -/
theorem test_tune_t5 :
    let s := run .tune (idle [1550000000, 30000000, 0x21, 9, 0, 100]
      (oks 21 ++ [rd 0x8F, rd 0, ok, rd 3, rd 2, rd 5, rd 7, ok, ok]))
    resNats s = [3, 1, 0x8F, 0x182B8, 0x17151715, 0x9C40, 0x17A6B0, 0x102] ∧
      (s.outputs.drop 21).take 9 = [.bus (.read 0x400), .bus (.read 0x410), .bus (.rmw 0x411 1 0), .bus (.read 0x420),
        .bus (.read 0x430), .bus (.read 0x431), .bus (.read 0x432), .bus (.write 0x421 2), .bus (.write 0x30 0x22)] := by
  decide +kernel

/-! ## GAIN, CNR, BER (sections 4.9 to 4.12) -/

theorem test_gain_clamps_code :
    resNats (run .gain (idle [1749] ([20, 7, 2, 3, 1, 1, 0x9C].map rd)))
      = [405, 147, 120, 45, 40, 757, 2 ^ 32 - 702, 1039] := by decide +kernel

/-- A failing read of 0x0502. -/
theorem test_gain_transport :
    (run .gain (idle [1200] ([3, 2].map rd ++ [bad 0]))).errInfo = 0x20010502 := by decide +kernel

/-- Truncation is toward zero. -/
theorem test_cnrS1_truncates :
    resNats (run .cnrS1 (idle [] (List.replicate 10 (rd 100)))) = [2 ^ 32 - 37, 100, 32, 0, 0, 0, 0, 0] := by decide +kernel

theorem test_cnrS1_average :
    resNats (run .cnrS1 (idle [] ([3, 4, 3, 4, 3, 4, 3, 4, 3, 4].map rd))) = [120, 3, 3, 0, 0, 0, 0, 0] := by decide +kernel

theorem test_cnrS2_noise_larger :
    resNats (run .cnrS2 (idle [] (List.replicate 10 ([4, 3, 0].map rd)).flatten))
      = [2 ^ 32 - 108, 16, 192, 11, 0, 0, 0, 0] := by decide +kernel

theorem test_cnrS2_masks_lo :
    resNats (run .cnrS2 (idle [] (List.replicate 10 ([16, 0, 0xFF].map rd)).flatten))
      = [60, 256, 63, 3, 0, 0, 0, 0] := by decide +kernel

theorem test_berS1_accumulates :
    let s := run .berS1 (idle [] ([101, 0, 5, 0, 0, 0].map rd))
    resNats s = [1, 101, 5, 0x1FCEB, 0, 0, 0, 0] ∧ s.accErr = 5 ∧ s.accCnt = 164832 := by decide +kernel

theorem test_berS1_at_threshold :
    let s := run .berS1 { idle [] ([100, 0].map rd) with accErr := 5, accCnt := 164832 }
    resNats s = [0, 100, 0, 0x1FCEB, 0, 0, 0, 0] ∧ s.accErr = 5 ∧ s.accCnt = 164832 := by decide +kernel

theorem test_berS2_at_threshold :
    let s := run .berS2 (idle [] ([0x0F, 0xA0].map rd))
    resNats s = [0, 0xFA0, 0, 0, 0, 0, 0, 0] ∧ s.accCnt = 0 ∧ s.outputs.length = 2 := by decide +kernel

theorem test_berS2_above_threshold :
    let s := run .berS2 (idle [] ([0x0F, 0xA1, 7, 0, 0, 0].map rd))
    resNats s = [1, 0xFA1, 7, 0x1384, 0, 0, 0, 0] ∧ s.accErr = 7 ∧ s.accCnt = 6017504 ∧ s.outputs.length = 6 := by
  decide +kernel

/-- Section 4.12's values of BER_Q32. -/
theorem test_ber_ratio :
    [berQ32 0 0, berQ32 1 1, berQ32 1 3, berQ32 0x10000000000 1]
      = [0, 0x100000000, 0x55555555, 0xFFFFFFFFFFFFFFFF] := by decide +kernel

/-! ## The host window (section 4.14) and the host assembly (R118, R119) -/

theorem test_window_reads :
    [0x6C, 0x08, 0x70].map (fun off => readReg (regAt off) (idle [] [])) = [0x4D540007, 0, 0] := by decide +kernel

theorem test_ctrl_reserved_bits : (writeReg (regAt 0) 0xFFFFFFFF (idle [] [])).ctrl = 7 := by decide +kernel

/-- A byte of STATUS as a little-endian host names it (R82). -/
theorem test_window_byte : windowByte 0x06 (run .tune (idle [949999999] [])) = 0 ∧
    windowByte 0x05 (run .tune (idle [949999999] [])) = 4 := by decide +kernel

/-- P1's first line. -/
theorem test_call_expands :
    (call .gold [0x3039]).map HostLine.access
      = [.hostWrite 0x10 4 0x3039, .hostWrite 0x08 4 0x1, .hostRead 0x04 4] := by decide

end Sys2Proof.Tests
end

