-- ==== Sys2Proof/Tests/Witness.lean ====
section
/-! SUPPORT. For each obligation with hypotheses, concrete states and operands that meet them, clause by clause and at the
ends of each range. -/

namespace Sys2Proof.Tests

open Sys2Proof.Machine Sys2Proof.Claims

/-- The successful answer with a byte. -/
def yes (b : Byte) : Answer := ⟨true, b, 0⟩

/-- A failed answer. -/
def no : Answer := ⟨false, 0, 0⟩

/-- A state in which a command runs. -/
def running (i : Instr) (p : Phase) (todo : List Txn) (inputs : List Stimulus) : State :=
  { idle t1Args inputs with running := some i, phase := p, todo := todo, tr := request (idle t1Args []) }

/-- A state in which a TUNE runs. -/
def tuning (st : SeqStep) (l : LockState) (p : Phase) (todo : List Txn) (inputs : List Stimulus) : State :=
  { running .tune p todo inputs with seq := st, lockState := l }

/-- An idle state with a configuration of its own. -/
def idleOf (c : Config) (args : List Word) : State := { idle args [] with cfg := c }

theorem prompt_of_none {s : State} (h : s.inputs = []) : Prompt s := fun rest hr => by rw [h] at hr; cases hr

theorem prompt_of_answer {s : State} {a l} (h : s.inputs = .chipAnswer a :: l) : Prompt s := fun rest hr => by
  rw [h] at hr; cases hr

theorem waits_none : Waits [] := fun _ _ h => by cases h

/-! ## Decoding and fetching -/

theorem wit_DecodeBytesInvertsEncode :
    decodeBytes [0x10, 0, 0, 0, 7] = .ok (.tune, [7]) ∧ decodeBytes [0xFF, 0, 0, 0] = .ok (.reset, []) := by decide

theorem wit_StepRunsSubmittedCommand :
    let s := idle [] [.hostWrite 0x08 4 0x10, .tick]
    s.inputs = .hostWrite 0x08 4 0x10 :: [.tick] ∧ s.rstN = true ∧ decode 0x10 = .ok .tune := ⟨rfl, rfl, rfl⟩

theorem wit_IllegalWordEndsWithIllegal :
    ∀ w : Word, w ∈ [0x06, 0x12, 0xFE, 0x101, 0x80000010, 0xFFFFFFFF] →
      let s := idle [] [.hostWrite 0x08 4 w]
      s.inputs = .hostWrite 0x08 4 w :: [] ∧ s.rstN = true ∧ Idle s ∧ (∀ i, w ≠ encode i) := by
  intro w hw
  refine ⟨rfl, rfl, rfl, ?_⟩
  simp only [List.mem_cons, List.not_mem_nil, or_false] at hw
  rcases hw with rfl | rfl | rfl | rfl | rfl | rfl <;> (intro i; cases i <;> decide)

theorem wit_BusyWordOnlySetsOverrun :
    ∀ w : Word, w ∈ [0x00, 0x10, 0x12, 0xFE, 0x111, 0x1FF] →
      let s := tuning .pollWait .polling .pollWait [] [.hostWrite 0x08 4 w]
      s.inputs = .hostWrite 0x08 4 w :: [] ∧ s.rstN = true ∧ s.running ≠ none ∧ w ≠ 0x00000011 ∧ w ≠ 0x000000FF := by
  intro w hw
  refine ⟨rfl, rfl, by simp [tuning, running], ?_⟩
  simp only [List.mem_cons, List.not_mem_nil, or_false] at hw
  rcases hw with rfl | rfl | rfl | rfl | rfl | rfl <;> decide

/-! ## The host window -/

/-- Every register of the window, its ends included. -/
theorem wit_HostReadShowsRegister :
    ∀ off ∈ [0x00, 0x04, 0x08, 0x0C, 0x10, 0x2C, 0x30, 0x4C, 0x50, 0x54, 0x58, 0x5C, 0x60, 0x64, 0x68, 0x6C, 0x70, 0x7C],
      (idle [] [.hostRead off 4]).inputs = .hostRead off 4 :: [] ∧ off % 4 = 0 ∧ off < 128 := by
  intro off h
  exact ⟨rfl, by revert off; decide⟩

theorem wit_HostWriteActsByRights :
    ∀ off ∈ [0x00, 0x04, 0x0C, 0x10, 0x2C, 0x30, 0x6C, 0x7C],
      (idle [] [.hostWrite off 4 7]).inputs = .hostWrite off 4 7 :: [] ∧ (idle [] [.hostWrite off 4 7]).rstN = true ∧
        off % 4 = 0 ∧ off < 128 := by
  intro off h
  exact ⟨rfl, rfl, by revert off; decide⟩

/-- An access of a wrong width, one at a wrong offset, the first word outside the window, and the last one inside. -/
theorem wit_StopsExactlyOnAccessesOutsideTheInterface :
    step (idle [] [.hostRead 0 2]) = .refused (.hostAccessShape 0 2) ∧
      step (idle [] [.hostWrite 1 4 0]) = .refused (.hostAccessShape 1 4) ∧
      step (idle [] [.hostRead 128 4]) = .fault (.outsideWindow 128) ∧
      ∃ t, step (idle [] [.hostRead 124 4]) = .next t := ⟨rfl, rfl, rfl, _, rfl⟩

/-- An end by a failing transaction, by the last one of each command that completes then, and by a computation. -/
theorem wit_DoneEndsSetAfterAnEarlierClear :
    (let s := running .gain .gain [.read 0x500, .read 0x501] [.hostWrite 0x04 4 2, .chipAnswer no]
     s.inputs = .hostWrite 0x04 4 2 :: .chipAnswer no :: [] ∧ s.rstN = true ∧ s.running ≠ none ∧ s.orphan = none ∧
       s.todo = .read 0x500 :: [.read 0x501] ∧ no.ok = false ∧ (Stimulus.chipAnswer no).isEngine = true) ∧
    (∀ e ∈ [(Instr.gain, Phase.gain), (.cnrS1, .cnrS1), (.cnrS2, .cnrS2), (.tune, .agcNormal), (.berS1, .berRestart .s1 101 0)],
      let s := running e.1 e.2 [.read 0x506] [.hostWrite 0x04 4 6, .chipAnswer (yes 0)]
      s.inputs = .hostWrite 0x04 4 6 :: .chipAnswer (yes 0) :: [] ∧ s.rstN = true ∧ s.running ≠ none ∧ s.orphan = none ∧
        s.todo = [.read 0x506] ∧ (yes 0).ok = true ∧
        (s.phase ∈ [Phase.gain, .cnrS1, .cnrS2, .agcNormal] ∨ ∃ d win err, s.phase = .berRestart d win err)) ∧
    (∀ i ∈ [Instr.gold, .pll, .mclk, .tsclk, .lpf],
      let s := running i .computing [] [.hostWrite 0x04 4 0, .computeDone]
      s.inputs = .hostWrite 0x04 4 0 :: .computeDone :: [] ∧ s.rstN = true ∧ s.running ≠ none ∧ s.phase = .computing ∧
        s.running = some i) := by
  refine ⟨⟨rfl, rfl, by simp [running], rfl, rfl, rfl, rfl⟩, fun e he => ⟨rfl, rfl, by simp [running], rfl, rfl, rfl, ?_⟩,
    fun i _ => ⟨rfl, rfl, by simp [running], rfl, rfl⟩⟩
  simp only [List.mem_cons, List.not_mem_nil, or_false] at he
  rcases he with rfl | rfl | rfl | rfl | rfl
  · exact .inl (by simp [running])
  · exact .inl (by simp [running])
  · exact .inl (by simp [running])
  · exact .inl (by simp [running])
  · exact .inr ⟨_, _, _, rfl⟩

/-- After these ends the second step leaves no command running. -/
theorem wit_DoneEndsSetAfterAnEarlierClear_end :
    ∃ u, Sys2Proof.core.run 2 (running .gold .computing [] [.hostWrite 0x04 4 2, .computeDone]) = .next u ∧
      u.running = none := ⟨_, rfl, rfl⟩

/-! ## Reset -/

theorem wit_RstNLowResetsAndIgnoresWrites :
    (tuning .pollRead .polling .pollRead [.read 0x400] [.rstNLevel false]).inputs = .rstNLevel false :: [] ∧
      (let s := { idle [] [.hostWrite 0x08 4 0x10] with rstN := false }
       s.inputs = .hostWrite 0x08 4 0x10 :: [] ∧ s.rstN = false ∧ 0x08 % 4 = 0 ∧ 0x08 < 128) ∧
      (idle [] [.rstNLevel true]).inputs = .rstNLevel true :: [] := ⟨rfl, ⟨rfl, rfl, rfl, by decide⟩, rfl⟩

/-- With a command waiting for the bus, and with none. -/
theorem wit_AbandonedTransactionIsDiscarded :
    let s := { running .gain .gain [.read 0x500] [.chipAnswer (yes 3)] with orphan := some (.write 0x30 1) }
    let u := { idle [] [.chipAnswer no] with orphan := some (.burst 0x50 [1, 2]) }
    (s.inputs = .chipAnswer (yes 3) :: [] ∧ s.orphan = some (.write 0x30 1)) ∧
      u.inputs = .chipAnswer no :: [] ∧ u.orphan = some (.burst 0x50 [1, 2]) := ⟨⟨rfl, rfl⟩, rfl, rfl⟩

/-! ## System commands, ABORT -/

theorem wit_NopCompletes : Idle (idle [] []) ∧ ¬ Idle (running .gain .gain [.read 0x500] []) :=
  ⟨rfl, by simp [running, Idle]⟩

theorem wit_AbortCompletesRequestsOrDoesNothing :
    Idle (idle [] []) ∧ (tuning .pollWait .polling .pollWait [] []).running = some .tune ∧
      (running .gain .gain [.read 0x500] []).running = some .gain ∧ Instr.gain ≠ .tune := ⟨rfl, rfl, rfl, by decide⟩

/-- The end of a wait. -/
theorem wit_AbortIsHonouredAtStepBoundaries_wait :
    let s := { tuning .pollWait .polling .pollWait [] [.tick] with abortReq := true, waitLeft := 1 }
    s.running = some .tune ∧ s.abortReq = true ∧ s.orphan = none ∧ s.phase = .pollWait ∧ s.waitLeft = 1 ∧
      s.inputs = .tick :: [] := ⟨rfl, rfl, rfl, rfl, rfl, rfl⟩

/-- A TUNE with an abort requested whose outstanding transaction is the last of its phase and succeeds with a byte. -/
def aborting (st : SeqStep) (l : LockState) (p : Phase) (t : Txn) (b : Byte) : State :=
  { tuning st l p [t] [.chipAnswer (yes b)] with abortReq := true }

theorem wit_AbortIsHonouredAtStepBoundaries_answer (st : SeqStep) (l : LockState) (p : Phase) (t : Txn) (b : Byte) :
    let s := aborting st l p t b
    s.running = some .tune ∧ s.abortReq = true ∧ s.orphan = none ∧ s.todo = [t] ∧ (yes b).ok = true ∧ s.got = [] ∧
      s.inputs = .chipAnswer (yes b) :: [] ∧ s.phase = p ∧ s.seq = st ∧ s.lockState = l :=
  ⟨rfl, rfl, rfl, rfl, rfl, rfl, rfl, rfl, rfl, rfl⟩

/-- Both lock bytes, the 150th read without lock, the first, and the last that another follows. -/
theorem wit_AbortIsHonouredAtStepBoundaries_read :
    (∀ (b k : Byte),
      let s := { aborting .pollRead .polling .pollRead (.read 0x400) b with pollIter := k }
      s.running = some .tune ∧ s.abortReq = true ∧ s.orphan = none ∧ s.phase = .pollRead ∧ s.todo = [.read 0x400] ∧
        s.got = [] ∧ (yes b).ok = true ∧ s.inputs = .chipAnswer (yes b) :: [] ∧ (yes b).byte = b ∧ s.pollIter = k) ∧
    (0x8E : Byte) ≠ 0x8F ∧ (0x8E : Byte) ≠ 0xF7 ∧ (149 : Byte) + 1 = 150 ∧ (0 : Byte) + 1 ≠ 150 ∧ (148 : Byte) + 1 ≠ 150 := by
  exact ⟨fun _ _ => ⟨rfl, rfl, rfl, rfl, rfl, rfl, rfl, rfl, rfl, rfl⟩, by decide⟩

/-- After the inversion with NO_FILTER and without; after POST_AGC with the auxiliary clock and without; a slot count of 0. -/
theorem wit_AbortIsHonouredAtStepBoundaries_post :
    (∀ nf : Bool,
      let s := { aborting .postInv .locked .invWrite (.rmw 0x411 1 0) 0 with
        tr := { request (idle t1Args []) with nofilter := nf } }
      s.running = some .tune ∧ s.abortReq = true ∧ s.orphan = none ∧ s.todo = [.rmw 0x411 1 0] ∧
        s.inputs = .chipAnswer (yes 0) :: [] ∧ s.phase = .invWrite ∧ s.tr.nofilter = nf) ∧
    (∀ aux : Bool, ∀ l ∈ [LockState.locked, .timedOut],
      let s := { aborting .postAgc l .agcNormal (.write 0x30 0x22) 0 with
        cfg := { EX with options := { EX.options with auxPresent := aux } } }
      s.running = some .tune ∧ s.abortReq = true ∧ s.orphan = none ∧ s.todo = [.write 0x30 0x22] ∧
        s.inputs = .chipAnswer (yes 0) :: [] ∧ s.phase = .agcNormal ∧ s.lockState = l ∧ s.cfg.options.auxPresent = aux) ∧
    min (fieldOf EX.chipMap.fIsiCount (([] : List Answer) ++ [yes 0])) EX.options.isiMaxSlots = 0 :=
  ⟨fun _ => ⟨rfl, rfl, rfl, rfl, rfl, rfl, rfl⟩, fun _ _ _ => ⟨rfl, rfl, rfl, rfl, rfl, rfl, rfl, rfl⟩, by decide⟩

/-- A request that every check of CHECK lets through. -/
theorem t1_requestOk : RequestOk EX (request (idle t1Args [])) := by unfold RequestOk; decide +kernel

/-- The plan of T1. -/
def t1Plan : TunePlan := (makePlan EX (request (idle t1Args [])) TunePlan.reset).1

theorem t1_makePlan : makePlan EX (request (idle t1Args [])) TunePlan.reset = (t1Plan, none) := by decide +kernel

theorem wit_AbortIsHonouredAtStepBoundaries_check :
    let s := { tuning .check .idle .computing [] [.computeDone] with abortReq := true }
    s.running = some .tune ∧ s.abortReq = true ∧ s.orphan = none ∧ s.phase = .computing ∧ RequestOk s.cfg s.tr ∧
      makePlan s.cfg s.tr s.plan = (t1Plan, none) ∧ s.inputs = .computeDone :: [] :=
  ⟨rfl, rfl, rfl, rfl, t1_requestOk, t1_makePlan, rfl⟩

/-! ## GOLD -/

theorem wit_LfsrStepShiftsFeedbackIn : 0 < 18 ∧ 16 < 18 ∧ 17 < 18 := by decide

theorem wit_CheckpointTableIsTheReference : 0 < 53 ∧ 52 < 53 := by decide

/-- EX with the other overrange mode. -/
def exAdvance : Config := { EX with gold := { EX.gold with overrange := .advance } }

/-- The last index in range, the first outside it clamped and not, and checkpoints 0 and 52. -/
theorem wit_GoldComputes :
    ∀ e ∈ [(EX, 4999, 4999, 0, 4999), (EX, 260000, 260000, 52, 0), (EX, 260001, 260000, 52, 0),
        (exAdvance, 260001, 260001, 52, 1)],
      let s := idleOf e.1 [BitVec.ofNat 32 e.2.1]
      Idle s ∧ Prompt s ∧
        e.2.2.1 = (if s.cfg.gold.overrange = .clampIndex ∧ s.args[0].toNat > 260000 then 260000 else s.args[0].toNat) ∧
        e.2.2.2.1 = min (e.2.2.1 / 5000) 52 ∧ e.2.2.2.2 = e.2.2.1 - 5000 * e.2.2.2.1 := by
  intro e he
  refine ⟨rfl, prompt_of_none rfl, ?_⟩
  simp only [List.mem_cons, List.not_mem_nil, or_false] at he
  rcases he with rfl | rfl | rfl | rfl <;> decide +kernel

/-- A gold configuration with tap 9, whose states recur after 27 steps, so that its table is quickly checked. -/
def goldTap9 : GoldConfig :=
  { seed := 1, tap := 9, overrange := .advance
    checkpoints := Vector.ofFn fun k => lfsrIter 9 (5000 * k.val % 27) 1 }

theorem lfsrIter_add (tap : Fin 18) (a b : Nat) (s : GoldCode) : lfsrIter tap (a + b) s = lfsrIter tap b (lfsrIter tap a s) := by
  induction a generalizing s with
  | zero => rw [Nat.zero_add]; rfl
  | succ a ih => rw [Nat.succ_add]; exact ih _

theorem lfsr_tap9_cycle : lfsrIter 9 27 1 = 1 := by decide +kernel

theorem lfsr_tap9_recurs (q r : Nat) : lfsrIter 9 (27 * q + r) 1 = lfsrIter 9 r 1 := by
  induction q with
  | zero => rw [Nat.mul_zero, Nat.zero_add]
  | succ q ih =>
    have h : 27 * (q + 1) + r = 27 + (27 * q + r) := by omega
    rw [h, lfsrIter_add, lfsr_tap9_cycle, ih]

theorem wit_gold_table : GoldTableOk goldTap9 := by
  intro k hk
  have h : goldRef goldTap9 (Config.goldSpacing * k) = lfsrIter 9 (5000 * k % 27) 1 := by
    show lfsrIter 9 (5000 * k) 1 = _
    conv => lhs; rw [← Nat.div_add_mod (5000 * k) 27]
    exact lfsr_tap9_recurs _ _
  rw [h]
  clear h
  revert k
  decide +kernel

/-- Both sides of the range's end, under ADVANCE and under CLAMP_INDEX. -/
theorem wit_GoldEqualsReference :
    (∀ v ∈ [(0 : Word), 260000, 260001, 0xFFFFFFFF],
      let s := idleOf { EX with gold := goldTap9 } [v]
      Idle s ∧ Prompt s ∧ GoldTableOk s.cfg.gold ∧ (s.args[0].toNat ≤ 260000 ∨ s.cfg.gold.overrange = .advance)) ∧
      let s := idleOf { EX with gold := { goldTap9 with overrange := .clampIndex } } [260000]
      Idle s ∧ Prompt s ∧ GoldTableOk s.cfg.gold ∧ (s.args[0].toNat ≤ 260000 ∨ s.cfg.gold.overrange = .advance) :=
  ⟨fun _ _ => ⟨rfl, prompt_of_none rfl, wit_gold_table, .inr rfl⟩,
    rfl, prompt_of_none rfl, wit_gold_table, .inl (by decide)⟩

theorem wit_PlsBytesAreLeastSignificantFirst : (0 : Nat) = 0 ∧ (1 : Nat) ≠ 0 := by decide

/-! ## PLL, MCLK, TSCLK, LPF -/

theorem wit_BandLookupIsTotal : EX.bandsOk = true := by decide +kernel

/-- Both sides of a bound, and the ends of the range. -/
theorem wit_BandLookupIsTotal_values :
    [0, 999, 1000, 1899, 1900, 4294967295].map (bandIndex EX.clock) = [8, 8, 7, 1, 0, 0] := by decide +kernel

/-- Band 8 with a low second path, and band 0 with a high one. -/
def exPll : Config :=
  { EX with clock := { exClock with bands := (exClock.bands.set 8 ⟨0, 12, 0, 2, 0⟩).set 0 ⟨1900, 2, 0, 12, 0⟩ } }

theorem wit_PllComputes_refClock :
    ∀ r ∈ [(0 : Word), 23999, 24001, 26999, 27001],
      let s := idle [1200, r] []
      Idle s ∧ Prompt s ∧ s.args[1].toNat ≠ 27000 ∧ s.args[1].toNat ≠ 24000 := by
  intro r hr
  refine ⟨rfl, prompt_of_none rfl, ?_⟩
  simp only [List.mem_cons, List.not_mem_nil, or_false] at hr
  rcases hr with rfl | rfl | rfl | rfl | rfl <;> decide +kernel

/-- The hypotheses of PllComputes' second half at a frequency, a reference clock and its divider. -/
def pllAt (c : Config) (m r b rd q1 q2 : Nat) : Bool :=
  let s := idleOf c [BitVec.ofNat 32 m, BitVec.ofNat 32 r]
  let bands := s.cfg.clock.bands.toList
  (r == 27000 || r == 24000) && s.args[0].toNat == m && s.args[1].toNat == r
    && decide ((bands.getD b default).loMhz ≤ m) && decide (b < 9)
    && (List.range b).all (fun j => decide (m < (bands.getD j default).loMhz))
    && rd == (if r = 27000 then s.cfg.clock.refDiv27 else s.cfg.clock.refDiv24).toNat
    && q1 == pathQ m r rd (bands.getD b default).div1 && q2 == pathQ m r rd (bands.getD b default).div2

/-- Q1 at 1023 or less and at 1024, N1 at 4095 and above, the same of path 2, both reference clocks, and band edges: each
clause of PllComputes, under a configuration in which its path differs. -/
theorem wit_PllComputes :
    (pllAt EX 127 27000 8 19 1016 1016 = true ∧ 1016 < 1024) ∧
    (pllAt EX 4608 27000 0 19 9216 9216 = true ∧ 1024 ≤ 9216 ∧ 4095 < pathN 9216) ∧
    (pllAt exPll 100 27000 8 19 1200 200 = true ∧ 1024 ≤ 1200 ∧ pathN 1200 ≤ 4095 ∧ 200 < 1024) ∧
    (pllAt exPll 2000 27000 0 19 4000 24000 = true ∧ 1024 ≤ 4000 ∧ pathN 4000 ≤ 4095 ∧ 1024 ≤ 24000 ∧ 4095 < pathN 24000) ∧
    (pllAt EX 128 27000 8 19 1024 1024 = true ∧ pathN 1024 ≤ 4095) ∧
    (pllAt EX 4607 27000 0 19 9214 9214 = true ∧ pathN 9214 ≤ 4095) ∧
    (pllAt EX 999 24000 8 16 7992 7992 = true ∧ pathN 7992 ≤ 4095) ∧
    (pllAt EX 1000 24000 7 16 6000 8000 = true ∧ pathN 6000 ≤ 4095 ∧ pathN 8000 ≤ 4095) := by decide +kernel

theorem wit_PllComputes_idle (c : Config) (l : List Word) : Idle (idleOf c l) ∧ Prompt (idleOf c l) :=
  ⟨rfl, prompt_of_none rfl⟩

theorem wit_FoldedOffsetIsTheNearestMultiple : 0 < 1 ∧ 0 < 96000 := by decide

theorem wit_MclkSelectsTheFarthestCandidate :
    let s := idle [1200000, 46000000] []
    let u := idle [1200000, 45999999] []
    (Idle s ∧ Prompt s ∧ 46000000 ≤ s.args[1].toNat) ∧ Idle u ∧ Prompt u ∧ u.args[1].toNat < 46000000 :=
  ⟨⟨rfl, prompt_of_none rfl, by decide⟩, rfl, prompt_of_none rfl, by decide⟩

/-- mclk 0; div at each end of each range of R166, and one that does not fit 32 bits. -/
theorem wit_TsclkComputes :
    (let s := idle [1, 0] []
     Idle s ∧ Prompt s ∧ s.args[1].toNat = 0) ∧
    ∀ e ∈ [((0 : Word), (1 : Word), 0), (32, 36000, 32), (33, 36000, 33), (48, 36000, 48), (49, 36000, 49), (64, 36000, 64),
        (65, 36000, 65), (0xFFFFFFFF, 1, 154618822620000)],
      let s := idle [e.1, e.2.1] []
      Idle s ∧ Prompt s ∧ 0 < s.args[1].toNat ∧ e.2.2 = 9000 * s.args[0].toNat * 4 / s.args[1].toNat := by
  refine ⟨⟨rfl, prompt_of_none rfl, rfl⟩, fun e he => ⟨rfl, prompt_of_none rfl, ?_⟩⟩
  revert e
  decide

theorem wit_TapsSumAndAvoidTheForbiddenRange : 0 ≤ 64 ∧ 64 ≤ 64 := by decide

theorem wit_LpfComputes : Idle (idle [4999999, 950000000] []) ∧ Prompt (idle [4999999, 950000000] []) :=
  ⟨rfl, prompt_of_none rfl⟩

theorem wit_HeldComputationEndsTheSame :
    ∀ i ∈ [Instr.gold, .pll, .mclk, .tsclk, .lpf, .tune],
      let s := idle [1200, 27000] [.computeHold, .hostWrite 0x10 4 7]
      i ∈ [Instr.gold, .pll, .mclk, .tsclk, .lpf, .tune] ∧ Idle s ∧ s.inputs = .computeHold :: [.hostWrite 0x10 4 7] ∧
        Waits [.hostWrite 0x10 4 7] ∧ (∀ l, ([.hostRead 4 4] : List Stimulus) ≠ .computeHold :: l) ∧
        (i = .tune → s.chipReady = true ∧ Waits [.hostRead 4 4]) ∧ s.rstN = true := by
  intro i hi
  exact ⟨hi, rfl, rfl, fun x rest h => (by cases h; rfl), fun l h => (by cases h),
    fun _ => ⟨rfl, fun x rest h => (by cases h; rfl)⟩, rfl⟩

/-! ## TUNE -/

theorem wit_NotReadyEndsBusCommandsAtOnce :
    let s := { idle t1Args [] with chipReady := false }
    Idle s ∧ s.chipReady = false := ⟨rfl, rfl⟩

/-- The request of a frequency, a symbol rate and an ARG2. -/
def reqOf (f sr d : Word) : TuneRequest := request (idle [f, sr, d, 0, 0, 100] [])

/-- One request for each check, at both ends of each range; one fails the first check and the second. -/
theorem wit_TuneRejectsBadRequests :
    (∀ f sr d : Word,
      let s := idle [f, sr, d, 0, 0, 100] []
      Idle s ∧ s.chipReady = true ∧ Prompt s ∧ reqOf f sr d = request s) ∧
    ((reqOf 949999999 27500000 1).freqHz.toNat < 950000000 ∧ 2150000000 < (reqOf 2150000001 27500000 1).freqHz.toNat ∧
      (reqOf 949999999 999999 1).freqHz.toNat < 950000000) ∧
    (950000000 ≤ (reqOf 950000000 999999 1).freqHz.toNat ∧ (reqOf 950000000 999999 1).freqHz.toNat ≤ 2150000000 ∧
      (reqOf 950000000 999999 1).sr.toNat < EX.clock.srMin) ∧
    (950000000 ≤ (reqOf 2150000000 60000001 1).freqHz.toNat ∧ (reqOf 2150000000 60000001 1).freqHz.toNat ≤ 2150000000 ∧
      EX.clock.srMax < (reqOf 2150000000 60000001 1).sr.toNat) ∧
    (EX.clock.srMin ≤ (reqOf 950000000 1000000 2).sr.toNat ∧ (reqOf 950000000 1000000 2).sr.toNat ≤ EX.clock.srMax ∧
      1 < (reqOf 950000000 1000000 2).delsys.toNat) ∧
    (EX.clock.srMin ≤ (reqOf 950000000 60000000 3).sr.toNat ∧ (reqOf 950000000 60000000 3).sr.toNat ≤ EX.clock.srMax ∧
      1 < (reqOf 950000000 60000000 3).delsys.toNat) ∧
    (reqOf 950000000 1000000 0x51).delsys.toNat ≤ 1 ∧ 4 < (reqOf 950000000 1000000 0x51).mod.toNat := by
  refine ⟨fun _ _ _ => ⟨rfl, rfl, prompt_of_none rfl, rfl⟩, ?_⟩
  decide +kernel

/-- EX with a reference divider that makes every Q low, one that makes N high, and no high master clock. -/
def exLow : Config :=
  { EX with clock := { exClock with refDiv27 := 0, bands := exClock.bands.set 8 ⟨0, 2, 0, 2, 0⟩ } }

@[inherit_doc exLow]
def exHigh : Config := { EX with clock := { exClock with refDiv27 := 100 } }

@[inherit_doc exLow]
def exNoClock : Config := { EX with clock := { exClock with mclkHighKhz := 0 } }

theorem wit_TuneRejectsUnreachableDividers :
    ∀ e ∈ [(exLow, (27500000 : Word), ParamCheck.dividerLow), (exHigh, 27500000, .dividerHigh), (exNoClock, 46000000, .mclkZero)],
      let s := idleOf e.1 [950000000, e.2.1, 1, 0, 0, 100]
      Idle s ∧ s.chipReady = true ∧ Prompt s ∧ RequestOk s.cfg (request s) ∧
        makePlan s.cfg (request s) s.plan = ((makePlan s.cfg (request s) s.plan).1, some e.2.2) := by
  intro e he
  refine ⟨rfl, rfl, prompt_of_none rfl, ?_⟩
  unfold RequestOk
  simp only [List.mem_cons, List.not_mem_nil, or_false] at he
  rcases he with rfl | rfl | rfl <;> decide +kernel

theorem wit_PlanHoldsTheSynthesizersValues :
    makePlan EX (request (idle t1Args [])) TunePlan.reset = (t1Plan, none) := t1_makePlan

theorem wit_TuneEntersProgramming :
    let s := idle t1Args []
    Idle s ∧ s.chipReady = true ∧ Prompt s ∧ Waits s.inputs ∧ s.orphan = none ∧ RequestOk s.cfg (request s) ∧
      makePlan s.cfg (request s) s.plan = (t1Plan, none) ∧
      s.cfg.programs.resetPulse = .write 0x0000 0x01 :: [.write 0x0000 0x00] :=
  ⟨rfl, rfl, prompt_of_none rfl, waits_none, rfl, t1_requestOk, t1_makePlan, rfl⟩

theorem wit_TuneLocksOnDvbS :
    let s := idle t1Args (answers (List.replicate 21 (yes 0)) ++ .chipAnswer (yes 0xF7) :: (answers [yes 0] ++ []))
    Idle s ∧ s.chipReady = true ∧ s.orphan = none ∧ RequestOk s.cfg (request s) ∧
      makePlan s.cfg (request s) s.plan = (t1Plan, none) ∧
      AllSucceed (programmingTxns s.cfg (request s) t1Plan) (List.replicate 21 (yes 0)) ∧ (yes 0xF7).ok = true ∧
      (yes 0xF7).byte = 0xF7 ∧ AllSucceed s.cfg.programs.agcNormal [yes 0] ∧
      s.inputs = answers (List.replicate 21 (yes 0)) ++ .chipAnswer (yes 0xF7) :: (answers [yes 0] ++ []) := by
  refine ⟨rfl, rfl, rfl, t1_requestOk, t1_makePlan, ?_, rfl, rfl, ?_, rfl⟩ <;> (unfold AllSucceed; decide +kernel)

/-- Both lock bytes, and a byte that is neither at the last read and at the one before it. -/
theorem wit_LockStatusReadDecides :
    (∀ e ∈ [((0x8F : Byte), (0 : Byte)), (0xF7, 149), (0x8E, 149), (0xFF, 148)],
      let s := { tuning .pollRead .polling .pollRead [.read 0x400] [.chipAnswer (yes e.1)] with pollIter := e.2 }
      s.running = some .tune ∧ s.phase = .pollRead ∧ s.todo = [.read 0x400] ∧ s.got = [] ∧ s.orphan = none ∧
        s.abortReq = false ∧ (yes e.1).ok = true ∧ s.inputs = .chipAnswer (yes e.1) :: [] ∧
        readsOf [s.cfg.chipMap.fInvSrc] = .read 0x410 :: [] ∧ s.cfg.programs.agcNormal = .write 0x30 0x22 :: []) ∧
    ((0x8E : Byte) ≠ 0x8F ∧ (0x8E : Byte) ≠ 0xF7 ∧ (149 : Byte) + 1 = 150) ∧
    ((0xFF : Byte) ≠ 0x8F ∧ (0xFF : Byte) ≠ 0xF7 ∧ (148 : Byte) + 1 ≠ 150) := by
  exact ⟨fun e _ => ⟨rfl, rfl, rfl, rfl, rfl, rfl, rfl, rfl, rfl, rfl⟩, by decide, by decide⟩

theorem wit_WaitCountsTicks :
    (idle [] [.tick]).phase ≠ .pollWait ∧ (tuning .pollWait .polling .pollWait [] [.tick]).waitLeft = 0 ∧
    (let s := { tuning .pollWait .polling .pollWait [] [.tick] with waitLeft := 2 }
     s.inputs = .tick :: [] ∧ s.phase = .pollWait ∧ 1 < s.waitLeft.toNat) ∧
    (let s := { tuning .pollWait .polling .pollWait [] [.tick] with waitLeft := 1 }
     s.inputs = .tick :: [] ∧ s.phase = .pollWait ∧ s.waitLeft = 1 ∧ s.abortReq = false ∧ s.orphan = none) :=
  ⟨by simp [idle, State.reset], rfl, ⟨rfl, rfl, by decide⟩, rfl, rfl, rfl, rfl, rfl⟩

theorem wit_PollingTimesOutAfter150Reads :
    let as := List.replicate 149 (yes 0x8E)
    let s := tuning .pollRead .polling .pollRead [.read 0x400] (pollRounds as ++ .chipAnswer (yes 0) :: [])
    s.running = some .tune ∧ s.phase = .pollRead ∧ s.lockState = .polling ∧ s.seq = .pollRead ∧
      s.todo = [.read s.cfg.chipMap.lockStatusAddr] ∧ s.got = [] ∧ s.orphan = none ∧ s.abortReq = false ∧ s.pollIter = 0 ∧
      as.length = 149 ∧ (∀ a ∈ as, notLocked a) ∧ notLocked (yes 0) ∧
      s.cfg.programs.agcNormal = .write 0x30 0x22 :: [] ∧ s.inputs = pollRounds as ++ .chipAnswer (yes 0) :: [] := by
  refine ⟨rfl, rfl, rfl, rfl, rfl, rfl, rfl, rfl, rfl, rfl, ?_, by unfold notLocked; decide, rfl, rfl⟩
  intro a ha
  rw [List.eq_of_mem_replicate ha]
  unfold notLocked
  decide

/-- The polarity bit clear and set; then the read-modify-write done, with NO_FILTER and without. -/
theorem wit_InversionIsCopiedDownstream :
    (∀ b ∈ [(0x00 : Byte), 0x08],
      let s := tuning .postInv .locked .invRead [.read 0x410] [.chipAnswer (yes b)]
      s.running = some .tune ∧ s.orphan = none ∧ (yes b).ok = true ∧ s.inputs = .chipAnswer (yes b) :: [] ∧
        s.phase = .invRead ∧ s.todo = [.read 0x410] ∧ s.got = ([] : List Answer).map Answer.byte) ∧
    ∀ nf : Bool,
      let s := { tuning .postInv .locked .invWrite [.rmw 0x411 1 1] [.chipAnswer (yes 0xFE)] with
        tr := { request (idle t1Args []) with nofilter := nf } }
      s.running = some .tune ∧ s.orphan = none ∧ (yes 0xFE).ok = true ∧ s.inputs = .chipAnswer (yes 0xFE) :: [] ∧
        s.phase = .invWrite ∧ s.todo = [.rmw 0x411 1 1] ∧ s.abortReq = false ∧
        readsOf [s.cfg.chipMap.fIsiCount] = .read 0x420 :: [] ∧ s.cfg.programs.agcNormal = .write 0x30 0x22 :: [] ∧
        s.tr.nofilter = nf :=
  ⟨fun _ _ => ⟨rfl, rfl, rfl, rfl, rfl, rfl, rfl⟩, fun _ => ⟨rfl, rfl, rfl, rfl, rfl, rfl, rfl, rfl, rfl, rfl⟩⟩

/-- A count of 0, one below and at ISI_MAX_SLOTS, and two above it. -/
theorem wit_IsiScanSelectsFirstMatchOrFirstSlot_count :
    ∀ e ∈ [((0 : Byte), 0), (15, 15), (16, 16), (17, 16), (255, 16)],
      let s := tuning .postIsi .locked .isiCount [.read 0x420] [.chipAnswer (yes e.1)]
      s.running = some .tune ∧ s.orphan = none ∧ s.phase = .isiCount ∧ s.todo = [.read 0x420] ∧
        s.got = ([] : List Answer).map Answer.byte ∧ s.abortReq = false ∧ (yes e.1).ok = true ∧
        s.inputs = .chipAnswer (yes e.1) :: [] ∧ s.cfg.programs.agcNormal = .write 0x30 0x22 :: [] ∧
        e.2 = min (fieldOf s.cfg.chipMap.fIsiCount (([] : List Answer) ++ [yes e.1])) s.cfg.options.isiMaxSlots := by
  intro e he
  refine ⟨rfl, rfl, rfl, rfl, rfl, rfl, rfl, rfl, rfl, ?_⟩
  show e.2 = min (fieldOf EX.chipMap.fIsiCount ([] ++ [yes e.1])) EX.options.isiMaxSlots
  revert e
  decide

/-- A match in the first slot and in the last one; no match in one slot and in three. -/
theorem wit_IsiScanSelectsFirstMatchOrFirstSlot :
    (∀ miss ∈ [[], [yes 2, yes 3]],
      let s := tuning .postIsi .locked (.isiSlot 0 3 0) [.read 0x430] (answers miss ++ .chipAnswer (yes 0) :: [])
      s.running = some .tune ∧ s.phase = .isiSlot 0 3 0 ∧ s.todo = [.read s.cfg.chipMap.isiSlotAddr] ∧ s.got = [] ∧
        s.orphan = none ∧ (∀ a ∈ miss, a.ok = true ∧ a.byte ≠ s.tr.isi) ∧ miss.length < 3 ∧ (yes 0).ok = true ∧
        (yes 0).byte = s.tr.isi ∧ s.inputs = answers miss ++ .chipAnswer (yes 0) :: []) ∧
    (∀ e ∈ [(yes 2, []), (yes 2, [yes 5, yes 7])],
      let miss := e.1 :: e.2
      let s := tuning .postIsi .locked (.isiSlot 0 miss.length 0) [.read 0x430] (answers miss ++ [])
      s.running = some .tune ∧ s.phase = .isiSlot 0 miss.length 0 ∧ s.todo = [.read s.cfg.chipMap.isiSlotAddr] ∧
        s.got = [] ∧ s.orphan = none ∧ (∀ a ∈ miss, a.ok = true ∧ a.byte ≠ s.tr.isi) ∧
        s.inputs = answers miss ++ []) := by
  refine ⟨fun miss h => ⟨rfl, rfl, rfl, rfl, rfl, ?_, ?_, rfl, rfl, rfl⟩, fun e h => ⟨rfl, rfl, rfl, rfl, rfl, ?_, rfl⟩⟩
  · show ∀ a ∈ miss, a.ok = true ∧ a.byte ≠ 0
    revert miss; decide
  · revert miss; decide
  · show ∀ a ∈ e.1 :: e.2, a.ok = true ∧ a.byte ≠ 0
    revert e; decide

theorem wit_IsiSelectionIsShown :
    let s := tuning .postIsi .locked (.isiSelect 5) [.write 0x421 5] [.chipAnswer (yes 0)]
    s.running = some .tune ∧ s.phase = .isiSelect 5 ∧ s.todo = [.write 0x421 5] ∧ s.orphan = none ∧ s.abortReq = false ∧
      (yes 0).ok = true ∧ s.inputs = .chipAnswer (yes 0) :: [] ∧ s.cfg.programs.agcNormal = .write 0x30 0x22 :: [] :=
  ⟨rfl, rfl, rfl, rfl, rfl, rfl, rfl, rfl⟩

/-- After Locked and after TimedOut. -/
theorem wit_TuneCompletesAfterAgc :
    ∀ e ∈ [(LockState.locked, (3 : Word)), (.timedOut, 4)],
      let s := tuning .postAgc e.1 .agcNormal [.write 0x30 0x22] [.chipAnswer (yes 0)]
      s.running = some .tune ∧ s.phase = .agcNormal ∧ s.todo = [.write 0x30 0x22] ∧ s.orphan = none ∧ s.abortReq = false ∧
        (yes 0).ok = true ∧ s.inputs = .chipAnswer (yes 0) :: [] ∧
        (s.lockState = .locked ∧ e.2 = 3 ∨ s.lockState = .timedOut ∧ e.2 = 4) := by
  intro e he
  refine ⟨rfl, rfl, rfl, rfl, rfl, rfl, rfl, ?_⟩
  show e.1 = .locked ∧ e.2 = 3 ∨ e.1 = .timedOut ∧ e.2 = 4
  revert e
  decide

/-! ## The chip bus -/

/-- Every kind of transaction, under TUNE and under GAIN. -/
theorem wit_TransportFailureEndsTheCommand :
    ∀ t ∈ [Txn.read 0x400, .write 0x100 0x13, .burst 0x50 [1, 2], .rmw 0x411 1 1], ∀ i ∈ [Instr.tune, .gain],
      let s := { running i .program [t] [.chipAnswer no] with seq := .pPll }
      s.running = some i ∧ s.orphan = none ∧ s.todo = t :: [] ∧ no.ok = false ∧ s.inputs = .chipAnswer no :: [] :=
  fun _ _ _ _ => ⟨rfl, rfl, rfl, rfl, rfl⟩

/-- Every kind of transaction, a burst of no bytes and one that wraps among them. -/
theorem wit_TransactionDeliversItsBytes :
    ∀ t ∈ [Txn.read 0x400, .write 0x100 0x13, .burst 0x50 [], .burst 0xFFFF [1, 2], .rmw 0x411 1 1],
      let s := tuning .pPll .programming .program [t, .write 0 0] [.chipAnswer (yes 7)]
      s.running ≠ none ∧ s.orphan = none ∧ s.todo = t :: .write 0 0 :: [] ∧ (yes 7).ok = true ∧
        s.inputs = .chipAnswer (yes 7) :: [] :=
  fun _ _ => ⟨by simp [tuning, running], rfl, rfl, rfl, rfl⟩

theorem wit_ComputationsTouchNoBus :
    ∀ i ∈ [Instr.gold, .pll, .mclk, .tsclk, .lpf, .nop, .abort, .reset],
      let s := idle [1200, 27000] []
      Idle s ∧ s.todo = [] ∧ ∃ t, exec i s = .next t := by
  intro i _
  refine ⟨rfl, rfl, ?_⟩
  cases i <;> exact ⟨_, rfl⟩

/-! ## Signal quality -/

/-- FieldsAnswered as a test. -/
def answered : List FieldDesc → List (List Answer) → Bool
  | [], [] => true
  | f :: fs, g :: gs => g.length == f.nbytes && g.all (·.ok) && answered fs gs
  | _, _ => false

theorem fieldsAnswered_of_answered : ∀ (fs : List FieldDesc) (gs : List (List Answer)), answered fs gs = true →
    FieldsAnswered fs gs
  | [], [], _ => trivial
  | f :: fs, g :: gs, h => by
    simp only [answered, Bool.and_eq_true, beq_iff_eq, List.all_eq_true] at h
    exact ⟨h.1.1, h.1.2, fieldsAnswered_of_answered fs gs h.2⟩
  | [], _ :: _, h => by simp [answered] at h
  | _ :: _, [], h => by simp [answered] at h

/-- One-byte answers, one for each field. -/
def bytes (l : List Byte) : List (List Answer) := l.map fun b => [yes b]

/-- Both ends of each regime, codes at 0 and at the byte's end, and both sum modes. -/
theorem wit_GainComputes :
    ∀ e ∈ [((0 : Word), (0 : Byte)), (1349, 255), (1350, 0x37), (1749, 15), (1750, 16), (0xFFFFFFFF, 1)],
    ∀ mode ∈ [GainSumMode.inclusive, .exclusive],
      let gs := bytes [e.2, e.2, 1, e.2, 5, 2, e.2]
      let s := { idle [e.1] (answers gs.flatten ++ []) with
        cfg := { EX with quality := { exQuality with gainSumMode := mode } } }
      let fs := [s.cfg.chipMap.fRf, s.cfg.chipMap.fIf, s.cfg.chipMap.fTia, s.cfg.chipMap.fBb, s.cfg.chipMap.fPga2Int,
        s.cfg.chipMap.fPga2Frac, s.cfg.chipMap.fBbp]
      Idle s ∧ s.chipReady = true ∧ s.orphan = none ∧ FieldsAnswered fs gs ∧ s.inputs = answers gs.flatten ++ [] ∧
        valueAt fs gs 6 < 256 ∧ s.cfg.gainTablesOk = true := by
  intro e he mode hm
  simp only [List.mem_cons, List.not_mem_nil, or_false] at he hm
  rcases hm with rfl | rfl <;> rcases he with rfl | rfl | rfl | rfl | rfl | rfl <;>
    exact ⟨rfl, rfl, rfl, fieldsAnswered_of_answered _ _ rfl, rfl, by decide +kernel, by decide +kernel⟩

/-- The named sums of GainComputes' hypotheses, for the first row of section 4.9. -/
theorem wit_GainComputes_values :
    let fs := [EX.chipMap.fRf, EX.chipMap.fIf, EX.chipMap.fTia, EX.chipMap.fBb, EX.chipMap.fPga2Int,
      EX.chipMap.fPga2Frac, EX.chipMap.fBbp]
    let v := valueAt fs (bytes [3, 2, 1, 4, 5, 2, 0x37])
    (∀ (tab : List Int) (code : Nat) (sum : Int),
      (tab, code, sum) ∈ [(EX.quality.gainRfTab[(0 : Fin 3)], v 0, (87 : Int)), (EX.quality.gainIfTab[(0 : Fin 3)], v 1, 40),
        (EX.quality.gainBbTab[(0 : Fin 3)], v 3, 60)] →
      sum = ((List.range (min code (tab.length - 1) + 1)).map (tab.getD · 0)).sum) ∧
    (60 : Int) = (v 2 : Int) * EX.quality.tiaStep ∧
    (170 : Int) = (v 4 : Int) * EX.quality.pga2IntStep + (v 5 : Int) * EX.quality.pga2FracStep ∧
    (∀ (hi lo : Fin 16), v 6 = 16 * hi.val + lo.val → (-637 : Int) = EX.quality.bbpTab[hi][lo]) ∧ v 6 < 256 := by
  refine ⟨?_, by decide +kernel, by decide +kernel, by decide +kernel, by decide +kernel⟩
  intro tab code sum h
  simp only [List.mem_cons, List.not_mem_nil, or_false, Prod.mk.injEq] at h
  rcases h with ⟨rfl, rfl, rfl⟩ | ⟨rfl, rfl, rfl⟩ | ⟨rfl, rfl, rfl⟩ <;> decide +kernel

/-- Averages 0, 32, and above the clamp. -/
theorem wit_CnrS1Computes :
    ∀ e ∈ [((0 : Byte), (0 : Fin 33)), (32, 32), (255, 32)],
      let gs := bytes (List.replicate 10 e.1)
      let s := idle [] (answers gs.flatten ++ [])
      let fs := List.replicate 10 s.cfg.chipMap.fNeS1
      Idle s ∧ s.chipReady = true ∧ s.orphan = none ∧ FieldsAnswered fs gs ∧ s.inputs = answers gs.flatten ++ [] ∧
        e.2.val = min (((List.range 10).map (valueAt fs gs)).sum / 10) 32 := by
  intro e he
  refine ⟨rfl, rfl, rfl, fieldsAnswered_of_answered _ _ rfl, rfl, ?_⟩
  simp only [List.mem_cons, List.not_mem_nil, or_false] at he
  rcases he with rfl | rfl | rfl <;> decide +kernel

/-- The averages and the index of CNR_S2's hypotheses for ten equal samples. -/
def cnrS2At (a b c : Byte) (sig noise idx : Nat) : Bool :=
  let gs := (List.replicate 10 (bytes [a, b, c])).flatten
  let fs := (List.replicate 10 [EX.chipMap.fSigS2, EX.chipMap.fNoiseHi, EX.chipMap.fNoiseLo]).flatten
  let v := valueAt fs gs
  sig == ((List.range 10).map (fun k => v (3 * k) * v (3 * k))).sum / 10
    && noise == ((List.range 10).map (fun k => (v (3 * k + 1) * 2 ^ EX.quality.noiseLoWidth
      + v (3 * k + 2) % 2 ^ EX.quality.noiseLoWidth) % 2 ^ 14)).sum / 10
    && (sig == 0 || noise == 0 || idx == min (if noise ≤ sig then sig / noise else noise / sig) 80 - 1)

theorem wit_CnrS2Computes (a b c : Byte) :
    let gs := (List.replicate 10 (bytes [a, b, c])).flatten
    let s := idle [] (answers gs.flatten ++ [])
    Idle s ∧ s.chipReady = true ∧ s.orphan = none ∧
      FieldsAnswered (List.replicate 10 [s.cfg.chipMap.fSigS2, s.cfg.chipMap.fNoiseHi, s.cfg.chipMap.fNoiseLo]).flatten gs ∧
      s.inputs = answers gs.flatten ++ [] :=
  ⟨rfl, rfl, rfl, fieldsAnswered_of_answered _ _ rfl, rfl⟩

/-- The three zero cases, equal averages, the least and the greatest index each way. -/
theorem wit_CnrS2Computes_clauses :
    cnrS2At 0 0 0 0 0 0 = true ∧ cnrS2At 10 0 0 100 0 0 = true ∧ cnrS2At 0 1 0 0 64 0 = true ∧
      cnrS2At 8 1 0 64 64 0 = true ∧ cnrS2At 255 0 5 65025 5 79 = true ∧ cnrS2At 7 1 0 49 64 0 = true ∧
      cnrS2At 1 0xFF 0x3F 1 16383 79 = true := by decide +kernel

/-- A window of 0 and one at the threshold. -/
theorem wit_BerWindowAtThresholdIsNotAccepted :
    ∀ e ∈ [(Dvb.s1, [yes 0, yes 0], 0), (.s1, [yes 100, yes 0], 100), (.s2, [yes 0, yes 0], 0), (.s2, [yes 0x0F, yes 0xA0], 4000)],
      let s := idle [] (answers e.2.1 ++ [])
      Idle s ∧ s.chipReady = true ∧ s.orphan = none ∧ FieldsAnswered [(berRow s.cfg e.1).1] [e.2.1] ∧
        s.inputs = answers e.2.1 ++ [] ∧ e.2.2 = fieldOf (berRow s.cfg e.1).1 e.2.1 ∧ e.2.2 ≤ (berRow s.cfg e.1).2.2.1 := by
  intro e he
  simp only [List.mem_cons, List.not_mem_nil, or_false] at he
  rcases he with rfl | rfl | rfl | rfl <;>
    exact ⟨rfl, rfl, rfl, fieldsAnswered_of_answered _ _ rfl, rfl, rfl, by decide +kernel⟩

/-- A window one above the threshold and the greatest one, accumulators at 0 and about to wrap. -/
theorem wit_BerWindowAboveThresholdIsAccumulated :
    ∀ e ∈ [(Dvb.s1, [yes 101, yes 0], 101), (.s1, [yes 255, yes 255], 65535), (.s2, [yes 0x0F, yes 0xA1], 4001),
        (.s2, [yes 255, yes 255], 65535)], ∀ acc ∈ [(0 : BitVec 64), 0xFFFFFFFFFFFFFFFF],
      let h := [yes 7, yes 0]
      let r := [yes 0, yes 0]
      let s := { idle [] (answers e.2.1 ++ (answers h ++ (answers r ++ []))) with accErr := acc, accCnt := acc }
      ∃ wf ef thr bits restart, berRow s.cfg e.1 = (wf, ef, thr, bits, restart) ∧ Idle s ∧ s.chipReady = true ∧
        s.orphan = none ∧ FieldsAnswered [wf] [e.2.1] ∧ FieldsAnswered [ef] [h] ∧ AllSucceed restart r ∧
        s.inputs = answers e.2.1 ++ (answers h ++ (answers r ++ [])) ∧ e.2.2 = fieldOf wf e.2.1 ∧ 7 = fieldOf ef h ∧
        thr < e.2.2 := by
  intro e he acc ha
  simp only [List.mem_cons, List.not_mem_nil, or_false] at he ha
  rcases ha with rfl | rfl <;> rcases he with rfl | rfl | rfl | rfl <;>
    exact ⟨_, _, _, _, _, rfl, rfl, rfl, rfl, fieldsAnswered_of_answered _ _ rfl, fieldsAnswered_of_answered _ _ rfl,
      by unfold AllSucceed; decide +kernel, rfl, rfl, rfl, by decide +kernel⟩

/-- The five measurement commands, with a host read next and with nothing. -/
theorem wit_MeasurementsIssueTheirFirstRead :
    ∀ l ∈ [[], [Stimulus.hostRead 4 4]],
      let s := idle [1200] l
      Idle s ∧ s.chipReady = true ∧ s.orphan = none ∧ Waits s.inputs ∧
        (readsOf (gainFields s.cfg.chipMap)).head? = some (.read 0x500) ∧
        (readsOf (cnrS1Fields s.cfg.chipMap)).head? = some (.read 0x510) ∧
        (readsOf (cnrS2Fields s.cfg.chipMap)).head? = some (.read 0x520) ∧
        (readsOf [s.cfg.chipMap.fBerWinS1]).head? = some (.read 0x530) ∧
        (readsOf [s.cfg.chipMap.fBerWinS2]).head? = some (.read 0x540) := by
  intro l hl
  refine ⟨rfl, rfl, rfl, ?_, rfl, rfl, rfl, rfl, rfl⟩
  simp only [List.mem_cons, List.not_mem_nil, or_false] at hl
  rcases hl with rfl | rfl
  · exact waits_none
  · exact fun x rest h => by cases h; rfl

/-! ## The whole machine -/

/-- A TUNE that waits for the chip's answer to its first lock-status read meets the invariant. -/
theorem wit_blockInv_polling (l : List Stimulus) :
    BlockInv (tuning .pollRead .polling .pollRead [.read 0x400] l) where
  ctrlReserved := show (0 : Word) &&& 0x7 = 0 by decide
  selIsiReserved := show (0 : Word).toNat < 512 by decide
  chipCanonical := rfl
  phaseFits := And.intro rfl (And.intro rfl (And.intro rfl (List.cons_ne_nil _ _)))
  onlyTuneSequences h := absurd rfl h
  busyFlags _ := ⟨rfl, rfl⟩
  lockTransient _ := rfl
  pollBound := show (0 : Byte).toNat ≤ 150 by decide
  pollFresh h := by cases h
  pollOpen _ := show (0 : Byte).toNat < 150 by decide
  waitBound := show (0 : Byte).toNat ≤ 20 by decide
  heldInReset h := by cases h

theorem wit_blockInv_idle (args : List Word) (l : List Stimulus) : BlockInv (idle args l) where
  ctrlReserved := show (0 : Word) &&& 0x7 = 0 by decide
  selIsiReserved := show (0 : Word).toNat < 512 by decide
  chipCanonical := rfl
  phaseFits := And.intro rfl rfl
  onlyTuneSequences _ := ⟨rfl, rfl⟩
  busyFlags h := absurd rfl h
  lockTransient h := by rcases h with h | h <;> cases h
  pollBound := show (0 : Byte).toNat ≤ 150 by decide
  pollFresh h := by cases h
  pollOpen h := by cases h
  waitBound := show (0 : Byte).toNat ≤ 20 by decide
  heldInReset h := by cases h

/-- A read that locks, and a tick that changes nothing. -/
theorem wit_LockStateOnlyMovesForward :
    ∀ x ∈ [.chipAnswer (yes 0xF7), Stimulus.tick],
      let s := tuning .pollRead .polling .pollRead [.read 0x400] [x]
      BlockInv s ∧ s.inputs = x :: [] ∧ (∀ off n v, x ≠ .hostWrite off n v) ∧ x ≠ .rstNLevel false ∧
        ∃ t, step s = .next t := by
  intro x hx
  refine ⟨wit_blockInv_polling _, rfl, ?_⟩
  simp only [List.mem_cons, List.not_mem_nil, or_false] at hx
  rcases hx with rfl | rfl <;> exact ⟨fun _ _ _ h => (by cases h), fun h => (by cases h), _, rfl⟩

theorem wit_OnlyTuneAndResetChangeLockState :
    let s := idle [1200] ([3, 2, 1, 4, 5, 2, 0x37].map rd)
    Instr.gain ≠ .tune ∧ Instr.gain ≠ .reset ∧ BlockInv s ∧ s.rstN = true ∧ Idle s ∧ ∃ t, exec .gain s = .next t :=
  ⟨by decide, by decide, wit_blockInv_idle _ _, rfl, rfl, _, rfl⟩

/-- A GAIN that waits for the chip's answer to one of its reads meets the invariant. -/
theorem wit_blockInv_gain (l : List Stimulus) : BlockInv (running .gain .gain [.read 0x505, .read 0x506] l) where
  ctrlReserved := show (0 : Word) &&& 0x7 = 0 by decide
  selIsiReserved := show (0 : Word).toNat < 512 by decide
  chipCanonical := rfl
  phaseFits := And.intro rfl (List.cons_ne_nil _ _)
  onlyTuneSequences _ := ⟨rfl, rfl⟩
  busyFlags _ := ⟨rfl, rfl⟩
  lockTransient h := by rcases h with h | h <;> cases h
  pollBound := show (0 : Byte).toNat ≤ 150 by decide
  pollFresh h := by cases h
  pollOpen h := by cases h
  waitBound := show (0 : Byte).toNat ≤ 20 by decide
  heldInReset h := by cases h

/-- A running GAIN's answer that succeeds, one that fails, a tick, an ABORT word and a TUNE word that comes too early. -/
theorem wit_OnlyTuneAndResetChangeLockState_running :
    ∀ x ∈ [Stimulus.chipAnswer (yes 0xF7), .chipAnswer no, .tick, .hostWrite 0x08 4 0x11, .hostWrite 0x08 4 0x10],
      let s := running .gain .gain [.read 0x505, .read 0x506] [x]
      BlockInv s ∧ s.running ≠ some .tune ∧ (∀ rest, s.inputs ≠ .rstNLevel false :: rest) ∧
        (∀ w rest, s.inputs = .hostWrite 0x08 4 w :: rest → w ≠ 0x000000FF ∧ (Idle s → w ≠ 0x00000010)) ∧
        ∃ t, step s = .next t := by
  intro x hx
  refine ⟨wit_blockInv_gain _, by simp [running], ?_⟩
  simp only [List.mem_cons, List.not_mem_nil, or_false] at hx
  rcases hx with rfl | rfl | rfl | rfl | rfl <;>
    exact ⟨fun _ h => (by cases h), fun _ _ h => (by cases h <;> exact ⟨by decide, fun h => (by cases h)⟩), _, rfl⟩

/-- A NOP, a TUNE that enters Programming, a RESET, a BER command, and rst_n going low. -/
theorem wit_AccumulatorsChangeOnlyByBerTuneAndReset :
    ∀ x ∈ [Stimulus.hostWrite 0x08 4 0x00, .hostWrite 0x08 4 0x10, .hostWrite 0x08 4 0xFF, .hostWrite 0x08 4 0x24,
        .rstNLevel false],
      let s := idle t1Args [x]
      BlockInv s ∧ ∃ t, step s = .next t := by
  intro x hx
  refine ⟨wit_blockInv_idle _ _, ?_⟩
  simp only [List.mem_cons, List.not_mem_nil, or_false] at hx
  rcases hx with rfl | rfl | rfl | rfl | rfl <;> exact ⟨_, rfl⟩

theorem wit_ResultsHoldWhileACommandRuns :
    let s := tuning .pollRead .polling .pollRead [.read 0x400] [.chipAnswer (yes 0x8E)]
    ∃ t, step s = .next t ∧ t.running ≠ none := ⟨_, rfl, by decide +kernel⟩

theorem wit_ParametersNeverChange :
    ∃ t, Sys2Proof.core.run 3 (idle [] [.hostWrite 0x08 4 0, .tick, .rstNLevel false]) = .next t := ⟨_, rfl⟩

theorem wit_InterfaceRunsNeverStop :
    ∀ x ∈ (idle [] [.hostRead 0 4, .hostWrite 124 4 7, .tick, .chipAnswer no]).inputs, x.inInterface = true := by decide

theorem wit_StepKeepsBlockInv :
    let s := tuning .pollRead .polling .pollRead [.read 0x400] [.chipAnswer (yes 0x8E)]
    BlockInv s ∧ ∃ t, step s = .next t := ⟨wit_blockInv_polling _, _, rfl⟩

end Sys2Proof.Tests
end

/-! The parameters and the tables stand in State.cfg (log entry 1): no command, no host access, no reaction and so no
run changes them (R8, R94). What the engine's own reactions keep is Laws/Keeps.lean's. -/

namespace Sys2Proof.Machine

/-! ## Runs -/

/-- A run that ends in a state took its first step to some state and ran on from there. -/
theorem run_succ_inv {k : Nat} {s t : State} (h : Sys2Proof.core.run (k + 1) s = .next t) :
    ∃ u, step s = .next u ∧ Sys2Proof.core.run k u = .next t := by
  cases hs : step s with
  | next u => exact ⟨u, rfl, (run_succ k hs).symm.trans h⟩
  | fault r | refused r =>
    simp only [Host.Core.run, Sys2Proof.core, hs] at h
    cases h

/-- What every step keeps holds at the end of every run. -/
theorem run_keeps {P : State → Prop} (hstep : ∀ s t, P s → step s = .next t → P t) {k : Nat} {s t : State}
    (hs : P s) (h : Sys2Proof.core.run k s = .next t) : P t := by
  induction k generalizing s with
  | zero => cases h; exact hs
  | succ k ih =>
    obtain ⟨u, hstep_s, hrun⟩ := run_succ_inv h
    exact ih (hstep s u hs hstep_s) hrun

/-! ## Commands -/

@[simp] theorem runCommand_cfg (s : State) : (runCommand s).cfg = s.cfg := (runOn_keeps s.inputs s).1

/-- A command whose start changes no parameter changes none: its word is an overrun, or it is accepted and runs on. -/
theorem submit_cfg (i : Instr) {start : State → State} (hstart : ∀ u, (start u).cfg = u.cfg) (s : State) :
    (submit i start s).cfg = s.cfg := by
  unfold submit
  split
  · exact setOverrun_cfg s
  · rw [runCommand_cfg, hstart, accept_cfg]

theorem computePoint_cfg {body : State → State} (hb : ∀ u, Keeps u (body u)) (s : State) :
    (computePoint body s).cfg = s.cfg := (computePoint_running body hb s).1

theorem measureStart_cfg (i : Instr) {begin_ : State → State} (hb : ∀ u, Keeps u (begin_ u)) (s : State) :
    (measureStart i begin_ s).cfg = s.cfg := (measureStart_keeps i begin_ hb s).cfg

@[simp] theorem tuneStart_cfg (s : State) : (tuneStart s).cfg = s.cfg := by
  unfold tuneStart
  simp only
  split
  · exact computePoint_cfg tuneCheck_keeps _
  · exact (raiseError_keeps _ _ _).cfg

@[simp] theorem abortWhileBusy_cfg (s : State) : (abortWhileBusy s).cfg = s.cfg := by
  unfold abortWhileBusy
  split <;> rfl

@[simp] theorem submitIllegal_cfg (w : Word) (s : State) : (submitIllegal w s).cfg = s.cfg := by
  unfold submitIllegal
  split <;> rfl

/-- No command changes the parameters. -/
theorem exec_cfg {i : Instr} {s t : State} (h : exec i s = .next t) : t.cfg = s.cfg := by
  cases i with
  | nop => cases h; exact submit_cfg .nop (complete_cfg _) s
  | gold => cases h; exact submit_cfg .gold (computePoint_cfg (computation_keeps .gold)) s
  | pll => cases h; exact submit_cfg .pll (computePoint_cfg (computation_keeps .pll)) s
  | mclk => cases h; exact submit_cfg .mclk (computePoint_cfg (computation_keeps .mclk)) s
  | tsclk => cases h; exact submit_cfg .tsclk (computePoint_cfg (computation_keeps .tsclk)) s
  | lpf => cases h; exact submit_cfg .lpf (computePoint_cfg (computation_keeps .lpf)) s
  | tune => cases h; exact submit_cfg .tune tuneStart_cfg s
  | abort =>
    cases h
    split
    · exact abortWhileBusy_cfg s
    · rw [complete_cfg, accept_cfg]
  | gain => cases h; exact submit_cfg .gain (measureStart_cfg .gain gainBegin_keeps) s
  | cnrS1 => cases h; exact submit_cfg .cnrS1 (measureStart_cfg .cnrS1 cnrS1Begin_keeps) s
  | cnrS2 => cases h; exact submit_cfg .cnrS2 (measureStart_cfg .cnrS2 cnrS2Begin_keeps) s
  | berS1 => cases h; exact submit_cfg .berS1 (measureStart_cfg .berS1 (berBegin_keeps .s1)) s
  | berS2 => cases h; exact submit_cfg .berS2 (measureStart_cfg .berS2 (berBegin_keeps .s2)) s
  | reset => cases h; exact resetKeepingCtrl_cfg s

/-! ## Host accesses -/

/-- An access that does not stop the machine is one of the window, and acts. -/
theorem windowed_next {off nbytes : Nat} {act : State → Host.Outcome State Fault Refusal} {s t : State}
    (h : windowed off nbytes act s = .next t) : act s = .next t := by
  unfold windowed at h
  split at h
  · split at h
    · exact h
    · cases h
  · cases h

@[simp] theorem writeReg_cfg (r : HostReg) (v : Word) (s : State) : (writeReg r v s).cfg = s.cfg := by
  cases r <;> rfl

@[simp] theorem hostWriteReg_cfg (off : Nat) (v : Word) (s : State) : (hostWriteReg off v s).cfg = s.cfg := by
  unfold hostWriteReg
  split
  · exact writeReg_cfg _ v s
  · rfl

theorem submitWord_cfg {w : Word} {s t : State} (h : submitWord w s = .next t) : t.cfg = s.cfg := by
  unfold submitWord at h
  split at h
  · exact exec_cfg h
  · cases h; exact submitIllegal_cfg w s

theorem hostWrite_cfg {off : Nat} {v : Word} {s t : State} (h : hostWrite off v s = .next t) : t.cfg = s.cfg := by
  unfold hostWrite at h
  split at h
  · exact submitWord_cfg h
  · cases h; exact hostWriteReg_cfg off v s

/-! ## Steps -/

/-- A step takes what arrives next, of whatever kind, and reacts to it. -/
theorem step_stimulus {s : State} {x : Stimulus} {rest : List Stimulus} (h : s.inputs = x :: rest) :
    step s = stimulusStep x { s with inputs := rest } := by
  simp only [step, h]

/-- rst_n low resets every state item of R57, and the parameters are none of them. -/
@[simp] theorem rstNChange_cfg (level : Bool) (s : State) : (rstNChange level s).cfg = s.cfg := by
  cases level <;> rfl

@[simp] theorem react_cfg (x : Stimulus) (s : State) : (react x s).cfg = s.cfg := by
  cases x with
  | chipAnswer | tick | computeHold | computeDone => exact (react_keeps rfl s).cfg
  | rstNLevel level => exact rstNChange_cfg level s
  | chipReadyLevel | hostRead | hostWrite => rfl

theorem stimulusStep_cfg {x : Stimulus} {s t : State} (h : stimulusStep x s = .next t) : t.cfg = s.cfg := by
  cases x with
  | hostRead off nbytes =>
    cases windowed_next h
    exact emit_cfg _ s
  | hostWrite off nbytes v => exact hostWrite_cfg (windowed_next h)
  | chipAnswer | tick | chipReadyLevel | rstNLevel | computeHold | computeDone =>
    cases h
    exact react_cfg _ s

/-- No step changes the parameters. -/
theorem step_cfg {s t : State} (h : step s = .next t) : t.cfg = s.cfg := by
  cases hi : s.inputs with
  | nil =>
    rw [step_nothing hi] at h
    cases h
    rfl
  | cons x rest =>
    rw [step_stimulus hi] at h
    exact stimulusStep_cfg (s := { s with inputs := rest }) h

/-- Settles O57: every step keeps the configuration, so every run does. -/
theorem parametersNeverChange : Obligations.ParametersNeverChange := by
  intro k s t h
  exact run_keeps (P := fun u => u.cfg = s.cfg) (fun _ _ hu hstep => (step_cfg hstep).trans hu) rfl h

end Sys2Proof.Machine

/-! What every step of the block keeps (10_state.md): its invariant, the accumulators outside BER and TUNE (R282), RES
while a command runs (R361), and DONE at a command's end (R36); and what a host read shows (R31). Each is said of the
reactions one by one, from Laws/Invariant.lean, Laws/Accumulators.lean and Laws/Keeps.lean, and then of the step that
takes one of them. -/

namespace Sys2Proof.Machine

/-! ## The reset values -/

/-- Every state item holds its reset value, at whatever level rst_n is, and the chip's bytes are in canonical form (R350). -/
structure AtReset (s : State) : Prop where
  items : s = { State.reset with
    cfg := s.cfg, rstN := s.rstN, chipReady := s.chipReady, chip := s.chip, inputs := s.inputs, outputs := s.outputs
    orphan := s.orphan }
  canonical : Memory.wf s.chip = true

theorem BlockInv.atReset {s : State} (h : BlockInv s) (hr : s.rstN = false) : AtReset s :=
  ⟨by have := h.heldInReset hr; rwa [← hr] at this, h.chipCanonical⟩

theorem AtReset.running {s : State} (h : AtReset s) : s.running = none := by rw [h.items]; rfl

theorem AtReset.phase {s : State} (h : AtReset s) : s.phase = .idle := by rw [h.items]; rfl

theorem AtReset.todo {s : State} (h : AtReset s) : s.todo = [] := by rw [h.items]; rfl

/-- A state that differs from one at its reset values only in what is not the block's own. -/
theorem AtReset.congr {s t : State} (h : AtReset s) (hc : Memory.wf t.chip = true)
    (ht : t = { s with
      rstN := t.rstN, chipReady := t.chipReady, chip := t.chip, inputs := t.inputs, outputs := t.outputs
      orphan := t.orphan } := by rfl) : AtReset t :=
  ⟨by rw [ht, h.items], hc⟩

theorem resetBlock_atReset {s : State} (hc : Memory.wf s.chip = true) : AtReset (resetBlock s) := ⟨rfl, hc⟩

/-- The reset values meet the invariant, whatever the parameters and the pins are. -/
theorem AtReset.blockInv {s : State} (h : AtReset s) : BlockInv s where
  ctrlReserved := by rw [h.items]; exact (by decide : (0 : Word) &&& 0x7 = 0)
  selIsiReserved := by rw [h.items]; exact (by decide : (0 : Word).toNat < 512)
  chipCanonical := h.canonical
  phaseFits := by rw [h.items]; exact And.intro rfl rfl
  onlyTuneSequences := fun _ => by rw [h.items]; exact ⟨rfl, rfl⟩
  busyFlags := fun hn => absurd h.running hn
  lockTransient := by rw [h.items]; rintro (hl | hl) <;> cases hl
  pollBound := by rw [h.items]; exact Nat.zero_le _
  pollFresh := fun _ => by rw [h.items]; rfl
  pollOpen := by rw [h.items]; intro hl; cases hl
  waitBound := by rw [h.items]; exact Nat.zero_le _
  heldInReset := fun hr => by have := h.items; rwa [hr] at this

/-- The invariant does not look at the stimuli to come. -/
theorem BlockInv.takeInput {s : State} (h : BlockInv s) (l : List Stimulus) : BlockInv { s with inputs := l } := by
  by_cases hr : s.rstN = true
  · exact h.inputs hr l
  · have taken : AtReset { s with inputs := l } := (h.atReset (by simpa using hr)).congr h.chipCanonical
    exact taken.blockInv

/-- Settles O60: reset leaves every item at its reset value, and no byte delivered. -/
theorem resetMeetsBlockInv : Obligations.ResetMeetsBlockInv := AtReset.blockInv ⟨rfl, Memory.wf_reset⟩

/-- Settles O11: each item is read off State.reset, then the eight registers of each bank and the two levels of chip_ready. -/
theorem resetStateHoldsStatedValues : Obligations.ResetStateHoldsStatedValues := by
  refine ⟨rfl, rfl, rfl, rfl, rfl, rfl, rfl, rfl, ?_, rfl, rfl, rfl, rfl, rfl, rfl, rfl, rfl, rfl, rfl, rfl, rfl, rfl, rfl,
    rfl, ?_⟩
  · decide
  · decide

/-! ## Host accesses -/

/-- An access that does not stop the machine is one word at an offset of the window (R80, R81). -/
theorem windowed_access {off nbytes : Nat} {act : State → Host.Outcome State Fault Refusal} {s t : State}
    (h : windowed off nbytes act s = .next t) : nbytes = 4 ∧ off % 4 = 0 ∧ off < 128 := by
  unfold windowed at h
  split at h
  · next hshape =>
    split at h
    · next hwin =>
      simp only [accessShape, Bool.and_eq_true, beq_iff_eq] at hshape
      exact ⟨hshape.1, hshape.2, of_decide_eq_true hwin⟩
    · cases h
  · cases h

/-- Each register stands at its offset (R31). -/
@[simp] theorem regAt_offset (r : HostReg) : regAt r.offset = r := by
  cases r with
  | arg i | res i => revert i; decide
  | reserved k => revert k; decide
  | _ => rfl

/-- Each aligned offset of the window is a register's (R31). -/
theorem offset_regAt {off : Nat} (h4 : off % 4 = 0) (hl : off < 128) : (regAt off).offset = off := by
  have window : ∀ k : Fin 32, (regAt (4 * k.val)).offset = 4 * k.val := by decide
  have hoff : off = 4 * (off / 4) := by omega
  rw [hoff]
  exact window ⟨off / 4, by omega⟩

theorem eq_of_regAt_cmd {off : Nat} (h4 : off % 4 = 0) (hl : off < 128) (hc : regAt off = .cmd) : off = 0x08 := by
  rw [← offset_regAt h4 hl, hc]
  rfl

/-- While rst_n is low a host write is ignored (R350). -/
theorem hostWrite_inReset (off : Nat) (v : Word) {s : State} (hr : s.rstN = false) : hostWrite off v s = .next s := by
  simp [hostWrite, hostWriteReg, hr]

/-! ## Steps while rst_n is low -/

/-- With every item at its reset value, the chip can only end a transaction that a reset abandoned (R352). -/
theorem AtReset.chipAnswer {s : State} (h : AtReset s) (a : Answer) : AtReset (chipAnswer a s) := by
  cases ho : s.orphan with
  | none => rwa [chipAnswer_nobody a ho h.todo]
  | some t =>
    rw [chipAnswer_orphan a ho, issueHead_empty (by exact h.todo)]
    exact h.congr (deliver_wf t a h.canonical)

/-- No reaction moves an item from its reset value: no command runs. -/
theorem AtReset.react {s : State} (h : AtReset s) (x : Stimulus) : AtReset (react x s) := by
  cases x with
  | chipAnswer a => exact h.chipAnswer a
  | tick =>
    have hs : tickPulse s = s := by simp [tickPulse, h.phase]
    show AtReset (tickPulse s)
    rwa [hs]
  | computeDone =>
    have hs : computeDone s = s := by simp [computeDone, h.phase]
    show AtReset (Machine.computeDone s)
    rwa [hs]
  | chipReadyLevel level => exact h.congr h.canonical
  | rstNLevel level =>
    cases level with
    | true => exact h.congr h.canonical
    | false => exact (resetBlock_atReset h.canonical).congr h.canonical
  | computeHold | hostRead | hostWrite => exact h

/-- A step while rst_n is low leaves every item at its reset value (R350). -/
theorem stimulusStep_atReset {x : Stimulus} {s t : State} (h : AtReset s) (hr : s.rstN = false)
    (hstep : stimulusStep x s = .next t) : AtReset t := by
  cases x with
  | hostRead off nbytes =>
    cases windowed_next hstep
    exact h.congr h.canonical
  | hostWrite off nbytes v =>
    cases (hostWrite_inReset off v hr).symm.trans (windowed_next hstep)
    exact h
  | chipAnswer | tick | chipReadyLevel | rstNLevel | computeHold | computeDone =>
    cases hstep
    exact h.react _

/-! ## The invariant, out of reset -/

/-- A host write of CTRL leaves its reserved bits 0 (R32); one of STATUS leaves DONE 0 while a command runs (R36). -/
theorem writeReg_inv (r : HostReg) (v : Word) {s : State} (h : BlockInv s) (hr : s.rstN = true) :
    BlockInv (writeReg r v s) := by
  cases r with
  | ctrl =>
    have hctrl : v &&& ctrlMask &&& 0x7 = v &&& ctrlMask := by rw [BitVec.and_assoc]; rfl
    exact { h with ctrlReserved := hctrl, heldInReset := fun hlow => absurd (hr.symm.trans hlow) (by decide) }
  | status =>
    have flags : s.running ≠ none → (s.done && !v.getLsbD 1) = false ∧ s.errCode = .noError := fun hn => by
      obtain ⟨hdone, herr⟩ := h.busyFlags hn
      exact ⟨by rw [hdone, Bool.false_and], herr⟩
    exact { h with busyFlags := flags, heldInReset := fun hlow => absurd (hr.symm.trans hlow) (by decide) }
  | arg i => exact h.fields hr h.chipCanonical
  | _ => exact h

/-- LockState is settled when no TUNE runs (R234). -/
theorem BlockInv.settled {s : State} (h : BlockInv s) (hn : s.running ≠ some .tune) : Settled s.lockState :=
  ⟨fun hl => hn (h.lockTransient (.inl hl)), fun hl => hn (h.lockTransient (.inr hl))⟩

/-- A word that decodes to no command is an overrun, or it is rejected as ILLEGAL (R315, R320). -/
theorem submitIllegal_inv (w : Word) {s : State} (h : BlockInv s) (hr : s.rstN = true) :
    BlockInv (submitIllegal w s) := by
  cases hid : s.running with
  | some i =>
    rw [submitIllegal, if_pos (busy_of_running hid)]
    exact h.fields hr h.chipCanonical
  | none =>
    rw [submitIllegal, if_neg (by simp [hid])]
    exact (raise_inv .illegal w (s := latchOperands s) (h.bounds hr).same (h.settled (by simp [hid]))).1

/-- Every command's word keeps the invariant, idle or busy. -/
theorem exec_inv (i : Instr) {s : State} (h : BlockInv s) (hr : s.rstN = true) :
    ∃ t, exec i s = .next t ∧ BlockInv t := by
  by_cases hreset : i = .reset
  · subst hreset
    exact ⟨_, rfl, reset_inv h hr⟩
  by_cases hid : s.running = none
  · by_cases htune : i = .tune
    · subst htune
      exact (tune_idle_inv h hr hid).imp fun _ ht => ⟨ht.1, ht.2.1⟩
    · exact (exec_idle_inv i htune hreset h hr hid).imp fun _ ht => ⟨ht.1, ht.2.1⟩
  · exact (busy_inv i hreset h hr hid).imp fun _ ht => ⟨ht.1, ht.2.1⟩

theorem hostWrite_inv {off : Nat} {v : Word} {s t : State} (h : BlockInv s) (hr : s.rstN = true)
    (hwrite : hostWrite off v s = .next t) : BlockInv t := by
  unfold hostWrite at hwrite
  split at hwrite
  · unfold submitWord at hwrite
    split at hwrite
    · next i _ =>
      obtain ⟨u, hu, hinv⟩ := exec_inv i h hr
      cases hwrite.symm.trans hu
      exact hinv
    · cases hwrite
      exact submitIllegal_inv v h hr
  · cases hwrite
    rw [hostWriteReg, if_pos hr]
    exact writeReg_inv _ v h hr

/-- rst_n going low sets every item to its reset value (R350). -/
theorem rstNChange_inv (level : Bool) {s : State} (h : BlockInv s) : BlockInv (rstNChange level s) := by
  cases level with
  | true => exact h.fields rfl h.chipCanonical
  | false => exact AtReset.blockInv ((resetBlock_atReset h.chipCanonical).congr h.chipCanonical)

theorem stimulusStep_inv {x : Stimulus} {s t : State} (h : BlockInv s) (hr : s.rstN = true)
    (hstep : stimulusStep x s = .next t) : BlockInv t := by
  cases x with
  | hostRead off nbytes =>
    cases windowed_next hstep
    exact h.fields hr h.chipCanonical
  | hostWrite off nbytes v => exact hostWrite_inv h hr (windowed_next hstep)
  | chipAnswer | tick | computeHold | computeDone =>
    cases hstep
    exact (react_inv rfl h hr).1
  | chipReadyLevel level =>
    cases hstep
    exact h.fields hr h.chipCanonical
  | rstNLevel level =>
    cases hstep
    exact rstNChange_inv level h

/-- Settles O59: while rst_n is low a step leaves the reset values, out of reset each reaction keeps the invariant. -/
theorem stepKeepsBlockInv : Obligations.StepKeepsBlockInv := by
  intro s t h hstep
  cases hi : s.inputs with
  | nil =>
    cases (step_nothing hi).symm.trans hstep
    exact h
  | cons x rest =>
    rw [step_stimulus hi] at hstep
    have taken := h.takeInput rest
    cases hr : s.rstN with
    | false => exact (stimulusStep_atReset (taken.atReset hr) hr hstep).blockInv
    | true => exact stimulusStep_inv taken hr hstep

/-! ## RES while a command runs -/

/-- Where a command still runs afterwards, RES is what it was (R41). -/
def KeepsRes (s t : State) : Prop := t.running ≠ none → t.res = s.res

theorem KeepsRes.of_ended {s t : State} (h : t.running = none) : KeepsRes s t := fun hn => absurd h hn

theorem KeepsRes.of_eq {s t : State} (h : t.res = s.res) : KeepsRes s t := fun _ => h

/-- Running on writes RES only where the command ends. -/
theorem KeepsRes.runCommand {s t : State} (h : KeepsRes s t) : KeepsRes s (runCommand t) := fun hn => by
  obtain ⟨-, -, hrunning, hres⟩ := runOn_keeps t.inputs t
  have ht : t.running ≠ none := by
    rcases hrunning with hsame | hnone
    · exact hsame ▸ hn
    · exact absurd hnone hn
  exact (hres hn).trans (h ht)

/-- A command whose start writes RES only at its end is accepted without touching RES, or is an overrun. -/
theorem submit_res (i : Instr) {start : State → State} (hstart : ∀ u, KeepsRes u (start u)) (s : State) :
    KeepsRes s (submit i start s) := by
  unfold submit
  split
  · exact .of_eq rfl
  · exact (show KeepsRes s (start (accept i s)) from hstart (accept i s)).runCommand

theorem computePoint_res {body : State → State} (hb : ∀ u, Keeps u (body u)) (s : State) :
    KeepsRes s (computePoint body s) := (computePoint_running body hb s).2

theorem measureStart_res (i : Instr) {begin_ : State → State} (hb : ∀ u, Keeps u (begin_ u)) (s : State) :
    KeepsRes s (measureStart i begin_ s) := (measureStart_keeps i begin_ hb s).res

theorem tuneStart_res (s : State) : KeepsRes s (tuneStart s) := by
  unfold tuneStart
  simp only
  split
  · exact computePoint_res tuneCheck_keeps _
  · exact .of_ended rfl

theorem abortWhileBusy_res (s : State) : (abortWhileBusy s).res = s.res := by
  unfold abortWhileBusy
  split <;> rfl

theorem exec_res {i : Instr} {s t : State} (h : exec i s = .next t) : KeepsRes s t := by
  cases i with
  | nop => cases h; exact submit_res .nop (fun _ => .of_ended rfl) s
  | gold => cases h; exact submit_res .gold (computePoint_res (computation_keeps .gold)) s
  | pll => cases h; exact submit_res .pll (computePoint_res (computation_keeps .pll)) s
  | mclk => cases h; exact submit_res .mclk (computePoint_res (computation_keeps .mclk)) s
  | tsclk => cases h; exact submit_res .tsclk (computePoint_res (computation_keeps .tsclk)) s
  | lpf => cases h; exact submit_res .lpf (computePoint_res (computation_keeps .lpf)) s
  | tune => cases h; exact submit_res .tune tuneStart_res s
  | abort =>
    cases h
    split
    · exact .of_eq (abortWhileBusy_res s)
    · exact .of_ended rfl
  | gain => cases h; exact submit_res .gain (measureStart_res .gain gainBegin_keeps) s
  | cnrS1 => cases h; exact submit_res .cnrS1 (measureStart_res .cnrS1 cnrS1Begin_keeps) s
  | cnrS2 => cases h; exact submit_res .cnrS2 (measureStart_res .cnrS2 cnrS2Begin_keeps) s
  | berS1 => cases h; exact submit_res .berS1 (measureStart_res .berS1 (berBegin_keeps .s1)) s
  | berS2 => cases h; exact submit_res .berS2 (measureStart_res .berS2 (berBegin_keeps .s2)) s
  | reset => cases h; exact .of_ended rfl

/-- RES has no write rights: a host write changes it only through a command (R41, R84). -/
theorem hostWriteReg_res (off : Nat) (v : Word) (s : State) : (hostWriteReg off v s).res = s.res := by
  unfold hostWriteReg
  split
  · cases regAt off <;> rfl
  · rfl

theorem hostWrite_res {off : Nat} {v : Word} {s t : State} (h : hostWrite off v s = .next t) : KeepsRes s t := by
  unfold hostWrite at h
  split at h
  · unfold submitWord at h
    split at h
    · exact exec_res h
    · cases h
      unfold submitIllegal
      split
      · exact .of_eq rfl
      · exact .of_ended rfl
  · cases h
    exact .of_eq (hostWriteReg_res off v s)

theorem stimulusStep_res {x : Stimulus} {s t : State} (h : stimulusStep x s = .next t) : KeepsRes s t := by
  cases x with
  | hostRead off nbytes =>
    cases windowed_next h
    exact .of_eq rfl
  | hostWrite off nbytes v => exact hostWrite_res (windowed_next h)
  | chipAnswer | tick | computeHold | computeDone =>
    cases h
    exact (react_keeps rfl s).res
  | chipReadyLevel level =>
    cases h
    exact .of_eq rfl
  | rstNLevel level =>
    cases h
    cases level with
    | true => exact .of_eq rfl
    | false => exact .of_ended rfl

/-- Settles O56: RES is written only where a command ends. -/
theorem resultsHoldWhileACommandRuns : Obligations.ResultsHoldWhileACommandRuns := by
  intro s t hstep
  cases hi : s.inputs with
  | nil =>
    cases (step_nothing hi).symm.trans hstep
    exact fun _ => rfl
  | cons x rest =>
    rw [step_stimulus hi] at hstep
    exact stimulusStep_res (s := { s with inputs := rest }) hstep

/-! ## DONE at a command's end -/

/-- A command that a reaction of the engine ends leaves DONE at 1, and so irq at CTRL.IRQ_EN (R36, R324). -/
theorem react_ended {x : Stimulus} (hx : x.isEngine = true) {s : State} (hrun : s.running ≠ none)
    (hend : (react x s).running = none) : (react x s).done = true ∧ (react x s).irq = s.ctrl.getLsbD 0 := by
  have hkeeps := react_keeps hx s
  have hdone : (react x s).done = true := by
    rcases hkeeps.ending with ⟨hsame, -⟩ | ⟨-, hdone⟩
    · exact absurd (hsame.symm.trans hend) hrun
    · exact hdone
  exact ⟨hdone, by rw [State.irq, State.irqEn, hdone, hkeeps.ctrl, Bool.true_and]⟩

/-- A host write of STATUS, then a stimulus of the engine's own: two steps, and the second one reacts. -/
theorem run_statusWrite {s : State} {v : Word} {x : Stimulus} {rest : List Stimulus}
    (hi : s.inputs = .hostWrite 0x04 4 v :: x :: rest) (hr : s.rstN = true) (hx : x.isEngine = true) :
    Sys2Proof.core.run 2 s = .next (react x { s.writeStatus v with inputs := rest }) := by
  have hwrite : step s = .next { s.writeStatus v with inputs := x :: rest } :=
    step_writeReg hi rfl (by decide) (by decide) hr
  have hreact : step { s.writeStatus v with inputs := x :: rest } =
      .next (react x { s.writeStatus v with inputs := rest }) :=
    step_react rfl (by rintro off n rfl; cases hx) (by rintro off n w rfl; cases hx)
  rw [run_succ 1 hwrite, run_succ 0 hreact, run_zero]

theorem postAux_running (s : State) : (postAux s).running = none := by
  unfold postAux boundary
  split
  · split <;> rfl
  · rfl

/-- The phases whose last transaction's success ends the command: GAIN's and the CNR reads, PROG_AGC_NORMAL, and the BER
restart program (R228, R255, R262, R268, R277). -/
def LastPhase (p : Phase) : Prop :=
  p ∈ [Phase.gain, .cnrS1, .cnrS2, .agcNormal] ∨ ∃ d win err, p = .berRestart d win err

theorem phaseDone_running {s : State} (hp : LastPhase s.phase) : (phaseDone s).running = none := by
  unfold phaseDone
  rcases hp with hmem | ⟨d, win, err, hber⟩
  · simp only [List.mem_cons, List.not_mem_nil, or_false] at hmem
    rcases hmem with hp | hp | hp | hp <;> rw [hp]
    · rfl
    · rfl
    · rfl
    · exact postAux_running s
  · rw [hber]
    rfl

/-- A computation of GOLD, PLL, MCLK, TSCLK or LPF ends its command, with results or with PARAM. -/
theorem computation_running {i : Instr} (hi : i ∈ pureCommands) (s : State) : (computation i s).running = none := by
  simp only [pureCommands, List.mem_cons, List.not_mem_nil, or_false] at hi
  rcases hi with rfl | rfl | rfl | rfl | rfl
  · rfl
  · simp only [computation, pllBody]
    split <;> rfl
  · rfl
  · simp only [computation, tsclkBody]
    split <;> rfl
  · rfl

/-- Settles O10: the reaction that ends the command sets DONE, whatever the write before it cleared. -/
theorem doneEndsSetAfterAnEarlierClear : Obligations.DoneEndsSetAfterAnEarlierClear := by
  intro s v x rest hi hr hrun
  have ends (hx : x.isEngine = true) (hend : (react x { s.writeStatus v with inputs := rest }).running = none) :
      ∃ u, Sys2Proof.core.run 2 s = .next u ∧ u.done = true ∧ u.running = none ∧ u.irq = s.ctrl.getLsbD 0 :=
    have ⟨hdone, hirq⟩ := react_ended hx (by exact hrun) hend
    ⟨_, run_statusWrite hi hr hx, hdone, hend, hirq⟩
  refine ⟨?anyEnd, ?failed, ?lastAnswer, ?computed⟩
  case anyEnd =>
    intro u hx hu hend
    cases hu.symm.trans (run_statusWrite hi hr hx)
    exact react_ended hx (by exact hrun) hend
  case failed =>
    rintro a t todo rfl ho ht ha
    refine ends rfl ?_
    rw [react, chipAnswer_outstanding a (by exact ho) (by exact ht), transactionEnd_failed t todo _ ha]
    rfl
  case lastAnswer =>
    rintro a t rfl ho ht ha hp
    refine ends rfl ?_
    rw [react, chipAnswer_outstanding a (by exact ho) (by exact ht), transactionEnd_last t _ ha]
    exact phaseDone_running hp
  case computed =>
    rintro i rfl hp hrunning hmem
    refine ends rfl ?_
    have hcompute : computeDone { s.writeStatus v with inputs := rest } =
        computation i { s.writeStatus v with inputs := rest, phase := .idle } := by
      simp [computeDone, State.writeStatus, hp, hrunning]
    rw [react, hcompute]
    exact computation_running hmem _

/-! ## The accumulators -/

/-- A TUNE's CHECK lets its request pass and has a plan for it (R203, R204). -/
def PassesCheck (c : Config) (tr : TuneRequest) (old : TunePlan) : Prop :=
  validateRequest c tr = none ∧ ∃ p, makePlan c tr old = (p, none)

theorem requestOk_of_validate {c : Config} {tr : TuneRequest} (h : validateRequest c tr = none) : Claims.RequestOk c tr :=
  (validateRequest_none c tr).mp h

/-- A CHECK that does not pass ends the TUNE with PARAM, leaving the accumulators (R205). -/
theorem tuneCheck_rejects {s : State} (h : ¬ PassesCheck s.cfg s.tr s.plan) :
    (tuneCheck s).running = none ∧ accs (tuneCheck s) = accs s := by
  unfold tuneCheck
  split
  · exact ⟨rfl, rfl⟩
  · next hvalid =>
    split
    · exact ⟨rfl, rfl⟩
    · next p hp => exact absurd ⟨hvalid, p, hp⟩ h

/-- A TUNE whose CHECK is held and will not pass. -/
structure HeldRejected (s : State) : Prop where
  run : s.running = some .tune
  phase : s.phase = .computing
  todo : s.todo = []
  rejects : ¬ PassesCheck s.cfg s.tr s.plan

/-- Until its computation ends a held CHECK waits; then it is rejected, and neither touches the accumulators. -/
theorem HeldRejected.react {s : State} (h : HeldRejected s) {x : Stimulus} (hx : x.isEngine = true) :
    accs (react x s) = accs s ∧ (HeldRejected (react x s) ∨ (react x s).running = none) := by
  cases x with
  | chipAnswer a =>
    cases ho : s.orphan with
    | none =>
      rw [Machine.react, chipAnswer_nobody a ho h.todo]
      exact ⟨rfl, .inl h⟩
    | some t =>
      rw [Machine.react, chipAnswer_orphan a ho, issueHead_empty (by exact h.todo)]
      exact ⟨rfl, .inl ⟨h.run, h.phase, h.todo, h.rejects⟩⟩
  | tick =>
    have hs : Machine.react .tick s = s := by simp [Machine.react, tickPulse, h.phase]
    rw [hs]
    exact ⟨rfl, .inl h⟩
  | computeHold => exact ⟨rfl, .inl h⟩
  | computeDone =>
    have hs : Machine.react .computeDone s = tuneCheck { s with phase := .idle } := by
      simp [Machine.react, Machine.computeDone, computation, h.phase, h.run]
    obtain ⟨hended, haccs⟩ := tuneCheck_rejects (s := { s with phase := .idle }) h.rejects
    rw [hs]
    exact ⟨haccs, .inr hended⟩
  | hostRead | hostWrite | chipReadyLevel | rstNLevel => cases hx

theorem HeldRejected.runOn {s : State} (h : HeldRejected s) (l : List Stimulus) : accs (runOn l s) = accs s := by
  induction l generalizing s with
  | nil => rfl
  | cons x rest ih =>
    cases hx : x.isEngine with
    | false => rw [runOn_other s hx]
    | true =>
      have taken : HeldRejected { s with inputs := rest } := ⟨h.run, h.phase, h.todo, h.rejects⟩
      rw [runOn_engine (by rw [h.run]; exact Option.some_ne_none _) hx]
      obtain ⟨haccs, hheld | hended⟩ := taken.react hx
      · exact (ih hheld).trans haccs
      · rw [runOn_idle rest hended]
        exact haccs

/-- TUNE accepted while the chip is not ready, or with a request that CHECK rejects, leaves the accumulators. -/
theorem tuneStart_accs {s : State} (hrun : s.running = some .tune) (htodo : s.todo = [])
    (h : ¬ (s.chipReady = true ∧ PassesCheck s.cfg (tuneRequest s) s.plan)) :
    accs (runCommand (tuneStart s)) = accs s := by
  unfold tuneStart
  simp only
  split
  · next hready =>
    have rejects : ¬ PassesCheck s.cfg (tuneRequest s) s.plan := fun hpass => h ⟨hready, hpass⟩
    unfold computePoint
    split
    · next rest _ =>
      have held : HeldRejected { s with
          tr := tuneRequest s, lockState := .idle, seq := .check, inputs := rest, phase := .computing } :=
        ⟨hrun, rfl, htodo, rejects⟩
      exact held.runOn rest
    · obtain ⟨hended, haccs⟩ :=
        tuneCheck_rejects (s := { s with tr := tuneRequest s, lockState := .idle, seq := .check }) rejects
      rw [runCommand, runOn_idle _ hended]
      exact haccs
  · rw [raiseNotReady, runCommand_raiseError]
    rfl

/-- No command but BER, TUNE and RESET changes the accumulators, when its word is written or while it runs on (R282). -/
theorem exec_accs {i : Instr} {s t : State} (h : BlockInv s) (hr : s.rstN = true) (hexec : exec i s = .next t)
    (hreset : i ≠ .reset) (htune : i ≠ .tune) (h1 : i ≠ .berS1) (h2 : i ≠ .berS2) (hid : s.running = none) :
    accs t = accs s := by
  obtain ⟨u, hu, -, hforward⟩ := exec_idle_inv i htune hreset h hr hid
  cases hexec.symm.trans hu
  rcases hforward.acc (by simpa using h1) (by simpa using h2) with ⟨herr, hcnt⟩ | ⟨-, -, hrun⟩
  · exact congrArg₂ Prod.mk herr hcnt
  · exact absurd hrun (by simpa using htune)

/-- A word but RESET, written while a command runs, leaves the accumulators (R320, R231). -/
theorem exec_busy_accs {i : Instr} {s t : State} (hexec : exec i s = .next t) (hreset : i ≠ .reset)
    (hbusy : s.running ≠ none) : accs t = accs s := by
  have overrun (start : State → State) : accs (submit i start s) = accs s := by
    rw [submit_busy i start hbusy]
    rfl
  cases i with
  | reset => exact absurd rfl hreset
  | abort =>
    cases hexec
    split
    · unfold abortWhileBusy
      split <;> rfl
    · rfl
  | _ => cases hexec; exact overrun _

theorem hostWriteReg_accs (off : Nat) (v : Word) (s : State) : accs (hostWriteReg off v s) = accs s := by
  unfold hostWriteReg
  split
  · cases regAt off <;> rfl
  · rfl

/-- What may clear the accumulators when it arrives (R48, R206, R350, R353). -/
inductive ClearsAccs (s : State) (x : Stimulus) : Prop
  | rstN (hx : x = .rstNLevel false)
  | resetWord (hx : x = .hostWrite 0x08 4 0x000000FF)
  | tuneWord (hx : x = .hostWrite 0x08 4 0x00000010) (idle : Idle s) (ready : s.chipReady = true)
      (passes : PassesCheck s.cfg (Claims.request s) s.plan)
  | tuneChecked (hx : x = .computeDone) (run : s.running = some .tune) (phase : s.phase = .computing)
      (passes : PassesCheck s.cfg s.tr s.plan)

/-- How a step from s to t that takes x may treat the accumulators (R282). -/
inductive AccsMove (s t : State) (x : Stimulus) : Prop
  | kept (h : accs t = accs s)
  | berAnswer (d : Dvb) (a : Answer) (hx : x = .chipAnswer a) (run : s.running = some (Claims.berInstr d))
      (ok : a.ok = true)
      (phase : (∃ win, s.phase = .berErrors d win) ∨ s.phase = .berWindow d ∧ (Claims.berRow s.cfg d).2.1.nbytes = 0)
  | berWord (d : Dvb) (hx : x = .hostWrite 0x08 4 (encode (Claims.berInstr d))) (idle : Idle s)
  | cleared (h : accs t = (0, 0)) (cause : ClearsAccs s x)

/-- In a phase of BER the running command is the BER command of its delivery system (R270). -/
theorem BlockInv.berRunning {s : State} (h : BlockInv s) {d : Dvb}
    (hp : (∃ win, s.phase = .berErrors d win) ∨ s.phase = .berWindow d) : s.running = some (Claims.berInstr d) := by
  have hfits := h.phaseFits
  unfold PhaseFits at hfits
  rcases hp with ⟨win, hp⟩ | hp <;> rw [hp] at hfits <;> cases d <;> exact hfits.1

/-- The chip's answer moves them only where a running BER has its error count (R276). -/
theorem chipAnswer_accsMove (a : Answer) {s : State} (h : BlockInv s) : AccsMove s (chipAnswer a s) (.chipAnswer a) := by
  by_cases hber : a.ok = true ∧ ∃ d, (∃ win, s.phase = .berErrors d win) ∨
      s.phase = .berWindow d ∧ (Claims.berRow s.cfg d).2.1.nbytes = 0
  · obtain ⟨hok, d, hphase⟩ := hber
    exact .berAnswer d a rfl (h.berRunning (hphase.imp_right And.left)) hok hphase
  · exact .kept (chipAnswer_accs a s (fun hok d win hp => hber ⟨hok, d, .inl ⟨win, hp⟩⟩)
      (fun hok d hp hz => hber ⟨hok, d, .inr ⟨hp, by cases d <;> exact hz⟩⟩))

/-- Among the commands that compute, only TUNE's CHECK moves them (R206). -/
theorem computation_accs {i : Instr} (hi : i ≠ .tune) (s : State) : accs (computation i s) = accs s := by
  cases i with
  | tune => exact absurd rfl hi
  | pll => simp only [computation, pllBody]; split <;> rfl
  | tsclk => simp only [computation, tsclkBody]; split <;> rfl
  | _ => rfl

theorem computeDone_accsMove (s : State) : AccsMove s (computeDone s) .computeDone := by
  unfold computeDone
  split
  · next i hphase hrun =>
    by_cases hi : i = .tune
    · subst hi
      rcases tuneCheck_accs { s with phase := .idle } with hkept | ⟨hzero, hvalid, hplan⟩
      · exact .kept hkept
      · exact .cleared hzero (.tuneChecked rfl hrun hphase ⟨hvalid, hplan⟩)
    · exact .kept (computation_accs hi _)
  · exact .kept rfl

/-- A TUNE accepted while idle clears them only with the chip ready and a request that passes CHECK (R206). -/
theorem tune_accsMove {s t : State} (h : BlockInv s) (hr : s.rstN = true) (hid : s.running = none)
    (hexec : exec .tune s = .next t) : AccsMove s t (.hostWrite 0x08 4 (encode .tune)) := by
  by_cases hstarts : s.chipReady = true ∧ PassesCheck s.cfg (Claims.request s) s.plan
  · obtain ⟨u, hu, -, hforward⟩ := tune_idle_inv h hr hid
    cases hexec.symm.trans hu
    rcases hforward.acc (by simp) (by simp) with ⟨herr, hcnt⟩ | ⟨herr, hcnt, -⟩
    · exact .kept (congrArg₂ Prod.mk herr hcnt)
    · exact .cleared (congrArg₂ Prod.mk herr hcnt) (.tuneWord rfl hid hstarts.1 hstarts.2)
  · cases hexec
    rw [submit_idle _ _ hid]
    exact .kept (tuneStart_accs (s := accept .tune s) rfl (show s.todo = [] from todo_of_idle h hid) hstarts)

/-- A command's word moves them only if it is RESET, or BER or TUNE written while idle. -/
theorem exec_accsMove {i : Instr} {s t : State} (h : BlockInv s) (hr : s.rstN = true) (hexec : exec i s = .next t) :
    AccsMove s t (.hostWrite 0x08 4 (encode i)) := by
  by_cases hreset : i = .reset
  · subst hreset
    cases hexec
    exact .cleared rfl (.resetWord rfl)
  by_cases hid : s.running = none
  · by_cases htune : i = .tune
    · subst htune
      exact tune_accsMove h hr hid hexec
    by_cases h1 : i = .berS1
    · subst h1
      exact .berWord .s1 rfl hid
    by_cases h2 : i = .berS2
    · subst h2
      exact .berWord .s2 rfl hid
    exact .kept (exec_accs h hr hexec hreset htune h1 h2 hid)
  · exact .kept (exec_busy_accs hexec hreset hid)

/-- A host write moves them only by writing a command word to CMD. -/
theorem hostWrite_accsMove {off : Nat} {v : Word} {s t : State} (h : BlockInv s) (h4 : off % 4 = 0) (hl : off < 128)
    (hwrite : hostWrite off v s = .next t) : AccsMove s t (.hostWrite off 4 v) := by
  unfold hostWrite at hwrite
  split at hwrite
  · next hcmd =>
    obtain ⟨hreg, hr⟩ := hcmd
    obtain rfl := eq_of_regAt_cmd h4 hl hreg
    unfold submitWord at hwrite
    split at hwrite
    · next i hdecode =>
      rw [encode_of_decode hdecode]
      exact exec_accsMove h hr hwrite
    · cases hwrite
      unfold submitIllegal
      split <;> exact .kept rfl
  · cases hwrite
    exact .kept (hostWriteReg_accs off v s)

theorem stimulusStep_accsMove {x : Stimulus} {s t : State} (h : BlockInv s) (hstep : stimulusStep x s = .next t) :
    AccsMove s t x := by
  cases x with
  | hostRead off nbytes =>
    cases windowed_next hstep
    exact .kept rfl
  | hostWrite off nbytes v =>
    obtain ⟨rfl, h4, hl⟩ := windowed_access hstep
    exact hostWrite_accsMove h h4 hl (windowed_next hstep)
  | chipAnswer a =>
    cases hstep
    exact chipAnswer_accsMove a h
  | tick =>
    cases hstep
    exact .kept (tickPulse_accs s)
  | computeDone =>
    cases hstep
    exact computeDone_accsMove s
  | computeHold | chipReadyLevel =>
    cases hstep
    exact .kept rfl
  | rstNLevel level =>
    cases hstep
    cases level with
    | true => exact .kept rfl
    | false => exact .cleared rfl (.rstN rfl)

/-- Settles O55, by what the step takes. -/
theorem accumulatorsChangeOnlyByBerTuneAndReset : Obligations.AccumulatorsChangeOnlyByBerTuneAndReset := by
  intro s t h hstep
  cases hi : s.inputs with
  | nil =>
    cases (step_nothing hi).symm.trans hstep
    exact .inl ⟨rfl, rfl⟩
  | cons x rest =>
    rw [step_stimulus hi] at hstep
    cases stimulusStep_accsMove (h.takeInput rest) hstep with
    | kept hkept => exact .inl (accs_eq hkept)
    | berAnswer d a hx hrun hok hphase => subst hx; exact .inr (.inl ⟨d, a, rest, hrun, rfl, hok, hphase⟩)
    | berWord d hx hid => subst hx; exact .inr (.inr (.inl ⟨d, rest, hid, rfl⟩))
    | cleared hzero hcause =>
      refine .inr (.inr (.inr ⟨congrArg Prod.fst hzero, congrArg Prod.snd hzero, rest, ?_⟩))
      cases hcause with
      | rstN hx => subst hx; exact .inl rfl
      | resetWord hx => subst hx; exact .inr (.inl rfl)
      | tuneWord hx hid hready hpasses =>
        obtain ⟨hvalid, p, hplan⟩ := hpasses
        subst hx
        exact .inr (.inr (.inl ⟨p, hid, hready, rfl, requestOk_of_validate hvalid, hplan⟩))
      | tuneChecked hx hrun hphase hpasses =>
        obtain ⟨hvalid, p, hplan⟩ := hpasses
        subst hx
        exact .inr (.inr (.inr ⟨p, hrun, hphase, rfl, requestOk_of_validate hvalid, hplan⟩))

/-! ## Host reads -/

/-- A host read completes with the value of the register at its offset (R31, R84). -/
theorem step_hostRead_shows {s : State} {off : Nat} {rest : List Stimulus} (hi : s.inputs = .hostRead off 4 :: rest)
    (h4 : off % 4 = 0) (hl : off < 128) :
    step s = .next { s with inputs := rest, outputs := s.outputs ++ [.hostData off (readReg (regAt off) s)] } := by
  rw [step_hostRead hi h4 hl]
  unfold hostRead emit
  cases regAt off <;> rfl

/-- The value read at a register's offset is the register's. -/
theorem readReg_at {off : Nat} (r : HostReg) (h : off = r.offset) (s : State) : readReg (regAt off) s = readReg r s := by
  rw [h, regAt_offset]

/-- From 0x70 on the window is reserved (R31). -/
theorem reserved_of_le {off : Nat} (h4 : off % 4 = 0) (hl : off < 128) (h : 0x70 ≤ off) :
    ∃ k, off = (HostReg.reserved k).offset :=
  ⟨⟨(off - 0x70) / 4, by omega⟩, by simp only [HostReg.offset]; omega⟩

/-- The codes of R313 are the list the statements give. -/
theorem errCode_mem (e : ErrCode) : (e, e.code) ∈ Claims.errCodes := by cases e <;> decide

theorem lockState_mem (l : LockState) : (l, l.code) ∈ Claims.lockCodes := by cases l <;> decide

theorem seqStep_mem (st : SeqStep) : (st, st.code) ∈ Claims.stepCodes := by cases st <;> decide

/-! STATUS and SEQ, field by field: the fields below one are peeled off the concatenation (R34, R45). -/

section PackedRegisters

variable (s : State)

theorem statusWord_busy : s.statusWord.getLsbD 0 = s.running.isSome := by
  unfold State.statusWord
  iterate 1 rw [BitVec.getLsbD_append]
  simp [bit, State.busy]

theorem statusWord_done : s.statusWord.getLsbD 1 = s.done := by
  unfold State.statusWord
  iterate 2 rw [BitVec.getLsbD_append]
  simp [bit]

theorem statusWord_overrun : s.statusWord.getLsbD 2 = s.overrun := by
  unfold State.statusWord
  iterate 3 rw [BitVec.getLsbD_append]
  simp [bit]

theorem statusWord_chipReady : s.statusWord.getLsbD 3 = s.chipReady := by
  unfold State.statusWord
  iterate 4 rw [BitVec.getLsbD_append]
  simp [bit]

theorem statusWord_bit19 : s.statusWord.getLsbD 19 = false := by
  unfold State.statusWord
  iterate 9 rw [BitVec.getLsbD_append]
  simp

theorem statusWord_lockDelsys : s.statusWord.getLsbD 20 = s.lockDelsys := by
  unfold State.statusWord
  iterate 10 rw [BitVec.getLsbD_append]
  simp [bit]

theorem statusWord_bits7to4 : s.statusWord.extractLsb' 4 4 = 0 := by
  unfold State.statusWord
  iterate 4 rw [BitVec.extractLsb'_append_eq_of_le (by decide)]
  exact BitVec.extractLsb'_append_eq_right

theorem statusWord_errCode : s.statusWord.extractLsb' 8 4 = s.errCode.code := by
  unfold State.statusWord
  iterate 5 rw [BitVec.extractLsb'_append_eq_of_le (by decide)]
  exact BitVec.extractLsb'_append_eq_right

theorem statusWord_bits15to12 : s.statusWord.extractLsb' 12 4 = 0 := by
  unfold State.statusWord
  iterate 6 rw [BitVec.extractLsb'_append_eq_of_le (by decide)]
  exact BitVec.extractLsb'_append_eq_right

theorem statusWord_lockState : s.statusWord.extractLsb' 16 3 = s.lockState.code := by
  unfold State.statusWord
  iterate 7 rw [BitVec.extractLsb'_append_eq_of_le (by decide)]
  exact BitVec.extractLsb'_append_eq_right

theorem statusWord_bits31to21 : s.statusWord.extractLsb' 21 11 = 0 := by
  unfold State.statusWord
  iterate 10 rw [BitVec.extractLsb'_append_eq_of_le (by decide)]
  exact BitVec.extractLsb'_eq_self

theorem seqWord_step : s.seqWord.extractLsb' 0 8 = s.seq.code := by
  unfold State.seqWord
  exact BitVec.extractLsb'_append_eq_right

theorem seqWord_pollIter : s.seqWord.extractLsb' 8 8 = s.pollIter := by
  unfold State.seqWord
  rw [BitVec.extractLsb'_append_eq_of_le (by decide)]
  exact BitVec.extractLsb'_append_eq_right

theorem seqWord_lastLockByte : s.seqWord.extractLsb' 16 8 = s.lastLockByte := by
  unfold State.seqWord
  iterate 2 rw [BitVec.extractLsb'_append_eq_of_le (by decide)]
  exact BitVec.extractLsb'_append_eq_right

theorem seqWord_bits31to24 : s.seqWord.extractLsb' 24 8 = 0 := by
  unfold State.seqWord
  iterate 3 rw [BitVec.extractLsb'_append_eq_of_le (by decide)]
  exact BitVec.extractLsb'_eq_self

end PackedRegisters

/-- Settles O7: the value is the register's at the offset, which each clause names. -/
theorem hostReadShowsRegister : Obligations.HostReadShowsRegister := by
  intro s off rest hi h4 hl
  refine ⟨readReg (regAt off) s, step_hostRead_shows hi h4 hl, ?ctrl, ?cmd, ?errInfo, ?arg, ?res, ?mclkKhz, ?selIsi,
    ?berErrLo, ?berErrHi, ?berCntLo, ?berCntHi, ?id, ?reserved, ?status, ?seq⟩
  case ctrl => exact fun h => readReg_at .ctrl h s
  case cmd => exact fun h => readReg_at .cmd h s
  case errInfo => exact fun h => readReg_at .errInfo h s
  case arg => exact fun k h => readReg_at (.arg k) h s
  case res => exact fun k h => readReg_at (.res k) h s
  case mclkKhz => exact fun h => readReg_at .mclkKhz h s
  case selIsi => exact fun h => readReg_at .selIsi h s
  case berErrLo => exact fun h => readReg_at .berErrLo h s
  case berErrHi => exact fun h => readReg_at .berErrHi h s
  case berCntLo => exact fun h => readReg_at .berCntLo h s
  case berCntHi => exact fun h => readReg_at .berCntHi h s
  case id => exact fun h => readReg_at .id h s
  case reserved =>
    intro h
    obtain ⟨k, hk⟩ := reserved_of_le h4 hl h
    exact readReg_at (.reserved k) hk s
  case status =>
    intro h
    rw [readReg_at .status h s, readReg]
    exact ⟨statusWord_busy s, statusWord_done s, statusWord_overrun s, statusWord_chipReady s, statusWord_bits7to4 s,
      statusWord_errCode s ▸ errCode_mem s.errCode, statusWord_bits15to12 s,
      statusWord_lockState s ▸ lockState_mem s.lockState, statusWord_bit19 s, statusWord_lockDelsys s,
      statusWord_bits31to21 s⟩
  case seq =>
    intro h
    rw [readReg_at .seq h s, readReg]
    exact ⟨seqWord_step s ▸ seqStep_mem s.seq, seqWord_pollIter s, seqWord_lastLockByte s, seqWord_bits31to24 s⟩

end Sys2Proof.Machine

/-! The host window and the chip bus (20_memory.md): what a host write does by the register's access rights (R84), which
host accesses stop the machine and that no others do (R80, R81), what a successful transaction delivers (R88, R89), and
that the computations issue none (R136). -/

namespace Sys2Proof.Machine

/-! ## Host writes -/

/-- Out of reset, a host write at the offset of a register other than CMD acts on that register (R84). -/
theorem step_writes {s : State} {off : Nat} {v : Word} {rest : List Stimulus}
    (hi : s.inputs = .hostWrite off 4 v :: rest) (hr : s.rstN = true) (h4 : off % 4 = 0) (hl : off < 128)
    (r : HostReg) (h : off = r.offset) (hc : r ≠ .cmd) : step s = .next (writeReg r v { s with inputs := rest }) := by
  have hreg : regAt off = r := by rw [h, regAt_offset]
  rw [step_writeReg hi h4 hl (hreg ▸ hc) hr, hreg]

/-- ERRINFO, and every register from RES0 on, has no write rights (R31, R84). -/
theorem writeReg_readOnly {r : HostReg} (h : r.offset = 0x0C ∨ 0x30 ≤ r.offset) (v : Word) (s : State) :
    writeReg r v s = s := by
  cases r with
  | ctrl | status => simp [HostReg.offset] at h
  | arg i => simp only [HostReg.offset] at h; omega
  | _ => rfl

/-- Settles O8: the offset names the register, and each register's write is its own case of writeReg. -/
theorem hostWriteActsByRights : Obligations.HostWriteActsByRights := by
  intro s off v rest hi hr h4 hl
  have writes := step_writes hi hr h4 hl
  refine ⟨?ctrl, ?status, ?arg, ?readOnly⟩
  case ctrl => exact fun h => writes .ctrl h (by decide)
  case status => exact fun h => writes .status h (by decide)
  case arg => exact fun k h => writes (.arg k) h (by rintro ⟨⟩)
  case readOnly =>
    intro h
    have hoff : (regAt off).offset = off := offset_regAt h4 hl
    have hcmd : regAt off ≠ .cmd := fun hc => by
      have := eq_of_regAt_cmd h4 hl hc
      omega
    rw [writes (regAt off) hoff.symm hcmd, writeReg_readOnly (by rwa [hoff])]

/-! ## The accesses of the interface -/

/-- An access whose act has a next state has one itself exactly when it is one word at an offset of the window (R80, R81). -/
theorem windowed_next_iff {off nbytes : Nat} {act : State → Host.Outcome State Fault Refusal}
    (hact : ∀ u, ∃ t, act u = .next t) (s : State) :
    (∃ t, windowed off nbytes act s = .next t) ↔ (accessShape off nbytes && inWindow off) = true := by
  constructor
  · rintro ⟨t, h⟩
    obtain ⟨rfl, h4, hl⟩ := windowed_access h
    simp [accessShape, inWindow, h4, hl]
  · intro h
    obtain ⟨hshape, hwindow⟩ := Bool.and_eq_true_iff.mp h
    simpa [windowed, hshape, hwindow] using hact s

/-- The reaction to a stimulus is a next state exactly when the stimulus is of the interface: no command stops. -/
theorem stimulusStep_next_iff (x : Stimulus) (s : State) :
    (∃ t, stimulusStep x s = .next t) ↔ x.inInterface = true := by
  cases x with
  | hostRead off nbytes => exact windowed_next_iff (fun u => ⟨hostRead off u, rfl⟩) s
  | hostWrite off nbytes v => exact windowed_next_iff (hostWrite_next off v) s
  | chipAnswer | tick | chipReadyLevel | rstNLevel | computeHold | computeDone => exact iff_of_true ⟨_, rfl⟩ rfl

/-- What the interface does not have: a host access of another width, off a word's offset, or outside the window. -/
theorem not_inInterface_iff (x : Stimulus) :
    x.inInterface = false ↔
      (∃ off n, x = .hostRead off n ∧ (n ≠ 4 ∨ off % 4 ≠ 0 ∨ 128 ≤ off)) ∨
        ∃ off n v, x = .hostWrite off n v ∧ (n ≠ 4 ∨ off % 4 ≠ 0 ∨ 128 ≤ off) := by
  have access (off n : Nat) : (accessShape off n && inWindow off) = false ↔ n ≠ 4 ∨ off % 4 ≠ 0 ∨ 128 ≤ off := by
    simp only [accessShape, inWindow, Bool.and_eq_false_iff, beq_eq_false_iff_ne, decide_eq_false_iff_not, not_lt,
      or_assoc]
  cases x with
  | hostRead off n => simpa [Stimulus.inInterface] using access off n
  | hostWrite off n v => simpa [Stimulus.inInterface] using access off n
  | _ => simp [Stimulus.inInterface]

/-- Settles O9: with nothing arriving there is a next state, and what arrives is of the interface or stops the machine. -/
theorem stopsExactlyOnAccessesOutsideTheInterface : Obligations.StopsExactlyOnAccessesOutsideTheInterface := by
  intro s
  rw [← not_exists]
  cases hi : s.inputs with
  | nil => simp [step_nothing hi]
  | cons x rest =>
    rw [step_stimulus hi, stimulusStep_next_iff, Bool.not_eq_true, not_inInterface_iff]
    constructor
    · exact fun h => ⟨x, rest, rfl, h⟩
    · rintro ⟨_, _, ⟨⟩, h⟩
      exact h

/-! ## The stimuli a step leaves -/

theorem Keeps.inputs_suffix {s t : State} (h : Keeps s t) : t.inputs <:+ s.inputs := h.inputs ▸ List.suffix_rfl

@[simp] theorem react_inputs (x : Stimulus) (s : State) : (react x s).inputs = s.inputs := by
  cases x with
  | chipAnswer | tick | computeHold | computeDone => exact (react_keeps rfl s).inputs
  | rstNLevel level => cases level <;> rfl
  | chipReadyLevel | hostRead | hostWrite => rfl

/-- A command that runs on takes stimuli from the front alone. -/
theorem runOn_inputs_suffix {l : List Stimulus} {s : State} (h : s.inputs = l) : (runOn l s).inputs <:+ l := by
  induction l generalizing s with
  | nil => rw [runOn_nil, h]
  | cons x rest ih =>
    unfold runOn
    split
    · exact (ih (react_inputs x _)).trans (List.suffix_cons x rest)
    · exact h ▸ List.suffix_rfl

theorem computePoint_inputs_suffix {body : State → State} (hb : ∀ u, Keeps u (body u)) (s : State) :
    (computePoint body s).inputs <:+ s.inputs := by
  unfold computePoint
  split
  · next rest hi => exact hi ▸ List.suffix_cons _ rest
  · exact (hb s).inputs_suffix

theorem measureStart_inputs_suffix (i : Instr) {begin_ : State → State} (hb : ∀ u, Keeps u (begin_ u)) (s : State) :
    (measureStart i begin_ s).inputs <:+ s.inputs := (measureStart_keeps i begin_ hb s).inputs_suffix

theorem tuneStart_inputs_suffix (s : State) : (tuneStart s).inputs <:+ s.inputs := by
  unfold tuneStart
  simp only
  split
  · exact computePoint_inputs_suffix tuneCheck_keeps _
  · exact (raiseError_keeps _ _ _).inputs_suffix

/-- A command word is an overrun, which takes no stimulus, or its command starts and runs on. -/
theorem submit_inputs_suffix (i : Instr) {start : State → State} (hstart : ∀ u, (start u).inputs <:+ u.inputs)
    (s : State) : (submit i start s).inputs <:+ s.inputs := by
  unfold submit
  split
  · exact List.suffix_rfl
  · exact (runOn_inputs_suffix rfl).trans (hstart (accept i s))

theorem exec_inputs_suffix {i : Instr} {s t : State} (h : exec i s = .next t) : t.inputs <:+ s.inputs := by
  cases i with
  | nop => cases h; exact submit_inputs_suffix .nop (fun u => (complete_keeps _ u).inputs_suffix) s
  | gold => cases h; exact submit_inputs_suffix .gold (computePoint_inputs_suffix (computation_keeps .gold)) s
  | pll => cases h; exact submit_inputs_suffix .pll (computePoint_inputs_suffix (computation_keeps .pll)) s
  | mclk => cases h; exact submit_inputs_suffix .mclk (computePoint_inputs_suffix (computation_keeps .mclk)) s
  | tsclk => cases h; exact submit_inputs_suffix .tsclk (computePoint_inputs_suffix (computation_keeps .tsclk)) s
  | lpf => cases h; exact submit_inputs_suffix .lpf (computePoint_inputs_suffix (computation_keeps .lpf)) s
  | tune => cases h; exact submit_inputs_suffix .tune tuneStart_inputs_suffix s
  | abort =>
    cases h
    split
    · unfold abortWhileBusy
      split <;> exact List.suffix_rfl
    · exact List.suffix_rfl
  | gain => cases h; exact submit_inputs_suffix .gain (measureStart_inputs_suffix .gain gainBegin_keeps) s
  | cnrS1 => cases h; exact submit_inputs_suffix .cnrS1 (measureStart_inputs_suffix .cnrS1 cnrS1Begin_keeps) s
  | cnrS2 => cases h; exact submit_inputs_suffix .cnrS2 (measureStart_inputs_suffix .cnrS2 cnrS2Begin_keeps) s
  | berS1 => cases h; exact submit_inputs_suffix .berS1 (measureStart_inputs_suffix .berS1 (berBegin_keeps .s1)) s
  | berS2 => cases h; exact submit_inputs_suffix .berS2 (measureStart_inputs_suffix .berS2 (berBegin_keeps .s2)) s
  | reset => cases h; exact List.suffix_rfl

theorem hostWriteReg_inputs (off : Nat) (v : Word) (s : State) : (hostWriteReg off v s).inputs = s.inputs := by
  unfold hostWriteReg
  split
  · cases regAt off <;> rfl
  · rfl

theorem submitIllegal_inputs (w : Word) (s : State) : (submitIllegal w s).inputs = s.inputs := by
  unfold submitIllegal
  split <;> rfl

theorem hostWrite_inputs_suffix {off : Nat} {v : Word} {s t : State} (h : hostWrite off v s = .next t) :
    t.inputs <:+ s.inputs := by
  unfold hostWrite at h
  split at h
  · unfold submitWord at h
    split at h
    · exact exec_inputs_suffix h
    · cases h
      exact submitIllegal_inputs v s ▸ List.suffix_rfl
  · cases h
    exact hostWriteReg_inputs off v s ▸ List.suffix_rfl

theorem stimulusStep_inputs_suffix {x : Stimulus} {s t : State} (h : stimulusStep x s = .next t) :
    t.inputs <:+ s.inputs := by
  cases x with
  | hostRead off nbytes =>
    cases windowed_next h
    exact List.suffix_rfl
  | hostWrite off nbytes v => exact hostWrite_inputs_suffix (windowed_next h)
  | chipAnswer | tick | chipReadyLevel | rstNLevel | computeHold | computeDone =>
    cases h
    rw [react_inputs]

/-- A step takes stimuli from the front alone: what is left to arrive is a last part of what was. -/
theorem step_inputs_suffix {s t : State} (h : step s = .next t) : t.inputs <:+ s.inputs := by
  cases hi : s.inputs with
  | nil =>
    cases (step_nothing hi).symm.trans h
    exact hi ▸ List.suffix_rfl
  | cons x rest =>
    rw [step_stimulus hi] at h
    exact (stimulusStep_inputs_suffix h).trans (List.suffix_cons x rest)

/-- A state whose stimuli are all of the interface has a next state. -/
theorem step_next_of_inInterface {s : State} (h : ∀ x ∈ s.inputs, x.inInterface = true) : ∃ t, step s = .next t := by
  cases hi : s.inputs with
  | nil => exact ⟨s, step_nothing hi⟩
  | cons x rest =>
    rw [step_stimulus hi]
    exact (stimulusStep_next_iff x _).mpr (h x (by simp [hi]))

/-- Settles O58: each step ends in a next state, and the stimuli it leaves are still all of the interface. -/
theorem interfaceRunsNeverStop : Obligations.InterfaceRunsNeverStop := by
  intro k
  induction k with
  | zero => exact fun s _ => ⟨s, rfl⟩
  | succ k ih =>
    intro s h
    obtain ⟨t, hstep⟩ := step_next_of_inInterface h
    obtain ⟨u, hrun⟩ := ih t fun x hx => h x ((step_inputs_suffix hstep).subset hx)
    exact ⟨u, (run_succ k hstep).trans hrun⟩

/-! ## Bursts -/

/-- The cells of a burst stand at the addresses from its own on, wrapping mod 2^16 (R89). -/
theorem burstCells_addr {a : BusAddr} {bytes : List Byte} {c : BusAddr × Byte} (h : c ∈ burstCells a bytes) :
    ∃ k, k < bytes.length ∧ c.1 = a + BitVec.ofNat 16 k := by
  induction bytes generalizing a with
  | nil => cases h
  | cons b rest ih =>
    rcases List.mem_cons.mp h with rfl | hrest
    · exact ⟨0, by simp, by simp⟩
    · obtain ⟨k, hk, hc⟩ := ih hrest
      exact ⟨k + 1, by simpa using hk, by rw [hc]; bv_omega⟩

/-- A burst leaves every address outside it alone. -/
theorem Memory.load_burst_other {a : BusAddr} {bytes : List Byte} {y : Nat} (m : Memory)
    (hy : ∀ k, k < bytes.length → y ≠ (a + BitVec.ofNat 16 k).toNat) :
    Memory.load (Memory.storeAll (burstCells a bytes) m) y = Memory.load m y := by
  refine Memory.load_storeAll_other _ m y fun c hc => ?_
  obtain ⟨k, hk, haddr⟩ := burstCells_addr hc
  exact haddr ▸ (hy k hk).symm

/-- A burst no longer than the address space leaves each of its bytes at its own address: a later one wraps onto none
before it. -/
theorem Memory.load_burst {a : BusAddr} {bytes : List Byte} (m : Memory) (hlen : bytes.length ≤ 65536) (k : Nat)
    (hk : k < bytes.length) :
    Memory.load (Memory.storeAll (burstCells a bytes) m) (a + BitVec.ofNat 16 k).toNat = some bytes[k] := by
  induction bytes generalizing a m k with
  | nil => cases hk
  | cons b rest ih =>
    simp only [List.length_cons] at hlen hk
    cases k with
    | zero =>
      have apart : ∀ j, j < rest.length → a.toNat ≠ (a + 1 + BitVec.ofNat 16 j).toNat := by
        intro j hj
        bv_omega
      have haddr : a + BitVec.ofNat 16 0 = a := BitVec.add_zero a
      rw [haddr]
      exact (Memory.load_burst_other _ apart).trans (Memory.load_store_same _ b m)
    | succ k =>
      have haddr : a + BitVec.ofNat 16 (k + 1) = a + 1 + BitVec.ofNat 16 k := by bv_omega
      rw [haddr]
      exact ih _ (by omega) k (by omega)

/-- Settles O45: the next transaction is issued as Laws/Step.lean says, and the chip's bytes are those of each kind. -/
theorem transactionDeliversItsBytes : Obligations.TransactionDeliversItsBytes := by
  intro s t u todo a rest _ ho ht ha hi
  refine ⟨Memory.storeAll (txnCells a.byte t) s.chip, step_answer_more hi ho ht ha, ?read, ?write, ?rmw, ?burst⟩
  case read =>
    rintro x rfl
    rfl
  case write =>
    rintro x b rfl
    exact ⟨Memory.load_store_same _ b _, fun y hy => Memory.load_store_other b _ hy⟩
  case rmw =>
    rintro x mask v rfl
    exact ⟨Memory.load_store_same _ _ _, fun y hy => Memory.load_store_other _ _ hy⟩
  case burst =>
    rintro x bytes rfl hlen
    exact ⟨Memory.load_burst _ hlen, fun y hy => Memory.load_burst_other _ hy⟩

/-! ## Computations -/

/-- The word of a computing command submits its computation (R310, R372). -/
theorem exec_pure {i : Instr} (hi : i ∈ pureCommands) (s : State) :
    exec i s = .next (submit i (computePoint (computation i)) s) := by
  simp only [pureCommands, List.mem_cons, List.not_mem_nil, or_false] at hi
  rcases hi with rfl | rfl | rfl | rfl | rfl <;> rfl

/-- A computation ends with results or with PARAM, and shows nothing at the ports (R136). -/
theorem computation_outputs {i : Instr} (hi : i ∈ pureCommands) (s : State) :
    (computation i s).outputs = s.outputs := by
  simp only [pureCommands, List.mem_cons, List.not_mem_nil, or_false] at hi
  rcases hi with rfl | rfl | rfl | rfl | rfl
  · rfl
  · simp only [computation, pllBody]
    split <;> rfl
  · rfl
  · simp only [computation, tsclkBody]
    split <;> rfl
  · rfl

/-- A computation of GOLD, PLL, MCLK, TSCLK or LPF is held, with no transaction of its own. -/
structure HeldComputation (i : Instr) (s : State) : Prop where
  pure : i ∈ pureCommands
  run : s.running = some i
  phase : s.phase = .computing
  todo : s.todo = []

/-- A held computation waits for its end, and shows nothing either way; an abandoned transaction that ends meanwhile has
no successor to issue. -/
theorem HeldComputation.react {i : Instr} {s : State} (h : HeldComputation i s) {x : Stimulus}
    (hx : x.isEngine = true) :
    (react x s).outputs = s.outputs ∧ (HeldComputation i (react x s) ∨ (react x s).running = none) := by
  cases x with
  | chipAnswer a =>
    cases ho : s.orphan with
    | none =>
      rw [Machine.react, chipAnswer_nobody a ho h.todo]
      exact ⟨rfl, .inl h⟩
    | some t =>
      rw [Machine.react, chipAnswer_orphan a ho, issueHead_empty (by exact h.todo)]
      exact ⟨rfl, .inl ⟨h.pure, h.run, h.phase, h.todo⟩⟩
  | tick =>
    have hs : Machine.react .tick s = s := by simp [Machine.react, tickPulse, h.phase]
    rw [hs]
    exact ⟨rfl, .inl h⟩
  | computeHold => exact ⟨rfl, .inl h⟩
  | computeDone =>
    have hs : Machine.react .computeDone s = computation i { s with phase := .idle } := by
      simp [Machine.react, Machine.computeDone, h.phase, h.run]
    rw [hs]
    exact ⟨computation_outputs h.pure _, .inr (computation_running h.pure _)⟩
  | hostRead | hostWrite | chipReadyLevel | rstNLevel => cases hx

theorem HeldComputation.runOn_outputs {i : Instr} {s : State} (h : HeldComputation i s) (l : List Stimulus) :
    (runOn l s).outputs = s.outputs := by
  induction l generalizing s with
  | nil => rfl
  | cons x rest ih =>
    cases hx : x.isEngine with
    | false => rw [runOn_other s hx]
    | true =>
      have taken : HeldComputation i { s with inputs := rest } := ⟨h.pure, h.run, h.phase, h.todo⟩
      rw [runOn_engine (by rw [h.run]; exact Option.some_ne_none _) hx]
      obtain ⟨hout, hheld | hended⟩ := taken.react hx
      · exact (ih hheld).trans hout
      · rw [runOn_idle rest hended]
        exact hout

/-- A computing command, accepted with no transaction pending, shows nothing: it ends at once, or is held and runs on. -/
theorem submit_pure_outputs {i : Instr} (hi : i ∈ pureCommands) {s : State} (hid : s.running = none)
    (htodo : s.todo = []) : (submit i (computePoint (computation i)) s).outputs = s.outputs := by
  rw [submit_idle i _ hid]
  unfold computePoint
  split
  · next rest _ =>
    have held : HeldComputation i { accept i s with inputs := rest, phase := .computing } := ⟨hi, rfl, rfl, htodo⟩
    exact held.runOn_outputs rest
  · rw [runCommand, runOn_idle _ (computation_running hi _)]
    exact computation_outputs hi _

/-- Settles O46: the five computations show nothing, and NOP, ABORT and RESET end at their word. -/
theorem computationsTouchNoBus : Obligations.ComputationsTouchNoBus := by
  intro i s t hi hid htodo hexec
  rcases List.mem_append (s := pureCommands) (t := [.nop, .abort, .reset]) |>.mp hi with hpure | hsystem
  · rw [exec_pure hpure] at hexec
    cases hexec
    exact submit_pure_outputs hpure hid htodo
  · simp only [List.mem_cons, List.not_mem_nil, or_false] at hsystem
    rcases hsystem with rfl | rfl | rfl
    · cases hexec
      rw [submit_idle _ _ hid, runCommand_complete]
      rfl
    · cases hexec
      rw [if_neg (by simp [State.busy, hid])]
      rfl
    · cases hexec
      rfl

end Sys2Proof.Machine

/-! The command word (30_encoding.md): the decoder answers a command exactly on that command's word (R111, R115), and
over the little-endian bytes of the window (R82) exactly on that word's four bytes. -/

namespace Sys2Proof

/-! ## The word of a command -/

@[simp] theorem mbzZero_setWidth (b : Byte) : mbzZero (b.setWidth 32) = true := by
  rw [mbzZero, beq_iff_eq]
  apply BitVec.eq_of_getLsbD_eq
  intro j hj
  simp

@[simp] theorem opcField_setWidth (b : Byte) : opcField (b.setWidth 32) = b := by
  rw [opcField, BitVec.extractLsb'_setWidth_of_le (by decide), BitVec.extractLsb'_eq_self]

/-- A command's word is its two fields: MBZ zero and OPC the command's opcode (R110, R115). -/
theorem eq_encode_iff {w : Word} {i : Instr} : w = encode i ↔ mbzZero w = true ∧ opcField w = opcOf i := by
  constructor
  · rintro rfl
    exact ⟨mbzZero_setWidth _, opcField_setWidth _⟩
  · rintro ⟨hmbz, hopc⟩
    rw [word_of_opcField hmbz, hopc, encode]

/-- Every command's word decodes to it (R115): the per-command laws of Laws/PerInstr.lean in one statement. -/
@[simp] theorem decode_encode (i : Instr) : decode (encode i) = .ok i := by
  cases i with
  | nop => exact Laws.EncodeDecode.nop
  | gold => exact Laws.EncodeDecode.gold
  | pll => exact Laws.EncodeDecode.pll
  | mclk => exact Laws.EncodeDecode.mclk
  | tsclk => exact Laws.EncodeDecode.tsclk
  | lpf => exact Laws.EncodeDecode.lpf
  | tune => exact Laws.EncodeDecode.tune
  | abort => exact Laws.EncodeDecode.abort
  | gain => exact Laws.EncodeDecode.gain
  | cnrS1 => exact Laws.EncodeDecode.cnrS1
  | cnrS2 => exact Laws.EncodeDecode.cnrS2
  | berS1 => exact Laws.EncodeDecode.berS1
  | berS2 => exact Laws.EncodeDecode.berS2
  | reset => exact Laws.EncodeDecode.reset

theorem decode_eq_ok_iff {w : Word} {i : Instr} : decode w = .ok i ↔ w = encode i :=
  ⟨encode_of_decode, fun h => h ▸ decode_encode i⟩

/-! ## The opcode map -/

/-- The fourteen commands, in the order of the opcode map (R115). -/
def commands : List Instr :=
  [.nop, .gold, .pll, .mclk, .tsclk, .lpf, .tune, .abort, .gain, .cnrS1, .cnrS2, .berS1, .berS2, .reset]

theorem mem_commands (i : Instr) : i ∈ commands := by
  cases i <;> decide

theorem mem_map_opcOf_commands {b : Byte} : b ∈ commands.map opcOf ↔ ∃ i, b = opcOf i := by
  simp only [List.mem_map, mem_commands, true_and, eq_comm]

/-! ## The bytes of a word -/

section
open BitVec

/-- Splitting a word into bytes undoes joining them: each byte stands at its own offset (R82). -/
theorem bytesOfWord_wordOfBytes (b0 b1 b2 b3 : Byte) : bytesOfWord (wordOfBytes b0 b1 b2 b3) = [b0, b1, b2, b3] := by
  have h0 : byteOfWord (wordOfBytes b0 b1 b2 b3) 0 = b0 := extractLsb'_append_eq_right
  have h1 : byteOfWord (wordOfBytes b0 b1 b2 b3) 1 = b1 :=
    (extractLsb'_append_eq_of_le (by decide)).trans extractLsb'_append_eq_right
  have h2 : byteOfWord (wordOfBytes b0 b1 b2 b3) 2 = b2 :=
    (extractLsb'_append_eq_of_le (by decide)).trans
      ((extractLsb'_append_eq_of_le (by decide)).trans extractLsb'_append_eq_right)
  have h3 : byteOfWord (wordOfBytes b0 b1 b2 b3) 3 = b3 :=
    (extractLsb'_append_eq_of_le (by decide)).trans
      ((extractLsb'_append_eq_of_le (by decide)).trans extractLsb'_append_eq_left)
  rw [bytesOfWord, h0, h1, h2, h3]

/-- Joining a word's bytes gives the word back: the bytes are adjacent slices, and together the whole of it (R82). -/
theorem wordOfBytes_byteOfWord (w : Word) :
    wordOfBytes (byteOfWord w 0) (byteOfWord w 1) (byteOfWord w 2) (byteOfWord w 3) = w := by
  have upper : byteOfWord w 3 ++ byteOfWord w 2 = w.extractLsb' 16 16 :=
    extractLsb'_append_extractLsb'_eq_extractLsb' rfl
  have above : w.extractLsb' 16 16 ++ byteOfWord w 1 = w.extractLsb' 8 24 :=
    extractLsb'_append_extractLsb'_eq_extractLsb' rfl
  have whole : w.extractLsb' 8 24 ++ byteOfWord w 0 = w.extractLsb' 0 32 :=
    extractLsb'_append_extractLsb'_eq_extractLsb' rfl
  calc wordOfBytes (byteOfWord w 0) (byteOfWord w 1) (byteOfWord w 2) (byteOfWord w 3)
    _ = w.extractLsb' 16 16 ++ byteOfWord w 1 ++ byteOfWord w 0 :=
        congrArg (fun u => u ++ byteOfWord w 1 ++ byteOfWord w 0) upper
    _ = w.extractLsb' 8 24 ++ byteOfWord w 0 := congrArg (· ++ byteOfWord w 0) above
    _ = w.extractLsb' 0 32 := whole
    _ = w := extractLsb'_eq_self

end

/-! ## The byte decoder -/

/-- At the head of a word's bytes the byte decoder answers what the decoder does, and leaves the bytes after them. -/
theorem decodeBytes_bytesOfWord_append (w : Word) (rest : List Byte) :
    decodeBytes (bytesOfWord w ++ rest) = (decode w).map fun i => (i, rest) := by
  simp only [bytesOfWord, List.cons_append, List.nil_append, decodeBytes, wordOfBytes_byteOfWord]

/-- A list shorter than a word has no answer; any other is a word's bytes and what follows them. -/
theorem decodeBytes_ok_inv {bytes rest : List Byte} {i : Instr} (h : decodeBytes bytes = .ok (i, rest)) :
    ∃ w, bytes = bytesOfWord w ++ rest ∧ decode w = .ok i := by
  match bytes with
  | b0 :: b1 :: b2 :: b3 :: tail =>
    refine ⟨wordOfBytes b0 b1 b2 b3, ?_⟩
    rw [decodeBytes] at h
    cases hw : decode (wordOfBytes b0 b1 b2 b3) with
    | error e => rw [hw] at h; cases h
    | ok j =>
      rw [hw] at h
      cases h
      exact ⟨by rw [bytesOfWord_wordOfBytes]; rfl, rfl⟩
  | [] | [_] | [_, _] | [_, _, _] => cases h

/-! ## The obligations -/

/-- Settles O1: the bytes before rest are those of a word that decodes to the command, and only its own word does. -/
theorem decodeBytesInvertsEncode : Obligations.DecodeBytesInvertsEncode := by
  intro bytes rest i
  constructor
  · intro h
    obtain ⟨w, rfl, hw⟩ := decodeBytes_ok_inv h
    rw [encode_of_decode hw]
  · rintro rfl
    rw [decodeBytes_bytesOfWord_append, decode_encode]
    rfl

/-- Settles O2: a word decodes when it is some command's word, that is by its two fields; the fourteen opcodes listed
are those of the commands. -/
theorem decodeAcceptsExactlyTheOpcodeMap : Obligations.DecodeAcceptsExactlyTheOpcodeMap := by
  intro w
  calc (∃ i, decode w = .ok i)
    _ ↔ ∃ i, mbzZero w = true ∧ opcField w = opcOf i := by simp only [decode_eq_ok_iff, eq_encode_iff]
    _ ↔ mbzZero w = true ∧ opcField w ∈ commands.map opcOf := by rw [exists_and_left, mem_map_opcOf_commands]
    _ ↔ w.extractLsb' 8 24 = 0 ∧ opcField w ∈ commands.map opcOf := and_congr_left' beq_iff_eq

/-- Settles O3: each listed word is its command's encoding; 0x101 has a bit of MBZ set, and 0x06 is no opcode (R116). -/
theorem opcodeMapWordsDecode : Obligations.OpcodeMapWordsDecode :=
  ⟨decode_encode .nop, decode_encode .gold, decode_encode .pll, decode_encode .mclk, decode_encode .tsclk,
    decode_encode .lpf, decode_encode .tune, decode_encode .abort, decode_encode .gain, decode_encode .cnrS1,
    decode_encode .cnrS2, decode_encode .berS1, decode_encode .berS2, decode_encode .reset, rfl, rfl⟩

end Sys2Proof

/-! The gold-code generator (40_lfsr.md): a step bit by bit (R130), the checkpoint table as the generator's states at
multiples of 5000 (R132), what GOLD leaves (R133, R134, R137) and the PLS bytes (R135, R139). -/

namespace Sys2Proof.Machine

/-! ## One step -/

/-- The bit that enters at the top: bit 17 exactly when the feedback is 1. -/
theorem getLsbD_feedback (b : Bool) (j : Nat) :
    (if b then 0x20000 else 0 : GoldCode).getLsbD j = (decide (j = 17) && b) := by
  cases b with
  | false => simp
  | true =>
    have top : (0x20000 : GoldCode) = BitVec.twoPow 18 17 := rfl
    simp [top, BitVec.getLsbD_twoPow, eq_comm]

/-- Settles O18: shifting right leaves bit 17 clear, and the feedback bit enters there alone. -/
theorem lfsrStepShiftsFeedbackIn : Obligations.LfsrStepShiftsFeedbackIn := by
  intro tap s j hj
  rw [lfsrStep, BitVec.getLsbD_or, BitVec.getLsbD_ushiftRight, getLsbD_feedback]
  by_cases h17 : j = 17
  · subst h17
    simp
  · simp [h17, Nat.add_comm]

/-- A step is linear over XOR: every bit after it is a bit before it, or the XOR of two. -/
theorem lfsrStep_xor (tap : Fin 18) (a b : GoldCode) : lfsrStep tap (a ^^^ b) = lfsrStep tap a ^^^ lfsrStep tap b := by
  apply BitVec.eq_of_getLsbD_eq
  intro j hj
  rw [BitVec.getLsbD_xor]
  simp only [lfsrStepShiftsFeedbackIn tap _ j hj, BitVec.getLsbD_xor]
  split
  · simp only [Bool.xor_assoc, Bool.xor_left_comm]
  · rfl

/-! ## Many steps -/

theorem lfsrIter_eq_iterate (tap : Fin 18) (n : Nat) (s : GoldCode) : lfsrIter tap n s = (lfsrStep tap)^[n] s := by
  induction n generalizing s with
  | zero => rfl
  | succ n ih => exact ih _

theorem lfsrIter_xor (tap : Fin 18) (n : Nat) (a b : GoldCode) :
    lfsrIter tap n (a ^^^ b) = lfsrIter tap n a ^^^ lfsrIter tap n b := by
  simp only [lfsrIter_eq_iterate]
  exact Function.Semiconj₂.iterate (lfsrStep_xor tap) n a b

theorem lfsrIter_lfsrIter (tap : Fin 18) (m n : Nat) (s : GoldCode) :
    lfsrIter tap m (lfsrIter tap n s) = lfsrIter tap (m + n) s := by
  simp only [lfsrIter_eq_iterate, Function.iterate_add_apply]

theorem lfsrIter_comm (tap : Fin 18) (m n : Nat) (s : GoldCode) :
    lfsrIter tap m (lfsrIter tap n s) = lfsrIter tap n (lfsrIter tap m s) := by
  rw [lfsrIter_lfsrIter, Nat.add_comm, ← lfsrIter_lfsrIter]

/-! ## The checkpoint table

With tap 17 the step satisfies X^18 = X^17 + 1 over GF(2), and modulo that polynomial X^5000 = X^80 + X^32 + X^2 + X. So
5000 steps are the XOR of four short runs, and neighbouring checkpoints are compared by those alone. -/

/-- X^80 + X^32 + X^2 + X applied to a state, X being a step with tap 17. -/
def checkpointJump (s : GoldCode) : GoldCode :=
  lfsrIter 17 80 s ^^^ lfsrIter 17 32 s ^^^ lfsrIter 17 2 s ^^^ lfsrIter 17 1 s

theorem lfsrIter_checkpointJump (n : Nat) (s : GoldCode) :
    lfsrIter 17 n (checkpointJump s) = checkpointJump (lfsrIter 17 n s) := by
  simp only [checkpointJump, lfsrIter_xor, lfsrIter_comm 17 n]

theorem lfsrIter_spacing_seed : lfsrIter 17 5000 0x00001 = checkpointJump 0x00001 := by decide +kernel

/-- The jump from the seed is the jump from every state of its run, since a run goes through the jump. -/
theorem lfsrIter_add_spacing (n : Nat) : lfsrIter 17 (n + 5000) 0x00001 = checkpointJump (lfsrIter 17 n 0x00001) := by
  rw [← lfsrIter_lfsrIter, lfsrIter_spacing_seed, lfsrIter_checkpointJump]

theorem checkpointsTap17_succ : ∀ k, k < 52 →
    Config.checkpointsTap17.toList.getD (k + 1) 0 = checkpointJump (Config.checkpointsTap17.toList.getD k 0) := by
  decide +kernel

/-- Settles O19, by induction on the entry: table and generator both go from one entry to the next by the jump. -/
theorem checkpointTableIsTheReference : Obligations.CheckpointTableIsTheReference := by
  intro k
  induction k with
  | zero => intro _; rfl
  | succ k ih =>
    intro hk
    rw [checkpointsTap17_succ k (by omega), ih (by omega), Nat.mul_succ, lfsrIter_add_spacing]

/-! ## The index -/

theorem goldEffective_eq (g : GoldConfig) (i : Nat) :
    goldEffective g i = if g.overrange = .clampIndex ∧ i > 260000 then 260000 else i := by
  cases h : g.overrange <;> simp [goldEffective, h, Config.goldLastIndex]

/-- Indices in range, and all indices under ADVANCE, are taken as they are (R134). -/
theorem goldEffective_eq_self {g : GoldConfig} {i : Nat} (h : i ≤ 260000 ∨ g.overrange = .advance) :
    goldEffective g i = i := by
  rw [goldEffective_eq, if_neg]
  rintro ⟨hclamp, hover⟩
  rcases h with hle | hadvance
  · omega
  · rw [hadvance] at hclamp
    cases hclamp

theorem goldEffective_le (g : GoldConfig) (i : Nat) : goldEffective g i ≤ i := by
  rw [goldEffective_eq]
  split
  · next h => exact Nat.le_of_lt h.2
  · exact Nat.le_refl i

theorem goldCheckpoint_lt (i : Nat) : goldCheckpoint i < 53 := Nat.lt_succ_of_le (Nat.min_le_right _ _)

/-- The checkpoint's own steps and those advanced from it are the index (R133). -/
theorem goldSteps_add_goldCheckpoint (i : Nat) : goldSteps i + Config.goldSpacing * goldCheckpoint i = i := by
  have : Config.goldSpacing * goldCheckpoint i ≤ i :=
    (Nat.mul_le_mul_left _ (Nat.min_le_left _ _)).trans (Nat.mul_div_le i Config.goldSpacing)
  exact Nat.sub_add_cancel this

/-- On a table that R132 allows, GOLD reaches the reference generator's state (R137). -/
theorem goldState_eq_goldRef {g : GoldConfig} (h : GoldTableOk g) (i : Nat) :
    goldState g i = goldRef g (goldEffective g i) := by
  rw [goldState, h _ (goldCheckpoint_lt _), goldRef, lfsrIter_lfsrIter, goldSteps_add_goldCheckpoint, goldRef]

/-! ## GOLD -/

theorem regWord_of_lt {v : Nat} (h : v < 2 ^ 32) : regWord v = BitVec.ofNat 32 v := if_pos h

/-- GOLD on an idle block whose computation takes no time: it ends at its word with what goldState gives (R133). -/
theorem exec_gold {s : State} (hid : Idle s) (hp : Prompt s) {i : Nat}
    (hi : i = goldEffective s.cfg.gold s.args[0].toNat) :
    exec .gold s = .next (Claims.ended s
      [(goldState s.cfg.gold s.args[0].toNat).setWidth 32, BitVec.ofNat 32 (goldCheckpoint i),
        BitVec.ofNat 32 (goldSteps i)]) := by
  have hindex : i < 2 ^ 32 := hi ▸ (goldEffective_le _ _).trans_lt s.args[0].isLt
  have hcheckpoint : goldCheckpoint i < 2 ^ 32 := (goldCheckpoint_lt i).trans (by decide)
  have hsteps : goldSteps i < 2 ^ 32 := (Nat.sub_le _ _).trans_lt hindex
  calc exec .gold s
    _ = .next (goldBody (accept .gold s)) := congrArg _ (submit_pure .gold goldBody hid hp rfl)
    _ = _ := by
      rw [← regWord_of_lt hcheckpoint, ← regWord_of_lt hsteps, hi]
      rfl

/-- Settles O20: the index, the checkpoint number and the steps are the model's own, and all three fit a register. -/
theorem goldComputes : Obligations.GoldComputes := by
  refine ⟨rfl, ?_⟩
  intro s hid hp i k n hi hk hn
  rw [← goldEffective_eq] at hi
  rw [exec_gold hid hp hi, goldState, ← hi, hn, hk]
  rfl

/-- Settles O21: the index is not clamped, so RES0 is the reference state at the index itself. -/
theorem goldEqualsReference : Obligations.GoldEqualsReference := by
  intro s hid hp htable hrange
  refine ⟨_, exec_gold hid hp rfl, ?_⟩
  have hstate : goldState s.cfg.gold s.args[0].toNat = goldRef s.cfg.gold s.args[0].toNat := by
    rw [goldState_eq_goldRef htable, goldEffective_eq_self hrange]
  exact congrArg (BitVec.setWidth 32) hstate

/-! ## The PLS bytes -/

/-- The three bytes of a state, the first lowest, are the state's value (R135). -/
theorem goldBytes_value (s : GoldCode) :
    (goldBytes s)[0].toNat + 256 * (goldBytes s)[1].toNat + 65536 * (goldBytes s)[2].toNat = s.toNat := by
  have h0 : (goldBytes s)[0].toNat = s.toNat % 256 := by simp [goldBytes]
  have h1 : (goldBytes s)[1].toNat = s.toNat / 256 % 256 := by simp [goldBytes, Nat.shiftRight_eq_div_pow]
  have h2 : (goldBytes s)[2].toNat = s.toNat / 65536 % 4 := by
    simp [goldBytes, Nat.shiftRight_eq_div_pow]
    omega
  have hs : s.toNat < 262144 := s.isLt
  omega

/-- Settles O22: R139's two cases, the second by the packing's value. -/
theorem plsBytesAreLeastSignificantFirst : Obligations.PlsBytesAreLeastSignificantFirst := by
  intro c idx
  constructor
  · intro hdefault
    rw [plsBytes, if_pos hdefault]
  · intro hne
    rw [plsBytes, if_neg hne, goldBytes_value]

end Sys2Proof.Machine

/-! The clock synthesizer (41_clock.md): the band of a frequency and the PLL's dividers (R150 to R154), the master clock
(R160 to R162), the transport clock's taps (R165 to R170) and the baseband filter (R175 to R178). -/

namespace Sys2Proof.Machine

/-! ## What a computing command leaves -/

/-- On an idle block whose computation takes no time, a computing command ends at its word (R310). -/
theorem exec_pure_prompt {i : Instr} (hi : i ∈ pureCommands) {s : State} (hid : Idle s) (hp : Prompt s) :
    exec i s = .next (computation i (accept i s)) := by
  rw [exec_pure hi, submit_pure i _ hid hp (computation_running hi _)]

theorem complete_results_accept (i : Instr) (r : List Word) (s : State) :
    complete (results r) (accept i s) = Claims.ended s r := rfl

theorem raiseParam_accept (i : Instr) (e : ParamCheck) (s : State) :
    raiseParam i e (accept i s) = Claims.failedWith s .param (infoParam (opcOf i) e) := rfl

/-- In a concatenation the high part weighs as much as its place. -/
theorem toNat_append_weighed {m n : Nat} (a : BitVec m) (b : BitVec n) :
    (a ++ b).toNat = a.toNat * 2 ^ n + b.toNat := by
  rw [BitVec.toNat_append, ← Nat.shiftLeft_add_eq_or_of_lt b.isLt, Nat.shiftLeft_eq]

/-! ## The band -/

/-- The search down the rows stops at row b of the nine exactly when b is the band R150 means. -/
theorem bandIs_iff_findIdx {c : ClockConfig} {m b : Nat} :
    Claims.BandIs c m b ↔ b < 9 ∧ (c.bands.toList.findIdx fun row => row.loMhz ≤ m) = b := by
  refine and_congr_right fun hb => ?_
  have hlen : b < c.bands.toList.length := by simpa using hb
  rw [List.findIdx_eq hlen, List.getD_eq_getElem _ _ hlen, decide_eq_true_iff]
  refine and_congr_right fun _ => forall₂_congr fun j hj => ?_
  rw [List.getD_eq_getElem _ _ (hj.trans hlen), decide_eq_false_iff_not, Nat.not_le]

theorem bandIndex_of_bandIs {c : ClockConfig} {m b : Nat} (h : Claims.BandIs c m b) : bandIndex c m = b := by
  obtain ⟨hb, hidx⟩ := bandIs_iff_findIdx.mp h
  rw [bandIndex, hidx]
  exact Nat.min_eq_left (Nat.le_of_lt_succ hb)

/-- The last row, whose bound is 0, catches every frequency that no earlier row does. -/
theorem bandIs_bandIndex {c : ClockConfig} (hlast : c.bands[8].loMhz = 0) (m : Nat) :
    Claims.BandIs c m (bandIndex c m) := by
  have hfound : (c.bands.toList.findIdx fun row => row.loMhz ≤ m) < c.bands.toList.length := by
    refine List.findIdx_lt_length_of_exists ⟨c.bands[8], by simp, ?_⟩
    simp [hlast]
  have hlt : (c.bands.toList.findIdx fun row => row.loMhz ≤ m) < 9 := by simpa using hfound
  rw [bandIs_iff_findIdx, bandIndex, Nat.min_eq_left (Nat.le_of_lt_succ hlt)]
  exact ⟨hlt, rfl⟩

/-- Settles O23: R9 puts the last row at 0, so a band exists, and a search has one result. -/
theorem bandLookupIsTotal : Obligations.BandLookupIsTotal := by
  intro c m hok
  have hlast : c.clock.bands[8].loMhz = 0 := by
    simp only [Config.bandsOk, Bool.and_eq_true, beq_iff_eq] at hok
    obtain ⟨⟨_, h0⟩, _⟩ := hok
    exact h0
  exact ⟨bandIs_bandIndex hlast m, fun b hb => (bandIndex_of_bandIs hb).symm⟩

/-! ## PLL -/

theorem refDivider_unsupported (c : ClockConfig) {r : Nat} (h27 : r ≠ 27000) (h24 : r ≠ 24000) :
    refDivider c r = .error .refClock := by
  rw [refDivider, if_neg h27, if_neg h24]

theorem refDivider_supported (c : ClockConfig) {r : Nat} (h : r = 27000 ∨ r = 24000) :
    refDivider c r = .ok (if r = 27000 then c.refDiv27 else c.refDiv24) := by
  rcases h with rfl | rfl <;> rfl

/-- One path's divider and its register bytes (R152, R153). -/
def pathOf (n lomod : Nat) : PllPath :=
  { n := n, lo := byteOf (n % 256), hi := byteOf ((n / 256 + lomod) % 128) }

theorem pllPath_low {m r rd d : Nat} (lomod : Nat) (h : Claims.pathQ m r rd d < 1024) :
    pllPath m r rd d lomod = .error .dividerLow := if_pos h

theorem pllPath_high {m r rd d : Nat} (lomod : Nat) (hq : 1024 ≤ Claims.pathQ m r rd d)
    (hn : 4095 < Claims.pathN (Claims.pathQ m r rd d)) : pllPath m r rd d lomod = .error .dividerHigh :=
  (if_neg (Nat.not_lt.mpr hq)).trans (if_pos hn)

theorem pllPath_ok {m r rd d : Nat} (lomod : Nat) (hq : 1024 ≤ Claims.pathQ m r rd d)
    (hn : Claims.pathN (Claims.pathQ m r rd d) ≤ 4095) :
    pllPath m r rd d lomod = .ok (pathOf (Claims.pathN (Claims.pathQ m r rd d)) lomod) :=
  (if_neg (Nat.not_lt.mpr hq)).trans (if_neg (Nat.not_lt.mpr hn))

/-- The pair {hi, lo} in a register is R153's number. -/
theorem pathWord_pathOf (n lomod : Nat) : pathWord (pathOf n lomod) = BitVec.ofNat 32 (Claims.pathPair n lomod) := by
  apply BitVec.eq_of_toNat_eq
  simp only [pathWord, pathOf, byteOf, Claims.pathPair, BitVec.toNat_setWidth, toNat_append_weighed, BitVec.toNat_ofNat]
  omega

theorem pllCompute_unsupported {c : ClockConfig} {m r : Nat} (h27 : r ≠ 27000) (h24 : r ≠ 24000) :
    pllCompute c m r = .error .refClock := by
  rw [pllCompute, refDivider_unsupported c h27 h24]

/-- With a reference divider, the computation is path 1's, then path 2's, of the band's row (R154). In the proof pllPath is
a variable, since the kernel must not evaluate the products of R152 on a variable frequency. -/
theorem pllCompute_supported {c : ClockConfig} {m r b : Nat} {rd : Byte} {row : Band} (href : r = 27000 ∨ r = 24000)
    (hb : Claims.BandIs c m b) (hrd : rd = if r = 27000 then c.refDiv27 else c.refDiv24)
    (hrow : row = bandRow c b) :
    pllCompute c m r =
      (pllPath m r rd.toNat row.div1 row.lomod1).bind fun p1 =>
        (pllPath m r rd.toNat row.div2 row.lomod2).map fun p2 => { refDiv := rd, band := b, p1 := p1, p2 := p2 } := by
  obtain ⟨path, hpath⟩ : ∃ path, path = pllPath := ⟨_, rfl⟩
  rw [pllCompute, refDivider_supported c href, ← hrd, bandIndex_of_bandIs hb, ← hpath]
  dsimp only
  rw [← hrow]
  cases path m r rd.toNat row.div1 row.lomod1 with
  | error e => rfl
  | ok p1 => cases path m r rd.toNat row.div2 row.lomod2 <;> rfl

theorem pllBody_error {s : State} {e : ParamCheck}
    (h : pllCompute s.cfg.clock (pllTargetMhz s) (pllRefClockKhz s) = .error e) : pllBody s = raiseParam .pll e s := by
  rw [pllBody, h]

theorem pllBody_ok {s : State} {r : PllResult}
    (h : pllCompute s.cfg.clock (pllTargetMhz s) (pllRefClockKhz s) = .ok r) :
    pllBody s = complete (results [pathWord r.p1, pathWord r.p2, regWord r.p1.n, regWord r.p2.n, regWord r.band,
      r.refDiv.setWidth 32]) s := by
  rw [pllBody, h]

section
variable {s : State} (hid : Idle s) (hp : Prompt s)
include hid hp

/-- A check of the computation that fails ends PLL with PARAM and the check's id (R154). -/
theorem exec_pll_error {e : ParamCheck} (h : pllCompute s.cfg.clock s.args[0].toNat s.args[1].toNat = .error e) :
    exec .pll s = .next (Claims.failedWith s .param (infoParam 0x02 e)) := by
  rw [exec_pure_prompt (by decide) hid hp, computation, pllBody_error (s := accept .pll s) h, raiseParam_accept]
  rfl

/-- A computation that passes ends PLL with the two pairs, the two N, the band and the reference divider (R154). -/
theorem exec_pll_ok {n1 n2 l1 l2 b : Nat} {rd : Byte} (h1 : n1 ≤ 4095) (h2 : n2 ≤ 4095) (hb : b < 9)
    (h : pllCompute s.cfg.clock s.args[0].toNat s.args[1].toNat =
      .ok { refDiv := rd, band := b, p1 := pathOf n1 l1, p2 := pathOf n2 l2 }) :
    exec .pll s = .next (Claims.ended s [BitVec.ofNat 32 (Claims.pathPair n1 l1), BitVec.ofNat 32 (Claims.pathPair n2 l2),
      BitVec.ofNat 32 n1, BitVec.ofNat 32 n2, BitVec.ofNat 32 b, rd.setWidth 32]) := by
  rw [exec_pure_prompt (by decide) hid hp, computation, pllBody_ok (s := accept .pll s) h, complete_results_accept,
    pathWord_pathOf, pathWord_pathOf, ← regWord_of_lt (v := n1) (by omega), ← regWord_of_lt (v := n2) (by omega),
    ← regWord_of_lt (v := b) (by omega)]
  rfl

end

/-- Settles O24: the two paths' Q and N are those of the band's row, and the first check that fails names the error. -/
theorem pllComputes : Obligations.PllComputes := by
  refine ⟨rfl, fun s hid hp => ⟨fun h27 h24 => exec_pll_error hid hp (pllCompute_unsupported h27 h24), ?_⟩⟩
  intro b q1 q2 rd href hband hrd hq1 hq2
  have hcompute := pllCompute_supported (row := s.cfg.clock.bands.toList.getD b default) href hband hrd rfl
  subst hq1 hq2
  refine ⟨?low1, ?high1, ?low2, ?high2, ?ok⟩
  case low1 =>
    intro hlow
    exact exec_pll_error hid hp (e := .dividerLow) (by rw [hcompute, pllPath_low _ hlow]; rfl)
  case high1 =>
    intro hq hhigh
    exact exec_pll_error hid hp (e := .dividerHigh) (by rw [hcompute, pllPath_high _ hq hhigh]; rfl)
  case low2 =>
    intro hq hn hlow
    exact exec_pll_error hid hp (e := .dividerLow) (by rw [hcompute, pllPath_ok _ hq hn, pllPath_low _ hlow]; rfl)
  case high2 =>
    intro hq hn hq2 hhigh
    exact exec_pll_error hid hp (e := .dividerHigh) (by rw [hcompute, pllPath_ok _ hq hn, pllPath_high _ hq2 hhigh]; rfl)
  case ok =>
    intro hq hn hq2 hn2
    obtain ⟨hb, _⟩ := hband
    refine exec_pll_ok hid hp hn hn2 hb ?_
    rw [hcompute, pllPath_ok _ hq hn, pllPath_ok _ hq2 hn2]
    rfl

/-! ## Master clock -/

/-- The nearest multiples of c > 0 are the two around f: at r = f mod c below it and at c - r above it. -/
theorem foldedOffset_le_dist {f c : Nat} (hc : 0 < c) (k : Nat) : foldedOffset f c ≤ (f - k * c) + (k * c - f) := by
  have hf : f / c * c + f % c = f := Nat.div_add_mod' f c
  have hr : f % c < c := Nat.mod_lt f hc
  rw [foldedOffset]
  rcases Nat.lt_or_ge (f / c) k with habove | hbelow
  · have hk : f / c * c + c ≤ k * c := by simpa [Nat.succ_mul] using Nat.mul_le_mul_right c habove
    omega
  · have hk : k * c ≤ f / c * c := Nat.mul_le_mul_right c hbelow
    omega

theorem foldedOffset_le (f c : Nat) : foldedOffset f c ≤ f :=
  (Nat.min_le_left _ _).trans (Nat.mod_le f c)

/-- Settles O25: of the multiples f lies between, the nearer is at most half the candidate away. -/
theorem foldedOffsetIsTheNearestMultiple : Obligations.FoldedOffsetIsTheNearestMultiple := by
  intro f c hc
  refine ⟨rfl, ?half, ?attained, foldedOffset_le_dist hc⟩
  case half =>
    rw [foldedOffset]
    omega
  case attained =>
    have hf : f / c * c + f % c = f := Nat.div_add_mod' f c
    have hr : f % c < c := Nat.mod_lt f hc
    rcases Nat.le_total (f % c) (c - f % c) with hlow | hhigh
    · refine ⟨f / c, .inl ?_⟩
      rw [foldedOffset, Nat.min_eq_left hlow, hf]
    · refine ⟨f / c + 1, .inr ?_⟩
      rw [foldedOffset, Nat.min_eq_right hhigh, Nat.succ_mul]
      omega

/-- The earliest candidate of the greatest offset (R161). -/
def Farthest (off : Fin 3 → Nat) (k : Fin 3) : Prop := ∀ c, off c ≤ off k ∧ (c < k → off c < off k)

theorem mclkSelect_high (c : ClockConfig) (f : Nat) {sr : Nat} (h : 46000000 ≤ sr) :
    mclkSelect c f sr = { mclk := c.mclkHighKhz, cand := 3, off0 := 0, off1 := 0, off2 := 0 } := if_pos h

theorem farthest_zero {off : Fin 3 → Nat} (h1 : off 1 ≤ off 0) (h2 : off 2 ≤ off 0) : Farthest off 0 := by
  simp [Farthest, Fin.forall_fin_succ, h1, h2]

theorem farthest_one {off : Fin 3 → Nat} (h0 : off 0 < off 1) (h2 : off 2 ≤ off 1) : Farthest off 1 := by
  simp [Farthest, Fin.forall_fin_succ, h0, h0.le, h2]

theorem farthest_two {off : Fin 3 → Nat} (h0 : off 0 < off 2) (h1 : off 1 < off 2) : Farthest off 2 := by
  simp [Farthest, Fin.forall_fin_succ, h0, h0.le, h1, h1.le]

/-- Below the threshold the strict comparisons keep the earlier of equals (R161). -/
theorem mclkSelect_low (c : ClockConfig) (f : Nat) {sr : Nat} (h : sr < 46000000) :
    ∃ k : Fin 3, mclkSelect c f sr =
        { mclk := c.mclkCand[k], cand := k, off0 := foldedOffset f c.mclkCand[0], off1 := foldedOffset f c.mclkCand[1]
          off2 := foldedOffset f c.mclkCand[2] } ∧
      Farthest (fun j => foldedOffset f c.mclkCand[j]) k := by
  have hsr : ¬ sr ≥ Config.mclkSrThreshold := Nat.not_le.mpr h
  rcases Nat.lt_or_ge (foldedOffset f c.mclkCand[0]) (foldedOffset f c.mclkCand[1]) with h01 | h01
  · rcases Nat.lt_or_ge (foldedOffset f c.mclkCand[1]) (foldedOffset f c.mclkCand[2]) with h12 | h12
    · exact ⟨2, by simp [mclkSelect, hsr, h01, h12], farthest_two (h01.trans h12) h12⟩
    · exact ⟨1, by simp [mclkSelect, hsr, h01, h12.not_gt], farthest_one h01 h12⟩
  · rcases Nat.lt_or_ge (foldedOffset f c.mclkCand[0]) (foldedOffset f c.mclkCand[2]) with h02 | h02
    · exact ⟨2, by simp [mclkSelect, hsr, h01.not_gt, h02], farthest_two h02 (h01.trans_lt h02)⟩
    · exact ⟨0, by simp [mclkSelect, hsr, h01.not_gt, h02.not_gt], farthest_zero h01 h02⟩

/-- MCLK ends with what the selection gives for the operands at its word (R162). -/
theorem exec_mclk {s : State} (hid : Idle s) (hp : Prompt s) {m : MclkChoice}
    (hm : mclkSelect s.cfg.clock s.args[0].toNat s.args[1].toNat = m) :
    exec .mclk s = .next (Claims.ended s
      [regWord m.mclk, regWord m.cand, regWord m.off0, regWord m.off1, regWord m.off2]) := by
  rw [exec_pure_prompt (by decide) hid hp, ← complete_results_accept .mclk, ← hm]
  rfl

/-- Settles O26: candidate numbers and offsets, which are at most the frequency, fit a register. -/
theorem mclkSelectsTheFarthestCandidate : Obligations.MclkSelectsTheFarthestCandidate := by
  refine ⟨rfl, fun s hid hp => ⟨fun hhigh => ?_, fun hlow => ?_⟩⟩
  · rw [exec_mclk hid hp (mclkSelect_high _ _ hhigh), regWord_of_lt (v := 3) (by decide),
      regWord_of_lt (v := 0) (by decide)]
    rfl
  · obtain ⟨k, hm, hfar⟩ := mclkSelect_low s.cfg.clock s.args[0].toNat hlow
    have hoff (c : Nat) : regWord (foldedOffset s.args[0].toNat c) = BitVec.ofNat 32 (foldedOffset s.args[0].toNat c) :=
      regWord_of_lt ((foldedOffset_le _ c).trans_lt s.args[0].isLt)
    refine ⟨k, ?_, hfar⟩
    rw [exec_mclk hid hp hm, regWord_of_lt (v := k) (by omega), hoff, hoff, hoff]
    rfl

/-! ## Transport clock -/

/-- The stages divide what is left, and the last one takes all of it (R166, R167). -/
theorem tsRawTaps_eq (div : Nat) : tsRawTaps div = fourTaps (Claims.rawTaps div) := by
  by_cases h64 : 64 < div
  · have h32 : ¬ div ≤ 32 := by omega
    have h48 : ¬ div ≤ 48 := by omega
    rw [tsRawTaps, if_pos h64, Claims.rawTaps, if_neg h32, if_neg h48, if_neg h64.not_ge]
    rfl
  · rw [tsRawTaps, if_neg h64, tsStageCount, Claims.rawTaps]
    split
    · simp [tapList, fourTaps]
    · split
      · simp [tapList, fourTaps]
      · rw [if_pos (Nat.not_lt.mp h64)]
        simp [tapList, fourTaps]

theorem rawTaps_length (div : Nat) : (Claims.rawTaps div).length = 4 := by
  rw [Claims.rawTaps]
  split_ifs <;> rfl

/-- Up to 64 every stage takes at most 16; above, all four take 16 (R166). -/
theorem rawTaps_le {div t : Nat} (ht : t ∈ Claims.rawTaps div) : t ≤ 16 := by
  rw [Claims.rawTaps] at ht
  split_ifs at ht <;> simp only [List.mem_cons, List.not_mem_nil, or_false] at ht <;> omega

theorem rawTaps_sum {div : Nat} (h : div ≤ 64) : (Claims.rawTaps div).sum = div := by
  rw [Claims.rawTaps]
  split_ifs <;> simp only [List.sum_cons, List.sum_nil] <;> omega

theorem fourTaps_toList {l : List Nat} (h : l.length = 4) : (fourTaps l).toList = l := by
  match l, h with
  | [_, _, _, _], _ => rfl

theorem getD_eq_zero_or_mem (l : List Nat) (i : Nat) : l.getD i 0 = 0 ∨ l.getD i 0 ∈ l := by
  rcases Nat.lt_or_ge i l.length with hi | hi
  · right
    rw [List.getD_eq_getElem _ _ hi]
    exact List.getElem_mem hi
  · exact .inl (List.getD_eq_default _ _ hi)

/-- The unused taps are 0 (R167, R168). -/
theorem mem_fourTaps {l : List Nat} {e : Nat} (he : e ∈ (fourTaps l).toList) : e = 0 ∨ e ∈ l := by
  simp only [fourTaps, Vector.toList_mk, List.mem_cons, List.not_mem_nil, or_false] at he
  rcases he with rfl | rfl | rfl | rfl <;> exact getD_eq_zero_or_mem l _

/-- Four taps below 256 stand one a byte in the register, the first lowest (R169). -/
theorem tapsWord_fourTaps {l : List Nat} (h : ∀ t ∈ l, t < 256) :
    tapsWord (fourTaps l) = BitVec.ofNat 32 (Claims.packTaps l) := by
  have hbyte (i : Nat) : l.getD i 0 < 256 := by
    rcases getD_eq_zero_or_mem l i with h0 | hmem
    · omega
    · exact h _ hmem
  have h0 := hbyte 0
  have h1 := hbyte 1
  have h2 := hbyte 2
  have h3 := hbyte 3
  apply BitVec.eq_of_toNat_eq
  simp only [tapsWord, fourTaps, toNat_append_weighed, byteOf, BitVec.toNat_ofNat, Claims.packTaps, Vector.getElem_mk,
    List.getElem_toArray, List.getElem_cons_zero, List.getElem_cons_succ]
  omega

theorem tsStageCount_eq : tsStageCount = Claims.stages := rfl

theorem snapTap_eq : snapTap = Claims.encTap := rfl

/-- Encoding takes a tap of at most 16 to 0 or out of the forbidden range (R168). -/
theorem encTap_range (serial : Bool) {t : Nat} (ht : t ≤ 16) :
    Claims.encTap serial t = 0 ∨ (if serial then 8 else 9) ≤ Claims.encTap serial t ∧ Claims.encTap serial t ≤ 15 := by
  have hmin : (if serial then 8 else 9) ≤ 15 := by cases serial <;> decide
  simp only [Claims.encTap]
  by_cases h16 : t = 16
  · exact .inl (if_pos h16)
  · rw [if_neg h16]
    by_cases hlow : 0 < t ∧ t < if serial then 8 else 9
    · rw [if_pos hlow]
      exact .inr ⟨Nat.le_refl _, hmin⟩
    · rw [if_neg hlow]
      omega

theorem tsEncTaps_eq (serial : Bool) (div : Nat) :
    tsEncTaps serial (tsStageCount div) (tsRawTaps div) =
      fourTaps (((Claims.rawTaps div).take (Claims.stages div)).map (Claims.encTap serial)) := by
  rw [tsEncTaps, tsRawTaps_eq, fourTaps_toList (rawTaps_length div), tsStageCount_eq, snapTap_eq]

/-- Every encoded tap in use is 0 or out of the forbidden range, whatever div is (R168). -/
theorem mem_encTaps_range {serial : Bool} {div n e : Nat}
    (he : e ∈ ((Claims.rawTaps div).take n).map (Claims.encTap serial)) :
    e = 0 ∨ (if serial then 8 else 9) ≤ e ∧ e ≤ 15 := by
  obtain ⟨t, ht, rfl⟩ := List.mem_map.mp he
  exact encTap_range serial (rawTaps_le (List.mem_of_mem_take ht))

/-- Settles O28: the last stage takes what is left, so the sum is div; a tap is at most 16, and 16 is encoded 0. -/
theorem tapsSumAndAvoidTheForbiddenRange : Obligations.TapsSumAndAvoidTheForbiddenRange := by
  intro div serial h64
  constructor
  · rw [tsRawTaps_eq, fourTaps_toList (rawTaps_length div), rawTaps_sum h64]
  · intro e he
    rw [tsEncTaps_eq] at he
    rcases mem_fourTaps he with h0 | hmem
    · exact .inl h0
    · exact mem_encTaps_range hmem

section
variable {s : State} (hid : Idle s) (hp : Prompt s)
include hid hp

/-- A master clock of 0 ends TSCLK with PARAM 0x30 (R165). -/
theorem exec_tsclk_zero (h : s.args[1].toNat = 0) : exec .tsclk s = .next (Claims.failedWith s .param 0x04000030) := by
  have hdiv : tsDivider (tsclkFeedback (accept .tsclk s)) (tsclkMclkKhz (accept .tsclk s)) = .error .mclkZero := if_pos h
  rw [exec_pure_prompt (by decide) hid hp, computation, tsclkBody, hdiv]
  exact congrArg _ (raiseParam_accept .tsclk .mclkZero s)

/-- Otherwise TSCLK ends with div, the stage count, the raw taps and the encoded taps (R169). -/
theorem exec_tsclk {div : Nat} (hpos : 0 < s.args[1].toNat)
    (hdiv : div = 9000 * s.args[0].toNat * 4 / s.args[1].toNat) :
    exec .tsclk s = .next (Claims.ended s [regWord div, BitVec.ofNat 32 (Claims.stages div),
      tapsWord (tsRawTaps div), tapsWord (tsEncTaps (s.ctrl.getLsbD 1) (tsStageCount div) (tsRawTaps div))]) := by
  have hok : tsDivider (tsclkFeedback (accept .tsclk s)) (tsclkMclkKhz (accept .tsclk s)) = .ok div :=
    hdiv ▸ if_neg hpos.ne'
  have hstages : Claims.stages div < 2 ^ 32 := by
    rw [Claims.stages]
    split_ifs <;> decide
  rw [exec_pure_prompt (by decide) hid hp, computation, tsclkBody, hok, ← regWord_of_lt hstages,
    ← complete_results_accept .tsclk]
  rfl

end

/-- Settles O27: the stages, the taps and their encoding are the model's own, and every tap is a byte. -/
theorem tsclkComputes : Obligations.TsclkComputes := by
  refine ⟨rfl, fun s hid hp => ⟨exec_tsclk_zero hid hp, fun div hpos hdiv => ⟨regWord div, regWord_of_lt, ?_⟩⟩⟩
  have hraw (t : Nat) (ht : t ∈ Claims.rawTaps div) : t < 256 := (rawTaps_le ht).trans_lt (by decide)
  have henc (e : Nat)
      (he : e ∈ ((Claims.rawTaps div).take (Claims.stages div)).map (Claims.encTap (s.ctrl.getLsbD 1))) : e < 256 := by
    rcases mem_encTaps_range he with h0 | ⟨_, h15⟩ <;> omega
  rw [exec_tsclk hid hp hpos hdiv, tsEncTaps_eq, tsRawTaps_eq, tapsWord_fourTaps hraw, tapsWord_fourTaps henc]

/-! ## Baseband filter -/

/-- Settles O29: LPF ends with what R175 to R177 give for the operands at its word. -/
theorem lpfComputes : Obligations.LpfComputes := by
  refine ⟨rfl, fun s hid hp off real bw hoff hreal hbw => ?_⟩
  have hoff' : lpfOffset s.cfg.clock s.args[0].toNat = off := hoff.symm
  have hreal' : realFreqKhz s.cfg.clock s.args[0].toNat s.args[1].toNat = real := by rw [hreal, realFreqKhz, hoff']
  have hbw' : lpfBandwidth s.cfg.clock s.args[0].toNat = bw := hbw.symm
  rw [exec_pure_prompt (by decide) hid hp, ← complete_results_accept .lpf, ← hreal', ← hoff', ← hbw']
  rfl

end Sys2Proof.Machine

/-! The lock-acquisition sequencer (42_sequencer.md): the validation and the plan of CHECK (R203 to R205), the programming
steps in their order (R206 to R217), polling (R218 to R222), the post-lock pass (R223 to R229), the ways a TUNE ends
(R230 to R232), and the order in which LockState moves (R200, R234). -/

namespace Sys2Proof.Machine

/-! ## ABORT's word -/

/-- Settles O16: ABORT completes an idle block at once, and asks a running command for its end only if that is a TUNE. -/
theorem abortCompletesRequestsOrDoesNothing : Obligations.AbortCompletesRequestsOrDoesNothing := by
  refine fun s => ⟨fun hid => ?idle, fun hrun => ?tune, fun i hrun hi => ?other⟩
  case idle =>
    rw [exec, execAbort, not_busy_of_idle hid]
    exact congrArg _ (complete_results_accept .abort [] s)
  case tune => rw [exec, execAbort, if_pos (busy_of_running hrun), abortWhileBusy, if_pos hrun]
  case other =>
    have hne : s.running ≠ some .tune := by rwa [hrun, ne_eq, Option.some.injEq]
    rw [exec, execAbort, if_pos (busy_of_running hrun), abortWhileBusy, if_neg hne]

/-! ## CHECK -/

/-- The state in which an accepted TUNE, its chip ready, stands before CHECK (R201, R202). -/
def checking (s : State) : State := { accept .tune s with tr := Claims.request s, lockState := .idle, seq := .check }

/-- Where CHECK ends the TUNE with an error, the TUNE ends at its word. -/
theorem exec_tune_rejected {s : State} (hid : Idle s) (hc : s.chipReady = true) (hp : Prompt s)
    {c : ParamCheck} {p : TunePlan} (h : tuneCheck (checking s) = raiseParam .tune c { checking s with plan := p }) :
    exec .tune s = .next { Claims.failedWith s .param (infoParam 0x10 c) with
      tr := Claims.request s, lockState := .idle, plan := p } := by
  have hexec : exec .tune s = .next (runCommand (tuneCheck (checking s))) := exec_tune_checks hid hc hp
  rw [hexec, h, raiseParam, runCommand_raiseError]
  rfl

/-- A request that fails a check of R203. -/
theorem tuneCheck_invalid {s : State} {c : ParamCheck} (h : validateRequest s.cfg s.tr = some c) :
    tuneCheck s = raiseParam .tune c s := by
  rw [tuneCheck, h]

/-- A request that passes R203's checks and whose plan stops at a check of its own (R205). -/
theorem tuneCheck_unplanned {s : State} {p : TunePlan} {c : ParamCheck} (hv : Claims.RequestOk s.cfg s.tr)
    (hp : makePlan s.cfg s.tr s.plan = (p, some c)) : tuneCheck s = raiseParam .tune c { s with plan := p } := by
  rw [tuneCheck, (validateRequest_none _ _).mpr hv, hp]

/-- A request that passes CHECK enters Programming (R206). -/
theorem tuneCheck_passes {s : State} {p : TunePlan} (hv : Claims.RequestOk s.cfg s.tr)
    (hp : makePlan s.cfg s.tr s.plan = (p, none)) : tuneCheck s = enterProgramming { s with plan := p } := by
  rw [tuneCheck, (validateRequest_none _ _).mpr hv, hp]

section
variable {c : Config} {tr : TuneRequest}

theorem validateRequest_frequency (h : tr.freqHz.toNat < 950000000 ∨ 2150000000 < tr.freqHz.toNat) :
    validateRequest c tr = some .tuneFrequency := if_pos h

variable (hf : ¬ (tr.freqHz.toNat < 950000000 ∨ 2150000000 < tr.freqHz.toNat))
include hf

theorem validateRequest_symbolRate (h : tr.sr.toNat < c.clock.srMin ∨ c.clock.srMax < tr.sr.toNat) :
    validateRequest c tr = some .tuneSymbolRate := (if_neg hf).trans (if_pos h)

variable (hs : ¬ (tr.sr.toNat < c.clock.srMin ∨ c.clock.srMax < tr.sr.toNat))
include hs

theorem validateRequest_delsys (h : 1 < tr.delsys.toNat) : validateRequest c tr = some .tuneDelsys :=
  (if_neg hf).trans ((if_neg hs).trans (if_pos h))

theorem validateRequest_modulation (hd : ¬ 1 < tr.delsys.toNat) (h : 4 < tr.mod.toNat) :
    validateRequest c tr = some .tuneModulation :=
  (if_neg hf).trans ((if_neg hs).trans ((if_neg hd).trans (if_pos h)))

end

/-- Settles O32: the checks are nested in R203's order, and the first that fails ends the TUNE at its word. -/
theorem tuneRejectsBadRequests : Obligations.TuneRejectsBadRequests := by
  rintro s _ hid hc hp rfl rejected hrejected
  have rejects {check : ParamCheck} (h : validateRequest s.cfg (Claims.request s) = some check) :
      exec .tune s = .next (rejected (infoParam 0x10 check)) := by
    rw [hrejected]
    exact exec_tune_rejected hid hc hp (p := s.plan) (tuneCheck_invalid (s := checking s) h)
  refine ⟨fun h => rejects (validateRequest_frequency h), fun hlo hhi => ?_⟩
  have hf := not_or.mpr ⟨hlo.not_gt, hhi.not_gt⟩
  refine ⟨fun h => rejects (validateRequest_symbolRate hf h), fun hmin hmax => ?_⟩
  have hs := not_or.mpr ⟨hmin.not_gt, hmax.not_gt⟩
  exact ⟨fun h => rejects (validateRequest_delsys hf hs h),
    fun hd h => rejects (validateRequest_modulation hf hs hd.not_gt h)⟩

/-! ## The plan -/

/-- What a path of the PLL can be: its divider and bytes in range, or one of the two divider checks (R152, R153). -/
theorem pllPath_cases (m r rd d lomod : Nat) :
    pllPath m r rd d lomod = .error .dividerLow ∨ pllPath m r rd d lomod = .error .dividerHigh ∨
      ∃ n, n ≤ 4095 ∧ pllPath m r rd d lomod = .ok (pathOf n lomod) := by
  rcases Nat.lt_or_ge (Claims.pathQ m r rd d) 1024 with hlow | hq
  · exact .inl (pllPath_low lomod hlow)
  rcases Nat.lt_or_ge 4095 (Claims.pathN (Claims.pathQ m r rd d)) with hhigh | hn
  · exact .inr (.inl (pllPath_high lomod hq hhigh))
  · exact .inr (.inr ⟨_, hn, pllPath_ok lomod hq hn⟩)

/-- R153 keeps a path's high byte within seven bits. -/
theorem pathOf_hi_lt (n lomod : Nat) : (pathOf n lomod).hi.toNat < 128 := by
  simp only [pathOf, byteOf, BitVec.toNat_ofNat]
  omega

/-- A path of the PLL within R152's and R153's ranges. -/
def PathOk (p : PllPath) : Prop := p.n ≤ 4095 ∧ p.hi.toNat < 128

theorem pathOf_ok {n : Nat} (h : n ≤ 4095) (lomod : Nat) : PathOk (pathOf n lomod) := ⟨h, pathOf_hi_lt n lomod⟩

/-- The PLL of a supported reference clock: two paths in range, or a divider check. In the proof pllPath is a variable, as in
pllCompute_supported. -/
theorem pllCompute_cases (c : ClockConfig) (m : Nat) {r : Nat} (href : r = 27000 ∨ r = 24000) :
    pllCompute c m r = .error .dividerLow ∨ pllCompute c m r = .error .dividerHigh ∨
      ∃ res, pllCompute c m r = .ok res ∧ PathOk res.p1 ∧ PathOk res.p2 := by
  obtain ⟨path, hpath⟩ : ∃ path, path = pllPath := ⟨_, rfl⟩
  have hcases (rd d lomod : Nat) := pllPath_cases m r rd d lomod
  rw [← hpath] at hcases
  rw [pllCompute, refDivider_supported c href, ← hpath]
  dsimp only
  obtain ⟨row, hrow⟩ : ∃ row, row = bandRow c (bandIndex c m) := ⟨_, rfl⟩
  rw [← hrow]
  generalize (if r = 27000 then c.refDiv27 else c.refDiv24) = rd
  rcases hcases rd.toNat row.div1 row.lomod1 with h1 | h1 | ⟨n1, hn1, h1⟩ <;> rw [h1]
  · exact .inl rfl
  · exact .inr (.inl rfl)
  rcases hcases rd.toNat row.div2 row.lomod2 with h2 | h2 | ⟨n2, hn2, h2⟩ <;> rw [h2]
  · exact .inl rfl
  · exact .inr (.inl rfl)
  · exact .inr (.inr ⟨_, rfl, pathOf_ok hn1 _, pathOf_ok hn2 _⟩)

theorem tuneRefKhz_supported (tr : TuneRequest) : tuneRefKhz tr = 27000 ∨ tuneRefKhz tr = 24000 := by
  unfold tuneRefKhz
  split
  · exact .inr rfl
  · exact .inl rfl

/-- How a plan comes out: it stops at a divider check or at a master clock of 0, or it is made (R204, R205). -/
theorem makePlan_cases (c : Config) (tr : TuneRequest) (old : TunePlan) :
    (∃ e, (e = .dividerLow ∨ e = .dividerHigh) ∧ makePlan c tr old = (planFront c tr old, some e)) ∨
      ∃ r, pllCompute c.clock (planFront c tr old).pllMhz (tuneRefKhz tr) = .ok r ∧ PathOk r.p1 ∧ PathOk r.p2 ∧
        ((planFront c tr old).mclkKhz = 0 ∧
            makePlan c tr old = (planPll r (planFront c tr old), some .mclkZero) ∨
          (planFront c tr old).mclkKhz ≠ 0 ∧
            makePlan c tr old = (planBack c tr (9000 * tr.fb.toNat * 4 / (planFront c tr old).mclkKhz)
              (planPll r (planFront c tr old)), none)) := by
  have stops {e : ParamCheck} (h : pllCompute c.clock (planFront c tr old).pllMhz (tuneRefKhz tr) = .error e) :
      makePlan c tr old = (planFront c tr old, some e) := by
    simp only [makePlan, h]
  rcases pllCompute_cases c.clock (planFront c tr old).pllMhz (tuneRefKhz_supported tr) with h | h | ⟨r, h, h1, h2⟩
  · exact .inl ⟨_, .inl rfl, stops h⟩
  · exact .inl ⟨_, .inr rfl, stops h⟩
  refine .inr ⟨r, h, h1, h2, ?_⟩
  by_cases hz : (planFront c tr old).mclkKhz = 0
  · have hdiv : tsDivider tr.fb.toNat (planPll r (planFront c tr old)).mclkKhz = .error .mclkZero := if_pos hz
    refine .inl ⟨hz, ?_⟩
    simp only [makePlan, h, hdiv]
  · have hdiv : tsDivider tr.fb.toNat (planPll r (planFront c tr old)).mclkKhz =
        .ok (9000 * tr.fb.toNat * 4 / (planFront c tr old).mclkKhz) := if_neg hz
    refine .inr ⟨hz, ?_⟩
    simp only [makePlan, h, hdiv]

/-- Settles O33: CHECK ends the TUNE with the plan as far as it came; an unsupported reference clock cannot be the check. -/
theorem tuneRejectsUnreachableDividers : Obligations.TuneRejectsUnreachableDividers := by
  intro s p c hid hc hp hok hplan
  constructor
  · rw [exec_tune_rejected hid hc hp (tuneCheck_unplanned (s := checking s) hok hplan)]
    cases c <;> rfl
  · rcases makePlan_cases s.cfg (Claims.request s) s.plan with ⟨e, he, h⟩ | ⟨r, -, -, -, ⟨hz, h⟩ | ⟨-, h⟩⟩
    · cases h.symm.trans hplan
      exact he.imp_right .inl
    · cases h.symm.trans hplan
      exact .inr (.inr ⟨rfl, hz⟩)
    · cases h.symm.trans hplan

/-- Settles O34: a plan that is made has R204's five parts, each as its own computation gives it. -/
theorem planHoldsTheSynthesizersValues : Obligations.PlanHoldsTheSynthesizersValues := by
  intro c tr old p hplan
  rcases makePlan_cases c tr old with ⟨e, -, h⟩ | ⟨r, hr, ⟨hn1, hhi1⟩, ⟨hn2, hhi2⟩, ⟨-, h⟩ | ⟨hz, h⟩⟩
  · cases h.symm.trans hplan
  · cases h.symm.trans hplan
  · cases h.symm.trans hplan
    refine ⟨rfl, rfl, rfl, rfl, rfl, rfl, ⟨r, hr, rfl, rfl, rfl, rfl, hn1, hn2, rfl, rfl, rfl, rfl, hhi1, hhi2⟩, hz, rfl,
      rfl, ?_, rfl, rfl⟩
    show (tsRawTaps _).toList = Claims.rawTaps _
    rw [tsRawTaps_eq, fourTaps_toList (rawTaps_length _)]
    rfl

/-! ## What a step of the sequencer begins with -/

/-- The state of a TUNE that enters step st with transactions on a free bus: the first of them is issued (R88, R91). -/
def entered (st : SeqStep) (p : Phase) (t : Txn) (ts : List Txn) (s : State) : State :=
  { s with seq := st, phase := p, todo := t :: ts, got := [], outputs := s.outputs ++ [.bus t] }

section
variable {s : State} {t : Txn} {ts : List Txn} (ha : s.abortReq = false) (ho : s.orphan = none)
include ha ho

theorem postAgc_enters (hp : s.cfg.programs.agcNormal = t :: ts) : postAgc s = entered .postAgc .agcNormal t ts s := by
  rw [postAgc, boundary_open _ _ ha]
  exact load_issues hp _ _ ho

theorem postIsi_enters (hp : fieldReads s.cfg.chipMap.fIsiCount = t :: ts) :
    postIsi s = entered .postIsi .isiCount t ts s := by
  rw [postIsi, boundary_open _ _ ha]
  exact load_issues hp _ _ ho

theorem postInv_enters (hp : fieldReads s.cfg.chipMap.fInvSrc = t :: ts) :
    postInv s = entered .postInv .invRead t ts s := by
  rw [postInv, boundary_open _ _ ha]
  exact load_issues hp _ _ ho

theorem pollRead_enters : pollRead s = entered .pollRead .pollRead (.read s.cfg.chipMap.lockStatusAddr) [] s := by
  rw [pollRead, boundary_open _ _ ha]
  exact load_issues rfl _ _ ho

end

/-! ## The lock-status read -/

/-- A full-lock byte of DVB-S2 leads to POST_INV (R219, R223). -/
theorem pollReadDone_locksS2 (s : State) : pollReadDone 0x8F s =
    postInv { s with pollIter := s.pollIter + 1, lastLockByte := 0x8F, lockState := .locked, lockDelsys := true } :=
  (pollReadDone_s2 s).trans (if_pos ⟨rfl, rfl⟩)

/-- A full-lock byte of DVB-S leads to POST_AGC (R219, R223). -/
theorem pollReadDone_locksS1 (s : State) : pollReadDone 0xF7 s =
    postAgc { s with pollIter := s.pollIter + 1, lastLockByte := 0xF7, lockState := .locked, lockDelsys := false } :=
  (pollReadDone_s1 s).trans (if_neg (by simp))

/-- The 150th read without lock leads to POST_AGC (R220, R222). -/
theorem pollReadDone_timesOut {s : State} {b : Byte} (h2 : b ≠ 0x8F) (h1 : b ≠ 0xF7) (hn : s.pollIter + 1 = 150) :
    pollReadDone b s = postAgc { s with pollIter := 150, lastLockByte := b, lockState := .timedOut } :=
  (pollReadDone_timeout h2 h1 hn).trans (if_neg (by simp))

/-- The last read of a phase succeeds: the bytes read are the chip's answers, in order, and the phase is done (R88). -/
theorem step_lastRead {s : State} {a : Answer} {rest : List Stimulus} {x : BusAddr} {before : List Answer}
    (hi : s.inputs = .chipAnswer a :: rest) (ho : s.orphan = none) (htodo : s.todo = [.read x])
    (hgot : s.got = before.map Answer.byte) (hok : a.ok = true) :
    step s = .next (phaseDone { s with inputs := rest, todo := [], got := (before ++ [a]).map Answer.byte }) := by
  rw [step_answer_last hi ho htodo hok, hgot, List.map_append]
  rfl

/-- The lock-status read of a TUNE succeeds: its byte decides (R218, R219). -/
theorem step_lockRead {s : State} {a : Answer} {rest : List Stimulus} {x : BusAddr}
    (hi : s.inputs = .chipAnswer a :: rest) (ho : s.orphan = none) (hp : s.phase = .pollRead) (htodo : s.todo = [.read x])
    (hgot : s.got = []) (hok : a.ok = true) :
    step s = .next (pollReadDone a.byte { s with inputs := rest, todo := [], got := [a.byte] }) := by
  rw [step_lastRead (before := []) hi ho htodo hgot hok, phaseDone]
  simp only [hp]
  rfl

/-- Settles O37: the byte of the read decides which step is entered, and each step's entry is its own lemma. -/
theorem lockStatusReadDecides : Obligations.LockStatusReadDecides := by
  rintro s _ t0 t1 x ts0 ts1 a rest - hp htodo rfl hgot ho ha hok hi hinv hagc u rfl
  have hread : fieldReads s.cfg.chipMap.fInvSrc = t0 :: ts0 := by simpa [Claims.readsOf, fieldReads] using hinv
  rw [step_lockRead hi ho hp htodo hgot hok]
  refine ⟨fun hb => ?s2, fun hb => ?s1, fun h2 h1 hn => ?timedOut, fun h2 h1 hn => ?waits⟩
  case s2 =>
    rw [hb, pollReadDone_locksS2, postInv_enters (by exact ha) (by exact ho) (by exact hread), hgot]
    rfl
  case s1 =>
    rw [hb, pollReadDone_locksS1, postAgc_enters (by exact ha) (by exact ho) (by exact hagc), hgot]
    rfl
  case timedOut =>
    rw [pollReadDone_timesOut h2 h1 (by exact hn), postAgc_enters (by exact ha) (by exact ho) (by exact hagc), hgot, hn]
    rfl
  case waits =>
    rw [pollReadDone_waits h2 h1 (by exact hn), pollWaitStart, boundary_open _ _ (by exact ha), hgot]
    rfl

/-! ## Waiting -/

/-- A tick that finds no TUNE waiting changes nothing (R221). -/
theorem step_tick_ignored {s : State} {rest : List Stimulus} (hi : s.inputs = .tick :: rest)
    (h : s.phase ≠ .pollWait ∨ s.waitLeft = 0) : step s = .next { s with inputs := rest } := by
  rw [step_tick hi, tickPulse, if_neg (fun hw => h.elim (absurd hw.1) hw.2)]

/-- A tick of a wait that is not its last one (R221). -/
theorem step_tick_counts {s : State} {rest : List Stimulus} (hi : s.inputs = .tick :: rest) (hp : s.phase = .pollWait)
    (hw : 1 < s.waitLeft.toNat) : step s = .next { s with inputs := rest, waitLeft := s.waitLeft - 1 } := by
  have h0 : s.waitLeft ≠ 0 := by bv_omega
  have h1 : s.waitLeft - 1 ≠ 0 := by bv_omega
  rw [step_tick hi, tickPulse, if_pos ⟨hp, h0⟩]
  exact congrArg _ (if_neg h1)

/-- The last tick of a wait leads to POLL_READ's boundary (R218, R221). -/
theorem step_tick_last {s : State} {rest : List Stimulus} (hi : s.inputs = .tick :: rest) (hp : s.phase = .pollWait)
    (hw : s.waitLeft = 1) : step s = .next (pollRead { s with inputs := rest, waitLeft := 0 }) := by
  rw [step_tick hi, tickPulse, if_pos ⟨hp, show s.waitLeft ≠ 0 by rw [hw]; decide⟩]
  dsimp only
  rw [hw]
  rfl

/-- Settles O38: a tick is ignored, counts, or is the wait's last. -/
theorem waitCountsTicks : Obligations.WaitCountsTicks := by
  refine fun s rest hi => ⟨step_tick_ignored hi, step_tick_counts hi, fun hp hw ha ho => ?_⟩
  rw [step_tick_last hi hp hw, pollRead_enters (by exact ha) (by exact ho)]
  rfl

/-- A whole wait: its last tick issues the next lock-status read. -/
theorem run_wait (n : Nat) {s : State} {rest : List Stimulus} (hi : s.inputs = List.replicate (n + 1) .tick ++ rest)
    (hp : s.phase = .pollWait) (hw : s.waitLeft.toNat = n + 1) (ha : s.abortReq = false) (ho : s.orphan = none) :
    Sys2Proof.core.run (n + 1) s = .next (pollRead { s with inputs := rest, waitLeft := 0 }) := by
  induction n generalizing s with
  | zero =>
    exact (run_succ 0 (step_tick_last hi hp (BitVec.eq_of_toNat_eq hw))).trans (run_zero _)
  | succ n ih =>
    have hi' : s.inputs = .tick :: (List.replicate (n + 1) .tick ++ rest) := hi
    rw [run_succ _ (step_tick_counts hi' hp (by omega)), ih rfl (by exact hp) (by bv_omega) (by exact ha) (by exact ho)]

/-! ## The poll loop -/

/-- A TUNE that has done n lock-status reads and has the next one on the bus, no abort being requested. -/
structure Polls (s : State) (n : Nat) : Prop where
  phase : s.phase = .pollRead
  seq : s.seq = .pollRead
  todo : s.todo = [.read s.cfg.chipMap.lockStatusAddr]
  got : s.got = []
  orphan : s.orphan = none
  abortReq : s.abortReq = false
  pollIter : s.pollIter.toNat = n

/-- The state after a read without lock and the 20 ticks of its wait: the next read is on the bus. -/
def pollAgain (b : Byte) (rest : List Stimulus) (s : State) : State :=
  { s with
    inputs := rest, pollIter := s.pollIter + 1, lastLockByte := b, waitLeft := 0
    outputs := s.outputs ++ [.bus (.read s.cfg.chipMap.lockStatusAddr)] }

/-- One round of polling: a read without lock before the 150th, then 20 ticks (R218, R221). -/
theorem run_pollRound {s : State} {n : Nat} {a : Answer} {rest : List Stimulus} (h : Polls s n) (hn : n + 1 < 150)
    (hl : Claims.notLocked a) (hi : s.inputs = .chipAnswer a :: (List.replicate 20 .tick ++ rest)) :
    Sys2Proof.core.run 21 s = .next (pollAgain a.byte rest s) ∧ Polls (pollAgain a.byte rest s) (n + 1) := by
  obtain ⟨hphase, hseq, htodo, hgot, horphan, habort, hiter⟩ := h
  obtain ⟨hok, h2, h1⟩ := hl
  have hnext : s.pollIter + 1 ≠ 150 := by bv_omega
  have hread := step_lockRead hi horphan hphase htodo hgot hok
  rw [pollReadDone_waits h2 h1 (by exact hnext), pollWaitStart, boundary_open _ _ (by exact habort)] at hread
  constructor
  · rw [run_succ 20 hread, run_wait 19 rfl rfl rfl (by exact habort) (by exact horphan),
      pollRead_enters (by exact habort) (by exact horphan)]
    simp only [entered, pollAgain, hphase, hseq, htodo, hgot]
  · exact ⟨hphase, hseq, htodo, hgot, horphan, habort, show (s.pollIter + 1).toNat = n + 1 by bv_omega⟩

/-- The state of a TUNE that has begun POST_AGC after its 150th read without lock. -/
def timedOutAt (b : Byte) (rest : List Stimulus) (wait : Byte) (reads : Nat) (t : Txn) (ts : List Txn)
    (s : State) : State :=
  { s with
    inputs := rest, pollIter := 150, lastLockByte := b, waitLeft := wait, lockState := .timedOut, seq := .postAgc
    phase := .agcNormal, todo := t :: ts
    outputs := s.outputs ++ List.replicate reads (.bus (.read s.cfg.chipMap.lockStatusAddr)) ++ [.bus t] }

/-- The rounds left before the 150th read, then that read: the polling times out (R218, R220, R222). -/
theorem run_pollRounds (as : List Answer) {s : State} {n : Nat} {last : Answer} {t : Txn} {ts : List Txn}
    {rest : List Stimulus} (h : Polls s n) (hn : n + as.length = 149) (has : ∀ a ∈ as, Claims.notLocked a)
    (hl : Claims.notLocked last) (hagc : s.cfg.programs.agcNormal = t :: ts)
    (hi : s.inputs = Claims.pollRounds as ++ .chipAnswer last :: rest) :
    Sys2Proof.core.run (as.length * 21 + 1) s =
      .next (timedOutAt last.byte rest (if as = [] then s.waitLeft else 0) as.length t ts s) := by
  induction as generalizing s n with
  | nil =>
    obtain ⟨hphase, -, htodo, hgot, horphan, habort, hiter⟩ := h
    obtain ⟨hok, h2, h1⟩ := hl
    rw [List.length_nil] at hn
    have hlast : s.pollIter + 1 = 150 := by bv_omega
    rw [run_succ _ (step_lockRead hi horphan hphase htodo hgot hok), pollReadDone_timesOut h2 h1 (by exact hlast),
      postAgc_enters (by exact habort) (by exact horphan) (by exact hagc)]
    simp [Host.Core.run, entered, timedOutAt, hgot]
  | cons a as ih =>
    have hi' : s.inputs =
        .chipAnswer a :: (List.replicate 20 .tick ++ (Claims.pollRounds as ++ .chipAnswer last :: rest)) := by
      simpa [Claims.pollRounds] using hi
    rw [List.length_cons] at hn
    obtain ⟨hround, hpolls⟩ := run_pollRound h (by omega) (has a List.mem_cons_self) hi'
    rw [show (a :: as).length * 21 + 1 = 21 + (as.length * 21 + 1) by rw [List.length_cons]; omega, run_add _ _ hround,
      ih hpolls (by omega) (fun b hb => has b (List.mem_cons_of_mem _ hb)) hagc rfl]
    simp [timedOutAt, pollAgain, List.replicate_succ]

/-- Settles O39: 149 rounds, then the 150th read. -/
theorem pollingTimesOutAfter150Reads : Obligations.PollingTimesOutAfter150Reads := by
  intro s as last t ts rest _ hphase _ hseq htodo hgot horphan habort hiter hlen has hlast hagc hi
  have hpolls : Polls s 0 := ⟨hphase, hseq, htodo, hgot, horphan, habort, congrArg BitVec.toNat hiter⟩
  have hne : as ≠ [] := by rintro rfl; cases hlen
  have hrun := run_pollRounds as hpolls (by omega) has hlast hagc hi
  rw [if_neg hne, hlen] at hrun
  exact hrun

/-! ## The inversion -/

/-- The value of a field from its bytes is R90's. -/
theorem fieldValue_answers (f : FieldDesc) (g : List Answer) :
    fieldValue f (g.map Answer.byte) = Claims.fieldOf f g := by
  unfold fieldValue Claims.fieldOf
  cases f.order with
  | le => simp only [leValue_foldr, List.foldr_map]
  | be => simp only [leValue_foldr, ← List.map_reverse, List.foldr_map]

/-- The last byte of F_INV_SRC is read: the polarity goes into the read-modify-write (R224). -/
theorem step_invRead {s : State} {a : Answer} {rest : List Stimulus} {x : BusAddr} {before : List Answer}
    (hi : s.inputs = .chipAnswer a :: rest) (ho : s.orphan = none) (hp : s.phase = .invRead) (htodo : s.todo = [.read x])
    (hgot : s.got = before.map Answer.byte) (hok : a.ok = true) :
    step s = .next (invReadDone (Claims.fieldOf s.cfg.chipMap.fInvSrc (before ++ [a]))
      { s with inputs := rest, todo := [], got := (before ++ [a]).map Answer.byte }) := by
  rw [step_lastRead hi ho htodo hgot hok, phaseDone, ← fieldValue_answers]
  simp only [hp]

/-- The inversion's read-modify-write succeeds (R223, R227). -/
theorem step_invWrite {s : State} {a : Answer} {rest : List Stimulus} {t : Txn}
    (hi : s.inputs = .chipAnswer a :: rest) (ho : s.orphan = none) (hp : s.phase = .invWrite) (htodo : s.todo = [t])
    (hok : a.ok = true) :
    step s = .next (invWriteDone { s with
      inputs := rest, todo := [], got := s.got ++ answerBytes t a
      chip := Memory.storeAll (txnCells a.byte t) s.chip }) := by
  rw [step_answer_last hi ho htodo hok, phaseDone]
  simp only [hp]

theorem invWriteDone_skipsIsi {s : State} (h : s.tr.nofilter = true) : invWriteDone s = postAgc s := if_pos h

theorem invWriteDone_readsIsi {s : State} (h : s.tr.nofilter = false) : invWriteDone s = postIsi s :=
  if_neg (ne_true_of_eq_false h)

/-- Settles O40: the polarity read is the field's value, and the merged byte is the read-modify-write's own. -/
theorem inversionIsCopiedDownstream : Obligations.InversionIsCopiedDownstream := by
  refine fun s a rest _ ho hok hi => ⟨fun x before hp htodo hgot => ?read, ?write⟩
  case read =>
    rw [step_invRead hi ho hp htodo hgot hok, invReadDone, load_issues rfl _ _ (by exact ho)]
  case write =>
    rintro x m v t0 t1 ts0 ts1 _ hp htodo ha hcount hagc rfl
    have hread : fieldReads s.cfg.chipMap.fIsiCount = t0 :: ts0 := by simpa [Claims.readsOf, fieldReads] using hcount
    rw [step_invWrite hi ho hp htodo hok]
    refine ⟨fun hskip => ?_, fun hscan => ?_⟩
    · rw [invWriteDone_skipsIsi (by exact hskip), postAgc_enters (by exact ha) (by exact ho) (by exact hagc)]
      rfl
    · rw [invWriteDone_readsIsi (by exact hscan), postIsi_enters (by exact ha) (by exact ho) (by exact hread)]
      rfl

/-! ## The ISI selection -/

/-- The last byte of F_ISI_COUNT is read (R225). -/
theorem step_isiCount {s : State} {a : Answer} {rest : List Stimulus} {x : BusAddr} {before : List Answer}
    (hi : s.inputs = .chipAnswer a :: rest) (ho : s.orphan = none) (hp : s.phase = .isiCount) (htodo : s.todo = [.read x])
    (hgot : s.got = before.map Answer.byte) (hok : a.ok = true) :
    step s = .next (isiCountDone (Claims.fieldOf s.cfg.chipMap.fIsiCount (before ++ [a]))
      { s with inputs := rest, todo := [], got := (before ++ [a]).map Answer.byte }) := by
  rw [step_lastRead hi ho htodo hgot hok, phaseDone, ← fieldValue_answers]
  simp only [hp]

/-- A slot count that is 0 once clamped skips the selection (R225). -/
theorem isiCountDone_none {s : State} {count : Nat} (h : min count s.cfg.options.isiMaxSlots = 0) :
    isiCountDone count s = postAgc s := if_pos h

/-- Any other count leads to the read of slot 0 (R225). -/
theorem isiCountDone_some {s : State} {count : Nat} (h : 0 < min count s.cfg.options.isiMaxSlots) :
    isiCountDone count s = isiReadSlot 0 (min count s.cfg.options.isiMaxSlots) 0 s := if_neg h.ne'

/-- The state in which slot i of cnt is being read, first being slot 0's byte once it is known (R225). -/
def readingSlot (i cnt : Nat) (first : Byte) (s : State) : State :=
  { s with
    phase := .isiSlot i cnt first, todo := [.read (s.cfg.chipMap.isiSlotAddr + BitVec.ofNat 16 i)], got := []
    outputs := s.outputs ++ [.bus (.read (s.cfg.chipMap.isiSlotAddr + BitVec.ofNat 16 i))] }

/-- The state in which the selected ISI is being written (R225). -/
def writingIsi (sel : Byte) (s : State) : State :=
  { s with
    phase := .isiSelect sel, todo := [.write s.cfg.chipMap.isiSelAddr sel], got := []
    outputs := s.outputs ++ [.bus (.write s.cfg.chipMap.isiSelAddr sel)] }

theorem isiReadSlot_issues (i cnt : Nat) (first : Byte) {s : State} (ho : s.orphan = none) :
    isiReadSlot i cnt first s = readingSlot i cnt first s := load_issues rfl _ _ ho

theorem isiSelect_issues (sel : Byte) {s : State} (ho : s.orphan = none) : isiSelect sel s = writingIsi sel s :=
  load_issues rfl _ _ ho

/-- Slot 0's byte, once slot i has answered b and before that it was known as first. -/
def slotZero (i : Nat) (first b : Byte) : Byte := if i = 0 then b else first

/-- A TUNE that is reading slot i of cnt, with nothing abandoned on the bus. -/
structure ReadsSlot (i cnt : Nat) (first : Byte) (s : State) : Prop where
  phase : s.phase = .isiSlot i cnt first
  todo : ∃ x, s.todo = [.read x]
  got : s.got = []
  orphan : s.orphan = none

section
variable {s : State} {i cnt : Nat} {first : Byte} {a : Answer} {rest : List Stimulus} (h : ReadsSlot i cnt first s)
  (hi : s.inputs = .chipAnswer a :: rest) (hok : a.ok = true)
include h hi hok

theorem step_isiSlot :
    step s = .next (isiSlotDone i cnt first a.byte { s with inputs := rest, todo := [], got := [a.byte] }) := by
  obtain ⟨hphase, ⟨x, htodo⟩, hgot, horphan⟩ := h
  rw [step_lastRead (before := []) hi horphan htodo hgot hok, phaseDone]
  simp only [hphase]
  rfl

/-- A slot that matches is selected (R225). -/
theorem step_isiSlot_match (hmatch : a.byte = s.tr.isi) :
    step s = .next (writingIsi a.byte { s with inputs := rest }) := by
  rw [step_isiSlot h hi hok, isiSlotDone]
  dsimp only
  rw [if_pos hmatch, isiSelect_issues _ (by exact h.orphan)]
  rfl

/-- A slot that does not match leads to the next one, if there is one (R225). -/
theorem step_isiSlot_next (hmiss : a.byte ≠ s.tr.isi) (hmore : i + 1 < cnt) :
    step s = .next (readingSlot (i + 1) cnt (slotZero i first a.byte) { s with inputs := rest }) := by
  rw [step_isiSlot h hi hok, isiSlotDone]
  dsimp only
  rw [if_neg hmiss, if_pos hmore, isiReadSlot_issues _ _ _ (by exact h.orphan)]
  rfl

/-- The last slot does not match: slot 0's byte is selected (R226). -/
theorem step_isiSlot_fallback (hmiss : a.byte ≠ s.tr.isi) (hlast : cnt ≤ i + 1) :
    step s = .next (writingIsi (slotZero i first a.byte) { s with inputs := rest }) := by
  rw [step_isiSlot h hi hok, isiSlotDone]
  dsimp only
  rw [if_neg hmiss, if_neg hlast.not_gt, isiSelect_issues _ (by exact h.orphan)]
  rfl

end

/-- The reads of the k slots after slot i, in order (R225). -/
def slotReads (m : ChipMap) (i k : Nat) : List PortEvent :=
  (List.range k).map fun j => .bus (.read (m.isiSlotAddr + BitVec.ofNat 16 (i + j + 1)))

theorem slotReads_succ (m : ChipMap) (i k : Nat) :
    slotReads m i (k + 1) = .bus (.read (m.isiSlotAddr + BitVec.ofNat 16 (i + 1))) :: slotReads m (i + 1) k := by
  simp only [slotReads, List.range_succ_eq_map, List.map_cons, List.map_map, Function.comp_def]
  congr 2
  funext j
  congr 5
  omega

/-- Slot 0's byte, once the slots from i on have answered. -/
def slotZeroAfter (i : Nat) (first : Byte) (seen : List Answer) : Byte :=
  slotZero i first ((seen.map Answer.byte).headD first)

theorem slotZeroAfter_cons (i : Nat) (first : Byte) (a : Answer) (seen : List Answer) :
    slotZeroAfter (i + 1) (slotZero i first a.byte) seen = slotZeroAfter i first (a :: seen) := rfl

/-- A scan over slots that do not match, with more to come: each is read in its turn (R225). -/
theorem run_slots (miss : List Answer) {s : State} {i cnt : Nat} {first : Byte} {rest : List Stimulus}
    (h : ReadsSlot i cnt first s) (hmiss : ∀ a ∈ miss, a.ok = true ∧ a.byte ≠ s.tr.isi) (hcnt : i + miss.length < cnt)
    (hi : s.inputs = Claims.answers miss ++ rest) :
    ∃ t, Sys2Proof.core.run miss.length s = .next t ∧
      ReadsSlot (i + miss.length) cnt (slotZeroAfter i first miss) t ∧ t.inputs = rest ∧ t.tr = s.tr ∧ t.cfg = s.cfg ∧
      t.outputs = s.outputs ++ slotReads s.cfg.chipMap i miss.length := by
  induction miss generalizing s i first with
  | nil =>
    refine ⟨s, run_zero s, ?_, hi, rfl, rfl, (List.append_nil _).symm⟩
    simpa [slotZeroAfter, slotZero] using h
  | cons a miss ih =>
    obtain ⟨hok, hne⟩ := hmiss a List.mem_cons_self
    rw [List.length_cons] at hcnt
    have hstep := step_isiSlot_next h (rest := Claims.answers miss ++ rest) hi hok hne (by omega)
    have hreads : ReadsSlot (i + 1) cnt (slotZero i first a.byte) (readingSlot (i + 1) cnt (slotZero i first a.byte)
        { s with inputs := Claims.answers miss ++ rest }) := ⟨rfl, ⟨_, rfl⟩, rfl, h.orphan⟩
    obtain ⟨t, hrun, hslot, hinputs, htr, hcfg, hout⟩ :=
      ih hreads (fun b hb => hmiss b (List.mem_cons_of_mem _ hb)) (by omega) rfl
    refine ⟨t, (run_succ _ hstep).trans hrun, ?_, hinputs, htr, hcfg, ?_⟩
    · rwa [List.length_cons, ← slotZeroAfter_cons, show i + (miss.length + 1) = i + 1 + miss.length by omega]
    · rw [hout, List.length_cons, slotReads_succ]
      simp [readingSlot]

/-- Settles O41: the count is clamped before it is looked at; then the scan is its slots without a match, in their order,
and the one that ends it. -/
theorem isiScanSelectsFirstMatchOrFirstSlot : Obligations.IsiScanSelectsFirstMatchOrFirstSlot := by
  intro s cnt tail _ ho
  refine ⟨?count, fun f miss hphase htodo hgot hmiss => ?scan⟩
  case count =>
    rintro x a before t ts hp htodo hgot ha hok hi hagc rfl
    rw [step_isiCount hi ho hp htodo hgot hok]
    refine ⟨fun hzero => ?_, fun hpos => ?_⟩
    · rw [isiCountDone_none (by exact hzero), postAgc_enters (by exact ha) (by exact ho) (by exact hagc)]
      rfl
    · rw [isiCountDone_some (by exact hpos), isiReadSlot_issues _ _ _ (by exact ho)]
      simp [readingSlot]
  case scan =>
    have hslot : ReadsSlot 0 cnt f s := ⟨hphase, ⟨_, htodo⟩, hgot, ho⟩
    have reads (k : Nat) : (List.range k).map (fun j => PortEvent.bus
        (.read (s.cfg.chipMap.isiSlotAddr + BitVec.ofNat 16 (j + 1)))) = slotReads s.cfg.chipMap 0 k := by
      simp [slotReads]
    refine ⟨fun a hlt hok hmatch hi => ?_, fun a more hcons hlen hi => ?_⟩
    · obtain ⟨t, hrun, ht, hinputs, htr, hcfg, hout⟩ := run_slots miss hslot hmiss (by omega) hi
      have hstep := step_isiSlot_match ht hinputs hok (hmatch.trans (by rw [htr]))
      refine ⟨_, (run_add _ _ hrun).trans ((run_succ 0 hstep).trans (run_zero _)), rfl, ?_, ?_, ?_⟩
      · simp [writingIsi, hcfg, hmatch]
      · simp [writingIsi, hmatch]
      · simp [writingIsi, hcfg, hmatch, hout, reads]
    · obtain rfl | ⟨init, last, rfl⟩ := List.eq_nil_or_concat miss
      · cases hcons
      have hmore : more.length = init.length := by simpa using (congrArg List.length hcons).symm
      have hcnt : init.length + 1 = cnt := by simpa using hlen
      obtain ⟨hok, hne⟩ := hmiss last (by simp)
      obtain ⟨t, hrun, ht, hinputs, htr, hcfg, hout⟩ := run_slots init hslot (fun b hb => hmiss b (by simp [hb]))
        (by omega) (rest := .chipAnswer last :: tail) (by simpa [Claims.answers] using hi)
      have hfirst : slotZero (0 + init.length) (slotZeroAfter 0 f init) last.byte = a.byte := by
        cases init with
        | nil => cases hcons; rfl
        | cons b init => cases hcons; rfl
      have hstep := step_isiSlot_fallback ht hinputs hok (by rwa [htr]) (by omega)
      rw [hfirst] at hstep
      refine ⟨writingIsi a.byte { t with inputs := tail }, ?_, rfl, ?_, rfl, ?_⟩
      · rw [← hcnt]
        exact (run_add _ _ hrun).trans ((run_succ 0 hstep).trans (run_zero _))
      · simp [writingIsi, hcfg]
      · simp [writingIsi, hcfg, hout, reads, hmore]

/-- SEL_ISI with VALID = 1 is 256 and the selected byte (R47). -/
theorem selIsiWord_eq (sel : Byte) : selIsiWord sel = BitVec.ofNat 32 (256 + sel.toNat) := by
  apply BitVec.eq_of_toNat_eq
  have hone : (1 : BitVec 24).toNat = 1 := rfl
  rw [selIsiWord, toNat_append_weighed, hone, BitVec.toNat_ofNat]
  omega

/-- The selection's write succeeds: SEL_ISI shows it (R225). -/
theorem step_isiSelected {s : State} {a : Answer} {rest : List Stimulus} {t : Txn} {sel : Byte}
    (hi : s.inputs = .chipAnswer a :: rest) (ho : s.orphan = none) (hp : s.phase = .isiSelect sel) (htodo : s.todo = [t])
    (hok : a.ok = true) :
    step s = .next (postAgc { s with
      inputs := rest, todo := [], got := s.got ++ answerBytes t a
      chip := Memory.storeAll (txnCells a.byte t) s.chip, selIsi := BitVec.ofNat 32 (256 + sel.toNat) }) := by
  rw [step_answer_last hi ho htodo hok, phaseDone, ← selIsiWord_eq]
  simp only [hp]
  rfl

/-- Settles O42: the write's byte is delivered, SEL_ISI is set, and POST_AGC is entered. -/
theorem isiSelectionIsShown : Obligations.IsiSelectionIsShown := by
  intro s sel x a t ts rest _ hp htodo ho ha hok hi hagc
  rw [step_isiSelected hi ho hp htodo hok, postAgc_enters (by exact ha) (by exact ho) (by exact hagc)]
  rfl

/-! ## The end of a TUNE -/

/-- The last transaction of the normal AGC program succeeds (R228). -/
theorem step_agcNormal {s : State} {a : Answer} {rest : List Stimulus} {t : Txn}
    (hi : s.inputs = .chipAnswer a :: rest) (ho : s.orphan = none) (hp : s.phase = .agcNormal) (htodo : s.todo = [t])
    (hok : a.ok = true) :
    step s = .next (postAux { s with
      inputs := rest, todo := [], got := s.got ++ answerBytes t a
      chip := Memory.storeAll (txnCells a.byte t) s.chip }) := by
  rw [step_answer_last hi ho htodo hok, phaseDone]
  simp only [hp]

/-- The results of a TUNE that ends Locked or TimedOut are R229's, RES0 being LockState's code. -/
theorem tuneFinish_eq {s : State} {r0 : Word} (h : s.lockState = .locked ∧ r0 = 3 ∨ s.lockState = .timedOut ∧ r0 = 4) :
    tuneFinish s = Claims.tuneEnded s r0 := by
  unfold tuneFinish tuneResults
  rcases h with ⟨hl, rfl⟩ | ⟨hl, rfl⟩ <;> rw [hl] <;> rfl

/-- Settles O43: with no abort requested the boundary of POST_AUX only adds the aux event. -/
theorem tuneCompletesAfterAgc : Obligations.TuneCompletesAfterAgc := by
  intro s x a rest r0 _ hp htodo ho ha hok hi hlock
  rw [step_agcNormal hi ho hp htodo hok, postAux_ends _ (by exact ha)]
  exact congrArg Host.Outcome.next (tuneFinish_eq (s := { s with
    inputs := rest, todo := [], got := s.got ++ answerBytes x a, chip := Memory.storeAll (txnCells a.byte x) s.chip
    outputs := s.outputs ++
      (if s.lockState = .locked ∧ s.cfg.options.auxPresent = true then [.auxSet s.cfg.options.auxFreqHz] else []) })
    (by exact hlock))

/-! ## A whole TUNE -/

/-- Entering Programming clears what R206 names and begins P_RESET. -/
theorem enterProgramming_enters {s : State} {t : Txn} {ts : List Txn} (ha : s.abortReq = false) (ho : s.orphan = none)
    (hp : s.cfg.programs.resetPulse = t :: ts) :
    enterProgramming s = entered .pReset .program t ts
      { s with lockState := .programming, accErr := 0, accCnt := 0, pollIter := 0, lastLockByte := 0, selIsi := 0 } := by
  rw [enterProgramming, programmingSteps, programFrom, boundary_open _ _ (by exact ha)]
  exact load_issues hp _ _ ho

/-- A command that has nothing of its own to take waits. -/
theorem runCommand_waits {s : State} (h : Claims.Waits s.inputs) : runCommand s = s := by
  rw [runCommand]
  cases hi : s.inputs with
  | nil => rfl
  | cons x rest => exact runOn_other s (h x rest hi)

/-- The state in which CHECK has made the plan p (R204, R205). -/
def planned (p : TunePlan) (s : State) : State := { checking s with plan := p }

/-- A TUNE whose request passes CHECK and whose plan is made runs on from Programming (R201 to R206). -/
theorem exec_tune_accepted {s : State} {p : TunePlan} (hid : Idle s) (hc : s.chipReady = true) (hp : Prompt s)
    (hok : Claims.RequestOk s.cfg (Claims.request s)) (hplan : makePlan s.cfg (Claims.request s) s.plan = (p, none)) :
    exec .tune s = .next (runCommand (enterProgramming (planned p s))) := by
  have hexec : exec .tune s = .next (runCommand (tuneCheck (checking s))) := exec_tune_checks hid hc hp
  rw [hexec, tuneCheck_passes (s := checking s) hok hplan]
  rfl

/-- Settles O35: CHECK passes at once, P_RESET's first transaction is issued, and the block waits for the chip. -/
theorem tuneEntersProgramming : Obligations.TuneEntersProgramming := by
  refine ⟨rfl, fun s p t ts hid hc hp hw ho hok hplan hprog => ?_⟩
  rw [exec_tune_accepted hid hc hp hok hplan, enterProgramming_enters (s := planned p s) rfl ho hprog]
  exact congrArg _ (runCommand_waits hw)

theorem deliveredBy_eq (ts : List Txn) (as : List Answer) : Claims.deliveredBy ts as = sentCells ts as := by
  induction ts generalizing as with
  | nil => rfl
  | cons t ts ih =>
    cases as with
    | nil => rfl
    | cons a as => rw [Claims.deliveredBy, sentCells, ih]

/-- The strict order of R206 is the model's own list of steps. -/
theorem programmingTxns_eq (c : Config) (tr : TuneRequest) (p : TunePlan) :
    Claims.programmingTxns c tr p = stepsPrograms programmingSteps c tr p := by
  simp only [Claims.programmingTxns, stepsPrograms, programmingSteps, List.flatMap_cons, List.flatMap_nil, stepProgram,
    pllWrites, tsclkWrites, plsWrites, byteOf, List.append_assoc, List.append_nil]

/-- Polling whose first read answers 0xF7: the read is issued, and POST_AGC follows (R217 to R219, R223). -/
theorem pollStart_locksS1 {s : State} {lock : Answer} {rest : List Stimulus} (hr : s.running ≠ none)
    (ho : s.orphan = none) (ha : s.abortReq = false) (hok : lock.ok = true) (hb : lock.byte = 0xF7) :
    runOn (.chipAnswer lock :: rest) (pollStart s) = runOn rest (postAgc { s with
      inputs := rest, seq := .pollRead, phase := .pollRead, todo := [], got := [0xF7]
      outputs := s.outputs ++ [.bus (.read s.cfg.chipMap.lockStatusAddr)], pollIter := s.pollIter + 1
      lastLockByte := 0xF7, lockState := .locked, lockDelsys := false }) := by
  have hrun := runOn_answers (.read s.cfg.chipMap.lockStatusAddr) [] [lock] rest
    (entered .pollRead .pollRead (.read s.cfg.chipMap.lockStatusAddr) [] { s with lockState := .polling })
    (by exact hr) (by exact ho) rfl rfl (by simpa using hok)
  rw [pollStart, pollRead_enters (by exact ha) (by exact ho)]
  refine hrun.trans (congrArg (runOn rest) (Eq.trans ?_ (pollReadDone_locksS1 { s with
    inputs := rest, seq := .pollRead, phase := .pollRead, todo := [], got := [0xF7], lockState := .polling
    outputs := s.outputs ++ [.bus (.read s.cfg.chipMap.lockStatusAddr)] })))
  simp [phaseDone, entered, readBytes, sentCells, answerBytes, txnCells, hb]

/-- Programming whose every transaction succeeds: all of them are issued in order, and polling starts (R206 to R217). -/
theorem enterProgramming_run {s : State} {as : List Answer} {rest : List Stimulus} (hr : s.running ≠ none)
    (ho : s.orphan = none) (ha : s.abortReq = false)
    (hsucceed : Claims.AllSucceed (Claims.programmingTxns s.cfg s.tr s.plan) as)
    (hi : s.inputs = Claims.answers as ++ rest) :
    runCommand (enterProgramming s) = runOn rest (pollStart { s with
      lockState := .programming, accErr := 0, accCnt := 0, pollIter := 0, lastLockByte := 0, selIsi := 0, inputs := rest
      mclkKhz := regWord s.plan.mclkKhz
      outputs := s.outputs ++ Claims.issued (Claims.programmingTxns s.cfg s.tr s.plan)
      chip := Memory.storeAll (Claims.deliveredBy (Claims.programmingTxns s.cfg s.tr s.plan) as) s.chip }) := by
  obtain ⟨hlen, hok⟩ := hsucceed
  rw [programmingTxns_eq] at hlen
  have hrun := programFrom_run programmingSteps [] rfl as rest
    { s with lockState := .programming, accErr := 0, accCnt := 0, pollIter := 0, lastLockByte := 0, selIsi := 0 }
    (by exact hr) (by exact ho) (by exact ha) hlen hok (by exact hi)
  rw [deliveredBy_eq, programmingTxns_eq, runCommand, enterProgramming, programFrom_inputs]
  exact hrun

/-- Settles O36: programming, the lock read, the normal AGC program and the end, each phase run through by its own lemma. -/
theorem tuneLocksOnDvbS : Obligations.TuneLocksOnDvbS := by
  rintro s p as bs lock rest _ hid hc ho hok hplan rfl hprogram hlock hbyte ⟨hlen, hagc⟩ hi
  have hprompt : Prompt s := by
    intro rest' hheld
    rw [hi] at hheld
    cases as <;> cases hheld
  rw [exec_tune_accepted hid hc hprompt hok hplan,
    enterProgramming_run (s := planned p s) (Option.some_ne_none _) ho rfl hprogram hi,
    pollStart_locksS1 (Option.some_ne_none _) (by exact ho) rfl hlock hbyte]
  have hpost := postAgc_run bs rest { planned p s with
      lockState := .locked, lockDelsys := false, accErr := 0, accCnt := 0, pollIter := 1, lastLockByte := 0xF7, selIsi := 0
      inputs := Claims.answers bs ++ rest, mclkKhz := regWord p.mclkKhz, seq := .pollRead, phase := .pollRead, todo := []
      got := [0xF7]
      outputs := s.outputs ++ Claims.issued (Claims.programmingTxns s.cfg (Claims.request s) p)
        ++ [.bus (.read s.cfg.chipMap.lockStatusAddr)]
      chip := Memory.storeAll (Claims.deliveredBy (Claims.programmingTxns s.cfg (Claims.request s) p) as) s.chip }
    (Option.some_ne_none _) ho rfl hlen hagc rfl
  rw [postAux_ends _ rfl, runOn_idle rest rfl] at hpost
  refine congrArg _ (hpost.trans ?_)
  rw [deliveredBy_eq s.cfg.programs.agcNormal]
  simp only [true_and]
  rfl

/-! ## A failed transaction -/

/-- Settles O44: the place is the step or the OPC, the kind and the address are the transaction's, and only a TUNE's failure
moves LockState. -/
theorem transportFailureEndsTheCommand : Obligations.TransportFailureEndsTheCommand := by
  rintro s i t todo a rest _ hrun ho htodo hfail hi rfl
  have hplace : transportPlace s = if i = .tune then s.seq.code else opcOf i := by
    unfold transportPlace
    rw [hrun]
    cases i <;> rfl
  rw [step_answer_failed hi ho htodo hfail, busFailure, ← hplace]
  by_cases htune : i = .tune
  · rw [if_pos (by rw [hrun, htune]), if_pos htune]
    cases t <;> rfl
  · rw [if_neg (by rwa [hrun, Option.some.injEq]), if_neg htune]
    cases t <;> rfl

/-! ## How LockState moves -/

/-- While rst_n is low LockState and LOCK_DELSYS hold their reset values, and no step moves them (R350). -/
theorem AtReset.lock {s : State} (h : AtReset s) : s.lockState = .idle ∧ s.lockDelsys = false := by
  rw [h.items]
  exact ⟨rfl, rfl⟩

/-- LockState and LOCK_DELSYS are as they were (R234). -/
def SameLock (s t : State) : Prop := t.lockState = s.lockState ∧ t.lockDelsys = s.lockDelsys

/-- LockState moves only forward, and it and LOCK_DELSYS only for a TUNE (R200, R234). -/
structure LockForward (s t : State) : Prop where
  forward : t.lockState = s.lockState ∨ lockRank s.lockState < lockRank t.lockState
  other : s.running ≠ some .tune → SameLock s t

theorem SameLock.lockForward {s t : State} (h : SameLock s t) : LockForward s t := ⟨.inl h.1, fun _ => h⟩

theorem Leads.lockForward {s t : State} (h : Leads s t) : LockForward s t := ⟨h.2.lock, h.2.other⟩

/-- A step that takes no host write, and leaves rst_n as it is or high, moves the lock state as R200 and R234 say. -/
theorem stimulusStep_forward {s t : State} {x : Stimulus} (h : BlockInv s) (hw : ∀ off n v, x ≠ .hostWrite off n v)
    (hr : x ≠ .rstNLevel false) (hstep : stimulusStep x s = .next t) : LockForward s t := by
  cases hrst : s.rstN with
  | false =>
    obtain ⟨hlock, hdelsys⟩ := (h.atReset hrst).lock
    obtain ⟨hlock', hdelsys'⟩ := (stimulusStep_atReset (h.atReset hrst) hrst hstep).lock
    exact SameLock.lockForward ⟨hlock'.trans hlock.symm, hdelsys'.trans hdelsys.symm⟩
  | true =>
    cases x with
    | hostRead off nbytes =>
      cases windowed_next hstep
      exact SameLock.lockForward ⟨rfl, rfl⟩
    | hostWrite off nbytes v => exact absurd rfl (hw off nbytes v)
    | chipAnswer | tick | computeHold | computeDone =>
      cases hstep
      exact Leads.lockForward (react_inv rfl h hrst)
    | chipReadyLevel level =>
      cases hstep
      exact SameLock.lockForward ⟨rfl, rfl⟩
    | rstNLevel level =>
      cases hstep
      cases level with
      | false => exact absurd rfl hr
      | true => exact SameLock.lockForward ⟨rfl, rfl⟩

/-- Settles O53: every reaction of the engine moves LockState only forward, and nothing else moves it. -/
theorem lockStateOnlyMovesForward : Obligations.LockStateOnlyMovesForward := by
  intro s t x rest h hi hw hr hstep
  rw [step_stimulus hi] at hstep
  exact (stimulusStep_forward (h.takeInput rest) hw hr hstep).forward

/-- A command but TUNE and RESET, written while idle, leaves them however it ends (R234, R250). -/
theorem exec_idle_sameLock {i : Instr} {s t : State} (htune : i ≠ .tune) (hreset : i ≠ .reset) (h : BlockInv s)
    (hr : s.rstN = true) (hid : Idle s) (hexec : exec i s = .next t) : SameLock s t := by
  obtain ⟨u, hu, -, hforward⟩ := exec_idle_inv i htune hreset h hr hid
  cases hexec.symm.trans hu
  exact hforward.other (by simpa using htune)

/-- A word but RESET leaves them while another command than TUNE runs, and, but for TUNE, while none does. -/
theorem exec_sameLock {i : Instr} {s t : State} (hreset : i ≠ .reset) (htune : Idle s → i ≠ .tune) (h : BlockInv s)
    (hr : s.rstN = true) (hrun : s.running ≠ some .tune) (hexec : exec i s = .next t) : SameLock s t := by
  by_cases hid : Idle s
  · exact exec_idle_sameLock (htune hid) hreset h hr hid hexec
  · obtain ⟨u, hu, -, hforward⟩ := busy_inv i hreset h hr hid
    cases hexec.symm.trans hu
    exact hforward.other hrun

theorem writeReg_sameLock (r : HostReg) (v : Word) (s : State) : SameLock s (writeReg r v s) := by
  cases r <;> exact ⟨rfl, rfl⟩

theorem submitIllegal_sameLock (w : Word) (s : State) : SameLock s (submitIllegal w s) := by
  unfold submitIllegal
  split <;> exact ⟨rfl, rfl⟩

/-- A host write leaves them, unless it submits RESET, or TUNE while idle. -/
theorem hostWrite_sameLock {off : Nat} {v : Word} {s t : State} (h : BlockInv s) (hrun : s.running ≠ some .tune)
    (hword : regAt off = .cmd → v ≠ encode .reset ∧ (Idle s → v ≠ encode .tune)) (hwrite : hostWrite off v s = .next t) :
    SameLock s t := by
  unfold hostWrite at hwrite
  split at hwrite
  · next hcmd =>
    obtain ⟨hreg, hr⟩ := hcmd
    obtain ⟨hreset, htune⟩ := hword hreg
    unfold submitWord at hwrite
    split at hwrite
    · next i hdecode =>
      have hv := encode_of_decode hdecode
      exact exec_sameLock (fun hi => hreset (hi ▸ hv)) (fun hid hi => htune hid (hi ▸ hv)) h hr hrun hwrite
    · cases hwrite
      exact submitIllegal_sameLock v s
  · cases hwrite
    unfold hostWriteReg
    split
    · exact writeReg_sameLock _ v s
    · exact ⟨rfl, rfl⟩

/-- Settles O54: at a command's word by the command, at every later step by what the step takes. -/
theorem onlyTuneAndResetChangeLockState : Obligations.OnlyTuneAndResetChangeLockState := by
  refine ⟨fun i s t htune hreset h hr hid hexec => exec_idle_sameLock htune hreset h hr hid hexec, ?_⟩
  intro s t h hrun hrst hword hstep
  cases hi : s.inputs with
  | nil =>
    cases (step_nothing hi).symm.trans hstep
    exact ⟨rfl, rfl⟩
  | cons x rest =>
    rw [step_stimulus hi] at hstep
    by_cases hwrite : ∃ off n v, x = .hostWrite off n v
    · obtain ⟨off, n, v, rfl⟩ := hwrite
      obtain ⟨rfl, h4, hl⟩ := windowed_access hstep
      refine hostWrite_sameLock (s := { s with inputs := rest }) (h.takeInput rest) hrun (fun hcmd => ?_)
        (windowed_next hstep)
      obtain rfl := eq_of_regAt_cmd h4 hl hcmd
      exact hword v rest hi
    · refine (stimulusStep_forward (h.takeInput rest) (fun off n v hx => hwrite ⟨off, n, v, hx⟩) ?_ hstep).other hrun
      rintro rfl
      exact hrst rest hi

/-! ## An abort at a step's boundary -/

/-- A requested abort ends the TUNE at any step's boundary, naming the step (R231, R314). -/
theorem boundary_aborts (st : SeqStep) (body : State → State) {s : State} (h : s.abortReq = true) :
    boundary st body s = Claims.abortedAt s st.code := boundary_aborted st body h

/-- The next programming step, or after the last one the first lock-status read, is where an abort is honoured (R217,
R231). -/
theorem programFrom_aborts (sts : List SeqStep) {s : State} (h : s.abortReq = true) :
    programFrom sts s = Claims.abortedAt s (sts.headD .pollRead).code := by
  cases sts with
  | nil => exact boundary_aborts .pollRead _ (s := { s with lockState := .polling }) h
  | cons st sts => exact boundary_aborts st _ h

/-- A TUNE's held CHECK ends (R372). -/
theorem step_tuneChecked {s : State} {rest : List Stimulus} (hi : s.inputs = .computeDone :: rest)
    (hrun : s.running = some .tune) (hp : s.phase = .computing) :
    step s = .next (tuneCheck { s with inputs := rest, phase := .idle }) := by
  rw [step_stimulus hi, stimulusStep, react, computeDone]
  simp only [hp, hrun]
  rfl

/-- The last transaction of a programming step succeeds: P_MCLK writes MCLK_KHZ, and the next step follows (R206, R209). -/
theorem step_programmed {s : State} {a : Answer} {rest : List Stimulus} {t : Txn}
    (hi : s.inputs = .chipAnswer a :: rest) (ho : s.orphan = none) (hp : s.phase = .program) (htodo : s.todo = [t])
    (hok : a.ok = true) :
    step s = .next (programFrom (stepsAfter s.seq) { s with
      inputs := rest, todo := [], got := s.got ++ answerBytes t a, chip := Memory.storeAll (txnCells a.byte t) s.chip
      mclkKhz := if s.seq = .pMclk then regWord s.plan.mclkKhz else s.mclkKhz }) := by
  rw [step_answer_last hi ho htodo hok, phaseDone]
  simp only [hp, programDone, stepEffect]
  split <;> rfl

/-- The codes R231 names after each programming step are those of the next step. -/
theorem abortPlace_eq {st : SeqStep} {place : Byte} (h : (st, place) ∈
      [(SeqStep.pReset, (0x03 : Byte)), (.pTsclr, 0x04), (.pMclk, 0x05), (.pAgcCautious, 0x06), (.pPll, 0x07),
        (.pTsclk, 0x08), (.pLpf, 0x09), (.pBulk, 0x0A), (.pDelsys, 0x0B), (.pPls, 0x10)]) :
    place = ((stepsAfter st).headD .pollRead).code := by
  simp only [List.mem_cons, Prod.mk.injEq, List.not_mem_nil, or_false] at h
  rcases h with ⟨rfl, rfl⟩ | ⟨rfl, rfl⟩ | ⟨rfl, rfl⟩ | ⟨rfl, rfl⟩ | ⟨rfl, rfl⟩ | ⟨rfl, rfl⟩ | ⟨rfl, rfl⟩ | ⟨rfl, rfl⟩ |
    ⟨rfl, rfl⟩ | ⟨rfl, rfl⟩ <;> rfl

/-- POST_AUX, the last boundary, on Locked with the auxiliary clock fitted (R231, log entry 17). -/
theorem postAux_aborts {s : State} (ha : s.abortReq = true) (hl : s.lockState = .locked)
    (haux : s.cfg.options.auxPresent = true) : postAux s = Claims.abortedAt s 0x23 :=
  (if_pos ⟨hl, haux⟩).trans (boundary_aborts .postAux _ ha)

/-- Where POST_AUX has nothing to do there is no boundary, and the TUNE completes (R223, R229). -/
theorem postAux_completes {s : State} {r0 : Word}
    (h : s.lockState = .locked ∧ r0 = 3 ∨ s.lockState = .timedOut ∧ r0 = 4)
    (haux : ¬ (s.lockState = .locked ∧ s.cfg.options.auxPresent = true)) : postAux s = Claims.tuneEnded s r0 :=
  (if_neg haux).trans (tuneFinish_eq h)

/-- Settles O17: what ends at each boundary is said by the lemma of the step before it, and the boundary ends the TUNE. -/
theorem abortIsHonouredAtStepBoundaries : Obligations.AbortIsHonouredAtStepBoundaries := by
  intro s rest hrun ha ho
  refine ⟨fun p hp hok hplan hi => ?checked, fun hp hw hi => ?waited, fun t a u htodo hok hi hu =>
    ⟨fun place hp hplace => ?programmed, fun x v hp ht hgot hv => ⟨fun hb => ?s2, fun hb => ?s1, fun h2 h1 hn => ?timedOut,
      fun h2 h1 hn => ?pollWait⟩, fun hp => ?inversion, fun x before hp ht hgot hcount => ?count, fun sel hp => ?selected,
      fun hp hl haux => ?aux, fun hp hl haux => ?locked, fun hp hl => ?timeout⟩⟩
  case checked =>
    rw [step_tuneChecked hi hrun hp, tuneCheck_passes (by exact hok) (by exact hplan), enterProgramming,
      programFrom_aborts _ (by exact ha)]
    rfl
  case waited =>
    rw [step_tick_last hi hp hw, pollRead, boundary_aborts _ _ (by exact ha)]
    rfl
  case programmed =>
    subst hu
    rw [step_programmed hi ho hp htodo hok, programFrom_aborts _ (by exact ha), ← abortPlace_eq hplace]
    rfl
  case s2 =>
    subst ht hu hv
    rw [step_lockRead hi ho hp htodo hgot hok, hb, pollReadDone_locksS2, postInv, boundary_aborts _ _ (by exact ha)]
    rfl
  case s1 =>
    subst ht hu hv
    rw [step_lockRead hi ho hp htodo hgot hok, hb, pollReadDone_locksS1, postAgc, boundary_aborts _ _ (by exact ha)]
    rfl
  case timedOut =>
    subst ht hu hv
    rw [step_lockRead hi ho hp htodo hgot hok, pollReadDone_timesOut h2 h1 (by exact hn), postAgc,
      boundary_aborts _ _ (by exact ha), hn]
    rfl
  case pollWait =>
    subst ht hu hv
    rw [step_lockRead hi ho hp htodo hgot hok, pollReadDone_waits h2 h1 (by exact hn), pollWaitStart,
      boundary_aborts _ _ (by exact ha)]
    rfl
  case inversion =>
    subst hu
    rw [step_invWrite hi ho hp htodo hok]
    cases hskip : s.tr.nofilter with
    | true =>
      rw [invWriteDone_skipsIsi (by exact hskip), postAgc, boundary_aborts _ _ (by exact ha)]
      rfl
    | false =>
      rw [invWriteDone_readsIsi (by exact hskip), postIsi, boundary_aborts _ _ (by exact ha)]
      rfl
  case count =>
    subst ht hu
    rw [step_isiCount hi ho hp htodo hgot hok, isiCountDone_none (by exact hcount), postAgc,
      boundary_aborts _ _ (by exact ha)]
    rfl
  case selected =>
    subst hu
    rw [step_isiSelected hi ho hp htodo hok, postAgc, boundary_aborts _ _ (by exact ha)]
    rfl
  case aux =>
    subst hu
    rw [step_agcNormal hi ho hp htodo hok, postAux_aborts (by exact ha) (by exact hl) (by exact haux)]
    rfl
  case locked =>
    subst hu
    rw [step_agcNormal hi ho hp htodo hok, postAux_completes (r0 := 3) (.inl ⟨by exact hl, rfl⟩) (by simp [haux])]
    rfl
  case timeout =>
    subst hu
    rw [step_agcNormal hi ho hp htodo hok, postAux_completes (r0 := 4) (.inr ⟨by exact hl, rfl⟩) (by simp [hl])]
    rfl

end Sys2Proof.Machine

/-! The signal-quality estimator (43_quality.md): how a measurement command begins its reads (R250, R262, R268, R271), what
the answers of a list of fields are as values (R90), and what GAIN (R251 to R256), CNR_S1 (R261), CNR_S2 (R264 to R267) and
the BER commands (R271 to R281) leave. -/

namespace Sys2Proof.Machine

/-! ## The answers of a list of fields -/

/-- The answers of fields are one for each read, and all of them successes. -/
theorem fieldsReads_allSucceed {fs : List FieldDesc} {gs : List (List Answer)} (h : Claims.FieldsAnswered fs gs) :
    Claims.AllSucceed (fieldsReads fs) gs.flatten := by
  induction fs generalizing gs with
  | nil =>
    cases gs with
    | nil => exact ⟨rfl, fun _ ha => nomatch ha⟩
    | cons g gs => exact h.elim
  | cons f fs ih =>
    cases gs with
    | nil => exact h.elim
    | cons g gs =>
      obtain ⟨hlen, hok, hrest⟩ := h
      obtain ⟨hlens, hoks⟩ := ih hrest
      rw [fieldsReads_length] at hlens
      refine ⟨by simp [fieldsReads_length, hlen, hlens], fun a ha => ?_⟩
      rw [List.flatten_cons, List.mem_append] at ha
      exact ha.elim (hok a) (hoks a)

/-- The bytes read give each field its own value (R90). -/
theorem fieldValues_valueAt {fs : List FieldDesc} {gs : List (List Answer)} (h : Claims.FieldsAnswered fs gs) :
    fieldValues fs (gs.flatten.map Answer.byte) = (List.range fs.length).map (Claims.valueAt fs gs) := by
  induction fs generalizing gs with
  | nil => rfl
  | cons f fs ih =>
    cases gs with
    | nil => exact h.elim
    | cons g gs =>
      obtain ⟨hlen, -, hrest⟩ := h
      rw [List.flatten_cons, List.map_append, fieldValues_append _ _ _ _ (by rw [List.length_map, hlen]), ih hrest,
        fieldValue_answers, List.length_cons, List.range_succ_eq_map, List.map_cons, List.map_map]
      rfl

/-- The reads of one field. -/
theorem fieldsReads_singleton (f : FieldDesc) : fieldsReads [f] = fieldReads f := List.append_nil _

/-! ## How a measurement command begins -/

theorem measureStart_ready (i : Instr) (begin_ : State → State) {s : State} (hc : s.chipReady = true) :
    measureStart i begin_ s = begin_ s := if_pos hc

/-- A measurement command's word on an idle, ready block: it is accepted and begins its reads (R250, R310). -/
theorem submit_measure (i : Instr) (begin_ : State → State) {s : State} (hid : Idle s) (hc : s.chipReady = true) :
    submit i (measureStart i begin_) s = runCommand (begin_ (accept i s)) := by
  rw [submit_idle _ _ hid, measureStart_ready _ _ (s := accept i s) hc]

/-- What a BER command does once its window count is read (R272, R274). -/
def berWindowRead (d : Dvb) (s : State) : State :=
  berWindowDone d (fieldValue (berWindowField d s.cfg.chipMap) s.got) s

/-- What a BER command does once its error count is read (R274, R276). -/
def berErrorsRead (d : Dvb) (win : Nat) (s : State) : State :=
  berErrorsDone d win (fieldValue (berErrorField d s.cfg.chipMap) s.got) s

section
variable {s : State} (hid : Idle s) (hc : s.chipReady = true)
include hid hc

theorem exec_gain_begins : exec .gain s =
    .next (runCommand (load (fieldsReads (gainFields s.cfg.chipMap)) .gain gainDone (accept .gain s))) :=
  congrArg _ (submit_measure .gain gainBegin hid hc)

theorem exec_cnrS1_begins : exec .cnrS1 s =
    .next (runCommand (load (fieldsReads (cnrS1Fields s.cfg.chipMap)) .cnrS1 cnrS1Done (accept .cnrS1 s))) :=
  congrArg _ (submit_measure .cnrS1 cnrS1Begin hid hc)

theorem exec_cnrS2_begins : exec .cnrS2 s =
    .next (runCommand (load (fieldsReads (cnrS2Fields s.cfg.chipMap)) .cnrS2 cnrS2Done (accept .cnrS2 s))) :=
  congrArg _ (submit_measure .cnrS2 cnrS2Begin hid hc)

theorem exec_ber_begins (d : Dvb) : exec (Claims.berInstr d) s =
    .next (runCommand (load (fieldsReads [berWindowField d s.cfg.chipMap]) (.berWindow d) (berWindowRead d)
      (accept (Claims.berInstr d) s))) := by
  rw [fieldsReads_singleton]
  cases d with
  | s1 => exact congrArg _ (submit_measure .berS1 (berBegin .s1) hid hc)
  | s2 => exact congrArg _ (submit_measure .berS2 (berBegin .s2) hid hc)

end

/-! ## What follows the reads -/

theorem phaseDone_gain (u : State) (h : u.phase = .gain) : phaseDone u = gainDone u := by
  simp only [phaseDone, h]

theorem phaseDone_cnrS1 (u : State) (h : u.phase = .cnrS1) : phaseDone u = cnrS1Done u := by
  simp only [phaseDone, h]

theorem phaseDone_cnrS2 (u : State) (h : u.phase = .cnrS2) : phaseDone u = cnrS2Done u := by
  simp only [phaseDone, h]

theorem phaseDone_berWindow (d : Dvb) (u : State) (h : u.phase = .berWindow d) : phaseDone u = berWindowRead d u := by
  simp only [phaseDone, h, berWindowRead]

theorem phaseDone_berErrors (d : Dvb) (win : Nat) (u : State) (h : u.phase = .berErrors d win) :
    phaseDone u = berErrorsRead d win u := by
  simp only [phaseDone, h, berErrorsRead]

/-! ## The first read -/

/-- A phase with reads, nothing yet from the chip: the first of them is issued, and the command waits (R88). -/
theorem runCommand_load_waits {txns : List Txn} {t : Txn} {ts : List Txn} (ht : txns = t :: ts) (p : Phase)
    (k : State → State) {s : State} (ho : s.orphan = none) (hw : Claims.Waits s.inputs) :
    runCommand (load txns p k s) =
      { s with phase := p, todo := t :: ts, got := [], outputs := s.outputs ++ [.bus t] } := by
  rw [load_issues ht p k ho]
  exact runCommand_waits hw

/-- Settles O52: each command's begin is its own lemma, and the wait is the same for all. -/
theorem measurementsIssueTheirFirstRead : Obligations.MeasurementsIssueTheirFirstRead := by
  intro s i p fs t ts hmem hid hc ho hw hreads
  have waits (k : State → State) :=
    runCommand_load_waits (txns := fieldsReads fs) hreads p k (s := accept i s) ho hw
  simp only [List.mem_cons, Prod.mk.injEq, List.not_mem_nil, or_false] at hmem
  rcases hmem with ⟨rfl, rfl, rfl⟩ | ⟨rfl, rfl, rfl⟩ | ⟨rfl, rfl, rfl⟩ | ⟨rfl, rfl, rfl⟩ | ⟨rfl, rfl, rfl⟩
  · exact (exec_gain_begins hid hc).trans (congrArg _ (waits _))
  · exact (exec_cnrS1_begins hid hc).trans (congrArg _ (waits _))
  · exact (exec_cnrS2_begins hid hc).trans (congrArg _ (waits _))
  · exact (exec_ber_begins hid hc .s1).trans (congrArg _ (waits _))
  · exact (exec_ber_begins hid hc .s2).trans (congrArg _ (waits _))

/-! ## Reads that all succeed -/

/-- The state of a measurement once the answers of its fields are read: nothing is delivered, and every read was issued. -/
def fieldsRead (p : Phase) (fs : List FieldDesc) (gs : List (List Answer)) (rest : List Stimulus) (s : State) : State :=
  { s with
    inputs := rest, phase := p, todo := [], got := gs.flatten.map Answer.byte
    outputs := s.outputs ++ Claims.issued (Claims.readsOf fs) }

/-- The reads of fields, every one a success: the command goes on from the bytes read (R90, R250). -/
theorem runOn_fieldsRead {fs : List FieldDesc} {gs : List (List Answer)} {p : Phase} {k : State → State}
    {rest : List Stimulus} {s : State} (hk : ∀ u : State, u.phase = p → phaseDone u = k u) (hr : s.running ≠ none)
    (ho : s.orphan = none) (h : Claims.FieldsAnswered fs gs) (hi : s.inputs = Claims.answers gs.flatten ++ rest) :
    runOn s.inputs (load (fieldsReads fs) p k s) = runOn rest (k (fieldsRead p fs gs rest s)) := by
  obtain ⟨hlen, hok⟩ := fieldsReads_allSucceed h
  exact load_reads_run _ p k _ rest s (fieldsReads_reads fs) hk hr ho hlen hok hi

theorem runCommand_fieldsRead {fs : List FieldDesc} {gs : List (List Answer)} {p : Phase} {k : State → State}
    {rest : List Stimulus} {s : State} (hk : ∀ u : State, u.phase = p → phaseDone u = k u)
    (hin : ∀ u : State, (k u).inputs = u.inputs) (hr : s.running ≠ none)
    (ho : s.orphan = none) (h : Claims.FieldsAnswered fs gs) (hi : s.inputs = Claims.answers gs.flatten ++ rest) :
    runCommand (load (fieldsReads fs) p k s) = runOn rest (k (fieldsRead p fs gs rest s)) := by
  rw [runCommand, load_inputs _ _ _ _ hin]
  exact runOn_fieldsRead hk hr ho h hi

/-- A measurement that ends with results r once its fields are read: the reads are all it leaves besides (R250, R311). -/
theorem exec_completes {i : Instr} {fs : List FieldDesc} {gs : List (List Answer)} {p : Phase} {k : State → State}
    {rest : List Stimulus} {s : State} {r : List Word}
    (hbegins : exec i s = .next (runCommand (load (fieldsReads fs) p k (accept i s))))
    (hk : ∀ u : State, u.phase = p → phaseDone u = k u) (hin : ∀ u : State, (k u).inputs = u.inputs)
    (ho : s.orphan = none) (h : Claims.FieldsAnswered fs gs) (hi : s.inputs = Claims.answers gs.flatten ++ rest)
    (hend : k (fieldsRead p fs gs rest (accept i s)) = complete (results r) (fieldsRead p fs gs rest (accept i s))) :
    exec i s = .next { Claims.ended s r with
      inputs := rest, outputs := s.outputs ++ Claims.issued (Claims.readsOf fs) } := by
  rw [hbegins, runCommand_fieldsRead hk hin (Option.some_ne_none _) (s := accept i s) ho h hi, hend, runOn_idle _ rfl]
  rfl

/-! ## GAIN -/

/-- GAIN with its reads answered completes with the values of its fields (R255). -/
theorem exec_gain {s : State} {gs : List (List Answer)} {rest : List Stimulus} (hid : Idle s) (hc : s.chipReady = true)
    (ho : s.orphan = none) (h : Claims.FieldsAnswered (gainFields s.cfg.chipMap) gs)
    (hi : s.inputs = Claims.answers gs.flatten ++ rest) :
    exec .gain s = .next { Claims.ended s ((gainValues s.cfg.quality (regime s.args[0].toNat)
        ((List.range 7).map (Claims.valueAt (gainFields s.cfg.chipMap) gs))).map s32) with
      inputs := rest, outputs := s.outputs ++ Claims.issued (Claims.readsOf (gainFields s.cfg.chipMap)) } := by
  refine exec_completes (exec_gain_begins hid hc) phaseDone_gain (fun _ => rfl) ho h hi ?_
  exact congrArg (fun raw => complete (results ((gainValues s.cfg.quality _ raw).map s32)) _) (fieldValues_valueAt h)

/-- The table sum of R252, entry by entry. -/
theorem stageSum_eq (mode : GainSumMode) (row : List Int) (code : Nat) :
    stageSum mode row code = match mode with
      | .inclusive => ((List.range (min code (row.length - 1) + 1)).map (row.getD · 0)).sum
      | .exclusive => ((List.range (min code row.length)).map (row.getD · 0)).sum := by
  cases mode with
  | inclusive =>
    cases row with
    | nil => simp [stageSum]
    | cons x row => exact sum_take_range _ _ (by simp)
  | exclusive => exact sum_take_range _ _ (Nat.min_le_right _ _)

/-- The baseband power by the two nibbles of the byte (R254). -/
theorem basebandPower_nibbles (q : QualityConfig) (hi lo : Fin 16) :
    basebandPower q (16 * hi.val + lo.val) = q.bbpTab[hi][lo] := by
  have hrow : (16 * hi.val + lo.val) / 16 = hi.val := by omega
  have hcol : (16 * hi.val + lo.val) % 16 = lo.val := by omega
  simp [basebandPower, hrow, hcol]

theorem basebandPower_of_lt {q : QualityConfig} {b : Nat} {bbp : Int} (hb : b < 256)
    (h : ∀ hi lo : Fin 16, b = 16 * hi.val + lo.val → bbp = q.bbpTab[hi][lo]) : basebandPower q b = bbp := by
  have hsplit : b = 16 * (b / 16) + b % 16 := (Nat.div_add_mod b 16).symm
  have hhi : b / 16 < 16 := by omega
  have hlo : b % 16 < 16 := by omega
  rw [h ⟨b / 16, hhi⟩ ⟨b % 16, hlo⟩ hsplit, ← basebandPower_nibbles, ← hsplit]

/-- Settles O47: the regime, the three table sums and the baseband power are the model's own. -/
theorem gainComputes : Obligations.GainComputes := by
  refine ⟨rfl, ?_⟩
  rintro s gs rest fs r v rf i bb tia pga2 bbp hid hc ho hfs hgs hi rfl hr hsum rfl rfl hbbp hbyte -
  obtain rfl : fs = gainFields s.cfg.chipMap := hfs
  have hregime : regime s.args[0].toNat = r := hr.symm
  have hrf := (hsum _ _ _ (.head _)).trans (stageSum_eq _ _ _).symm
  have hif := (hsum _ _ _ (.tail _ (.head _))).trans (stageSum_eq _ _ _).symm
  have hbb := (hsum _ _ _ (.tail _ (.tail _ (.head _)))).trans (stageSum_eq _ _ _).symm
  have hpower := basebandPower_of_lt hbyte hbbp
  rw [exec_gain hid hc ho hgs hi, hregime, hrf, hif, hbb, ← hpower]
  rfl

/-! ## CNR_S1 -/

/-- Settles O48: the ten values are the samples, and the clamped average is an entry of the table. -/
theorem cnrS1Computes : Obligations.CnrS1Computes := by
  refine ⟨rfl, ?_⟩
  rintro s gs rest fs avg v hid hc ho hfs hgs hi havg hv
  obtain rfl : fs = cnrS1Fields s.cfg.chipMap := hfs
  have haverage : average (fieldValues (cnrS1Fields s.cfg.chipMap) (gs.flatten.map Answer.byte)) = avg := by
    rw [fieldValues_valueAt hgs, havg]
    rfl
  have hentry : s.cfg.quality.lnTab.toList.getD v.val 0 = s.cfg.quality.lnTab[v] := by simp
  refine exec_completes (exec_cnrS1_begins hid hc) phaseDone_cnrS1 (fun _ => rfl) ho hgs hi ?_
  rw [← hentry, ← regWord_of_lt (v.isLt.trans (by decide)), hv, ← haverage]
  rfl

/-! ## CNR_S2 -/

/-- The signal samples are the squares of every third value (R265). -/
theorem signalSamples_eq (v : Nat → Nat) :
    signalSamples ((List.range 30).map v) = (List.range 10).map fun k => v (3 * k) * v (3 * k) := rfl

/-- The noise samples are made of the two values after each of those (R265). -/
theorem noiseSamples_eq (w : Nat) (v : Nat → Nat) :
    noiseSamples w ((List.range 30).map v) =
      (List.range 10).map fun k => (v (3 * k + 1) * 2 ^ w + v (3 * k + 2) % 2 ^ w) % 2 ^ 14 := rfl

/-- CNR_S2 with its reads answered completes with what the two averages give (R265 to R268). -/
theorem exec_cnrS2 {s : State} {gs : List (List Answer)} {rest : List Stimulus} {v : Nat → Nat} {sig noise : Nat}
    (hid : Idle s) (hc : s.chipReady = true) (ho : s.orphan = none)
    (h : Claims.FieldsAnswered (cnrS2Fields s.cfg.chipMap) gs) (hi : s.inputs = Claims.answers gs.flatten ++ rest)
    (hv : v = Claims.valueAt (cnrS2Fields s.cfg.chipMap) gs)
    (hsig : sig = ((List.range 10).map fun k => v (3 * k) * v (3 * k)).sum / 10)
    (hnoise : noise = ((List.range 10).map fun k => (v (3 * k + 1) * 2 ^ s.cfg.quality.noiseLoWidth
      + v (3 * k + 2) % 2 ^ s.cfg.quality.noiseLoWidth) % 2 ^ 14).sum / 10) :
    exec .cnrS2 s = .next { Claims.ended s [s32 (cnrS2Value s.cfg.quality sig noise).1, regWord sig, regWord noise,
        indexWord (cnrS2Value s.cfg.quality sig noise).2] with
      inputs := rest, outputs := s.outputs ++ Claims.issued (Claims.readsOf (cnrS2Fields s.cfg.chipMap)) } := by
  have hvals : fieldValues (cnrS2Fields s.cfg.chipMap) (gs.flatten.map Answer.byte) = (List.range 30).map v := by
    rw [fieldValues_valueAt h, hv]
    rfl
  rw [← signalSamples_eq, ← hvals] at hsig
  rw [← noiseSamples_eq, ← hvals] at hnoise
  refine exec_completes (exec_cnrS2_begins hid hc) phaseDone_cnrS2 (fun _ => rfl) ho h hi ?_
  rw [hsig, hnoise]
  rfl

section
variable {q : QualityConfig} {sig noise : Nat} {idx : Fin 80}

theorem cnrS2Value_bothZero (hs : sig = 0) (hn : noise = 0) : cnrS2Value q sig noise = (q.cnrBothZero, none) :=
  if_pos ⟨hs, hn⟩

theorem cnrS2Value_noiseZero (hs : sig ≠ 0) (hn : noise = 0) : cnrS2Value q sig noise = (q.cnrNoiseZero, none) :=
  (if_neg fun h => hs h.1).trans (if_pos hn)

theorem cnrS2Value_signalZero (hs : sig = 0) (hn : noise ≠ 0) : cnrS2Value q sig noise = (q.cnrSigZero, none) :=
  (if_neg fun h => hn h.2).trans ((if_neg hn).trans (if_pos hs))

/-- Signal at or above noise: the entry of the clamped ratio (R267). -/
theorem cnrS2Value_signal (hs : sig ≠ 0) (hn : noise ≠ 0) (h : noise ≤ sig) (hidx : idx.val = min (sig / noise) 80 - 1) :
    cnrS2Value q sig noise = (q.log10Tab[idx], some idx.val) := by
  have hindex : cnrS2Index sig noise = idx.val := by rw [hidx, cnrS2Index, if_pos h]; rfl
  simp [cnrS2Value, hs, hn, h, hindex]

/-- Noise above signal: the entry of the clamped ratio, negated (R267). -/
theorem cnrS2Value_noise (hs : sig ≠ 0) (hn : noise ≠ 0) (h : sig < noise) (hidx : idx.val = min (noise / sig) 80 - 1) :
    cnrS2Value q sig noise = (-q.log10Tab[idx], some idx.val) := by
  have hindex : cnrS2Index sig noise = idx.val := by rw [hidx, cnrS2Index, if_neg (Nat.not_le.mpr h)]; rfl
  simp [cnrS2Value, hs, hn, Nat.not_le.mpr h, hindex]

end

theorem indexWord_some (idx : Fin 80) : indexWord (some idx.val) = BitVec.ofNat 32 idx.val :=
  regWord_of_lt (idx.isLt.trans (by decide))

/-- Settles O49: each of the five cases of the two averages has its own value. -/
theorem cnrS2Computes : Obligations.CnrS2Computes := by
  refine ⟨rfl, ?_⟩
  rintro s gs rest fs sig noise v done hid hc ho hfs hgs hi hv hsig hnoise hdone
  obtain rfl : fs = cnrS2Fields s.cfg.chipMap := hfs
  have hexec := exec_cnrS2 hid hc ho hgs hi hv hsig hnoise
  refine ⟨fun hs hn => ?bothZero, fun hs hn => ?noiseZero, fun hs hn => ?signalZero, fun idx hs hn hle hidx => ?signal,
    fun idx hs hn hlt hidx => ?noise⟩
  case bothZero => rw [hexec, cnrS2Value_bothZero hs hn, hdone]; rfl
  case noiseZero => rw [hexec, cnrS2Value_noiseZero hs hn, hdone]; rfl
  case signalZero => rw [hexec, cnrS2Value_signalZero hs hn, hdone]; rfl
  case signal => rw [hexec, cnrS2Value_signal hs hn hle hidx, hdone, indexWord_some]; rfl
  case noise => rw [hexec, cnrS2Value_noise hs hn hlt hidx, hdone, indexWord_some]; rfl

/-! ## BER -/

theorem lowWord_eq (v : BitVec 64) : lowWord v = BitVec.ofNat 32 (v.toNat % 2 ^ 32) := by
  apply BitVec.eq_of_toNat_eq
  simp [lowWord]

theorem highWord_eq (v : BitVec 64) : highWord v = BitVec.ofNat 32 (v.toNat / 2 ^ 32) := by
  apply BitVec.eq_of_toNat_eq
  simp [highWord, Nat.shiftRight_eq_div_pow]

/-- The ratio's value: 0 for an empty count, else floored and saturated (R278). -/
theorem berQ32_toNat (e c : BitVec 64) :
    (berQ32 e c).toNat = if c.toNat = 0 then 0 else min (e.toNat * 2 ^ 32 / c.toNat) (2 ^ 64 - 1) := by
  have hzero : c = 0 ↔ c.toNat = 0 := by rw [← BitVec.toNat_inj]; rfl
  rw [berQ32]
  simp only [hzero]
  split
  · rfl
  · rw [BitVec.toNat_ofNat, Nat.mod_eq_of_lt]
    omega

/-- The row of R270 is the model's own parameters. -/
theorem berRow_eq (c : Config) (d : Dvb) : Claims.berRow c d =
    (berWindowField d c.chipMap, berErrorField d c.chipMap, berThreshold d c.quality, berBitsPerCount d c.quality,
      berRestartProgram d c.programs) := by
  cases d <;> rfl

/-- A BER command that completes after transactions evs, with its accumulators at e and c (R278 to R280). -/
theorem berFinish_ended (i : Instr) (s : State) (p : Phase) (bs : List Byte) (rest : List Stimulus) (evs : List PortEvent)
    (chip : Memory) (e c : BitVec 64) (accepted : Bool) (win err : Nat) :
    berFinish accepted win err { accept i s with
        inputs := rest, phase := p, todo := [], got := bs, outputs := s.outputs ++ evs, chip := chip, accErr := e
        accCnt := c } =
      Claims.berEnded s rest evs chip e c accepted.toNat win err := by
  rw [berFinish, lowWord_eq, highWord_eq, berQ32_toNat]
  cases accepted <;> rfl

theorem berWindowDone_atThreshold {d : Dvb} {win : Nat} {s : State} (h : win ≤ berThreshold d s.cfg.quality) :
    berWindowDone d win s = berFinish false win 0 s := if_neg (Nat.not_lt.mpr h)

theorem berWindowDone_aboveThreshold {d : Dvb} {win : Nat} {s : State} (h : berThreshold d s.cfg.quality < win) :
    berWindowDone d win s =
      load (fieldsReads [berErrorField d s.cfg.chipMap]) (.berErrors d win) (berErrorsRead d win) s := by
  rw [fieldsReads_singleton]
  exact if_pos h

theorem berErrorsDone_inputs (d : Dvb) (win err : Nat) (s : State) : (berErrorsDone d win err s).inputs = s.inputs :=
  load_inputs _ _ _ _ fun _ => rfl

theorem berWindowDone_inputs (d : Dvb) (win : Nat) (s : State) : (berWindowDone d win s).inputs = s.inputs := by
  unfold berWindowDone
  split
  · exact load_inputs _ _ _ _ fun u => berErrorsDone_inputs d win _ u
  · rfl

/-- What one field's reads give is its value (R90). -/
theorem fieldValue_fieldsRead (p : Phase) (f : FieldDesc) (g : List Answer) (rest : List Stimulus) (s : State) :
    fieldValue f (fieldsRead p [f] [g] rest s).got = Claims.fieldOf f g := by
  rw [← fieldValue_answers, fieldsRead, List.flatten_singleton]

section
variable {d : Dvb} {s : State} {g : List Answer} {rest : List Stimulus}

/-- A BER command with its window count read (R271). -/
theorem exec_ber_window (hid : Idle s) (hc : s.chipReady = true) (ho : s.orphan = none)
    (h : Claims.FieldsAnswered [berWindowField d s.cfg.chipMap] [g]) (hi : s.inputs = Claims.answers g ++ rest) :
    exec (Claims.berInstr d) s = .next (runOn rest (berWindowDone d (Claims.fieldOf (berWindowField d s.cfg.chipMap) g)
      (fieldsRead (.berWindow d) [berWindowField d s.cfg.chipMap] [g] rest (accept (Claims.berInstr d) s)))) := by
  have hi' : s.inputs = Claims.answers [g].flatten ++ rest := by rwa [List.flatten_singleton]
  rw [exec_ber_begins hid hc, runCommand_fieldsRead (phaseDone_berWindow d) (fun u => berWindowDone_inputs d _ u)
    (Option.some_ne_none _) (s := accept (Claims.berInstr d) s) ho h hi', ← fieldValue_fieldsRead (.berWindow d) _ g rest]
  rfl

/-- The reads of the error count after an accepted window (R274). -/
theorem runOn_berErrors {win : Nat} (hr : s.running ≠ none) (ho : s.orphan = none)
    (h : Claims.FieldsAnswered [berErrorField d s.cfg.chipMap] [g]) (hi : s.inputs = Claims.answers g ++ rest) :
    runOn s.inputs (load (fieldsReads [berErrorField d s.cfg.chipMap]) (.berErrors d win) (berErrorsRead d win) s) =
      runOn rest (berErrorsDone d win (Claims.fieldOf (berErrorField d s.cfg.chipMap) g)
        (fieldsRead (.berErrors d win) [berErrorField d s.cfg.chipMap] [g] rest s)) := by
  have hi' : s.inputs = Claims.answers [g].flatten ++ rest := by rwa [List.flatten_singleton]
  rw [runOn_fieldsRead (phaseDone_berErrors d win) hr ho h hi', ← fieldValue_fieldsRead (.berErrors d win) _ g rest]
  rfl

/-- The accumulation and the restart program, every transaction a success; the command then completes (R276, R277). -/
theorem runOn_berRestart {r : List Answer} {win err : Nat} (hr : s.running ≠ none) (ho : s.orphan = none)
    (h : Claims.AllSucceed (berRestartProgram d s.cfg.programs) r) (hi : s.inputs = Claims.answers r ++ rest) :
    runOn s.inputs (berErrorsDone d win err s) = berFinish true win err { s with
      inputs := rest, phase := .berRestart d win err, todo := []
      got := readBytes (berRestartProgram d s.cfg.programs) r
      outputs := s.outputs ++ Claims.issued (berRestartProgram d s.cfg.programs)
      chip := Memory.storeAll (Claims.deliveredBy (berRestartProgram d s.cfg.programs) r) s.chip
      accErr := s.accErr + BitVec.ofNat 64 err
      accCnt := s.accCnt + BitVec.ofNat 64 (win * berBitsPerCount d s.cfg.quality) } := by
  obtain ⟨hlen, hok⟩ := h
  have hrun := load_run _ (.berRestart d win err) (berRestartDone win err) r rest (berAccumulate d win err s) _ hr ho hlen
    hok hi rfl rfl
  rw [deliveredBy_eq]
  exact hrun.trans (runOn_idle rest rfl)

/-- An accepted window: the error count is read, the accumulators grow, the restart program runs (R274 to R277). -/
theorem runOn_berAccepted {r : List Answer} {win err : Nat} (hr : s.running ≠ none) (ho : s.orphan = none)
    (hwin : berThreshold d s.cfg.quality < win) (hg : Claims.FieldsAnswered [berErrorField d s.cfg.chipMap] [g])
    (herr : err = Claims.fieldOf (berErrorField d s.cfg.chipMap) g)
    (h : Claims.AllSucceed (berRestartProgram d s.cfg.programs) r)
    (hi : s.inputs = Claims.answers g ++ (Claims.answers r ++ rest)) :
    runOn s.inputs (berWindowDone d win s) = berFinish true win err { s with
      inputs := rest, phase := .berRestart d win err, todo := []
      got := readBytes (berRestartProgram d s.cfg.programs) r
      outputs := s.outputs ++ Claims.issued (Claims.readsOf [berErrorField d s.cfg.chipMap])
        ++ Claims.issued (berRestartProgram d s.cfg.programs)
      chip := Memory.storeAll (Claims.deliveredBy (berRestartProgram d s.cfg.programs) r) s.chip
      accErr := s.accErr + BitVec.ofNat 64 err
      accCnt := s.accCnt + BitVec.ofNat 64 (win * berBitsPerCount d s.cfg.quality) } := by
  rw [berWindowDone_aboveThreshold hwin, runOn_berErrors hr ho hg hi, ← herr]
  exact runOn_berRestart (s := fieldsRead (.berErrors d win) [berErrorField d s.cfg.chipMap] [g] _ s) hr ho h rfl

end

/-- The accumulators wrap modulo 2^64 (R276). -/
theorem add_ofNat_wraps (a : BitVec 64) (n : Nat) : a + BitVec.ofNat 64 n = BitVec.ofNat 64 (a.toNat + n) := by
  rw [BitVec.ofNat_add, BitVec.ofNat_toNat, BitVec.setWidth_eq]

/-- Settles O50: the window count is read, and the command completes with the accumulators as they were. -/
theorem berWindowAtThresholdIsNotAccepted : Obligations.BerWindowAtThresholdIsNotAccepted := by
  intro d s g rest win hid hc ho hg hi hwin hle
  rw [berRow_eq] at hg hwin hle ⊢
  rw [exec_ber_window hid hc ho hg hi, ← hwin, berWindowDone_atThreshold (by exact hle), runOn_idle rest rfl]
  exact congrArg _ (berFinish_ended _ s _ _ rest _ s.chip s.accErr s.accCnt false win 0)

/-- Settles O51: window reads, error reads and restart program, each phase run through by its own lemma. -/
theorem berWindowAboveThresholdIsAccumulated : Obligations.BerWindowAboveThresholdIsAccumulated := by
  refine ⟨rfl, rfl, ?_⟩
  intro d s g h r rest wf ef thr bits restart win err hrow hid hc ho hg hh hr hi hwin herr hlt
  rw [berRow_eq, Prod.mk.injEq, Prod.mk.injEq, Prod.mk.injEq, Prod.mk.injEq] at hrow
  obtain ⟨rfl, rfl, rfl, rfl, rfl⟩ := hrow
  have hrun := runOn_berAccepted (s := fieldsRead (.berWindow d) [berWindowField d s.cfg.chipMap] [g]
    (Claims.answers h ++ (Claims.answers r ++ rest)) (accept (Claims.berInstr d) s)) (Option.some_ne_none _) ho hlt hh herr
    hr rfl
  rw [exec_ber_window hid hc ho hg hi, ← hwin, ← add_ofNat_wraps, ← add_ofNat_wraps, List.append_assoc]
  refine congrArg _ (hrun.trans (Eq.trans ?_ (berFinish_ended (Claims.berInstr d) s (.berRestart d win err)
    (readBytes (berRestartProgram d s.cfg.programs) r) rest _ _ _ _ true win err)))
  simp only [fieldsRead, List.append_assoc]
  rfl

end Sys2Proof.Machine

/-! The system commands (44_system.md): NOP (R300), and RESET with the transaction it may abandon (R301, R352, R353). -/

namespace Sys2Proof.Machine

/-! ## RESET -/

/-- What holds the bus: the transaction an earlier reset abandoned, else the running command's outstanding one (R352). -/
theorem inFlight_eq (s : State) : inFlight s = if s.orphan = none then s.todo.head? else s.orphan := by
  unfold inFlight
  cases s.orphan with
  | none => rfl
  | some t => rfl

/-- Settles O13: RESET does not ask whether a command runs, and what it leaves on the bus is what was in flight. -/
theorem resetCommandKeepsCtrl : Obligations.ResetCommandKeepsCtrl := by
  refine ⟨rfl, fun s => ?_⟩
  rw [← inFlight_eq]
  rfl

/-! ## NOP -/

/-- Settles O15: an idle block accepts NOP and completes at once, with no named result; a busy one only overruns (R320). -/
theorem nopCompletes : Obligations.NopCompletes := by
  refine ⟨rfl, fun s => ⟨fun hid => ?idle, fun hbusy => ?busy⟩⟩
  case idle =>
    rw [exec, execNop, submit_idle .nop _ hid, runCommand_complete]
    exact congrArg _ (complete_results_accept .nop [] s)
  case busy =>
    rw [exec, execNop, submit_busy .nop _ hbusy]
    rfl

end Sys2Proof.Machine

/-! What a host write of CMD leads to (60_exceptions.md): the step decodes the word (R310) and runs the command, ends an idle
block's illegal word with ILLEGAL (R315), or overruns a busy block (R320); and NOT_READY, with which a bus-using command ends
where chip_ready is 0 (R316). -/

namespace Sys2Proof.Machine

/-! ## The submitted word -/

/-- A command's word runs as that command (R310). -/
theorem submitWord_of_decode {w : Word} {i : Instr} (h : decode w = .ok i) (s : State) : submitWord w s = exec i s := by
  rw [submitWord, h]

/-- A word that is no command's is submitted as illegal (R116). -/
theorem submitWord_of_illegal {w : Word} (h : ∀ i, w ≠ encode i) (s : State) :
    submitWord w s = .next (submitIllegal w s) := by
  unfold submitWord
  split
  · next i hi => exact absurd (encode_of_decode hi) (h i)
  · rfl

/-- Settles O4: the step is the submission of the word, and a word that decodes is submitted by exec. -/
theorem stepRunsSubmittedCommand : Obligations.StepRunsSubmittedCommand := by
  intro s w i rest hi hr hdec
  rw [step_submit hi hr, submitWord_of_decode hdec]

/-! ## ILLEGAL -/

/-- On an idle block an illegal word latches the operands, as acceptance does, and ends with ILLEGAL (R310, R315). -/
theorem submitIllegal_idle (w : Word) {s : State} (hid : Idle s) :
    submitIllegal w s = Claims.failedWith s .illegal w := by
  rw [submitIllegal, if_neg (by simp [not_busy_of_idle hid])]
  rfl

/-- On a busy block an illegal word is an overrun (R320). -/
theorem submitIllegal_busy (w : Word) {s : State} (hbusy : s.running ≠ none) : submitIllegal w s = setOverrun s :=
  if_pos (Option.isSome_iff_ne_none.mpr hbusy)

/-- Settles O5: the word is submitted as illegal, and the block is idle. -/
theorem illegalWordEndsWithIllegal : Obligations.IllegalWordEndsWithIllegal := by
  intro s w rest hi hr hid hw
  rw [step_submit hi hr, submitWord_of_illegal hw, submitIllegal_idle w (s := { s with inputs := rest }) hid]
  rfl

/-! ## OVERRUN -/

/-- On a busy block every command but ABORT and RESET is an overrun (R320). -/
theorem exec_busy {i : Instr} {s : State} (hbusy : s.running ≠ none) (habort : i ≠ .abort) (hreset : i ≠ .reset) :
    exec i s = .next (setOverrun s) := by
  cases i with
  | abort => exact absurd rfl habort
  | reset => exact absurd rfl hreset
  | _ => exact congrArg _ (submit_busy _ _ hbusy)

/-- On a busy block every word but ABORT's and RESET's is an overrun, whether it decodes or not (R117, R320). -/
theorem submitWord_busy {w : Word} {s : State} (hbusy : s.running ≠ none) (habort : w ≠ encode .abort)
    (hreset : w ≠ encode .reset) : submitWord w s = .next (setOverrun s) := by
  by_cases hw : ∃ i, w = encode i
  · obtain ⟨i, rfl⟩ := hw
    rw [submitWord_of_decode (decode_encode i)]
    exact exec_busy hbusy (ne_of_apply_ne encode habort) (ne_of_apply_ne encode hreset)
  · rw [submitWord_of_illegal (not_exists.mp hw), submitIllegal_busy w hbusy]

/-- Settles O6: 0x11 and 0xFF are the words of ABORT and RESET, and any other word is an overrun. -/
theorem busyWordOnlySetsOverrun : Obligations.BusyWordOnlySetsOverrun := by
  intro s w rest hi hr hbusy habort hreset
  rw [step_submit hi hr]
  exact submitWord_busy (s := { s with inputs := rest }) hbusy habort hreset

/-! ## NOT_READY -/

section
variable {s : State} (hid : Idle s) (hc : s.chipReady = false)
include hid hc

/-- Without a ready chip a measurement command ends at its word, before its first read (R250, R316). -/
theorem submit_measure_notReady (i : Instr) (begin_ : State → State) :
    submit i (measureStart i begin_) s = Claims.failedWith s .notReady (infoNotReady (opcOf i)) := by
  have hstart : measureStart i begin_ (accept i s) = raiseNotReady i (accept i s) := if_neg (by simp [hc])
  rw [submit_idle _ _ hid, hstart, raiseNotReady, runCommand_raiseError]
  rfl

/-- Without a ready chip TUNE ends before CHECK, its request latched and LockState Idle (R201, R202, R316). -/
theorem exec_tune_notReady : exec .tune s =
    .next { Claims.failedWith s .notReady (infoNotReady 0x10) with tr := Claims.request s, lockState := .idle } := by
  have hstart : tuneStart (accept .tune s) = raiseNotReady .tune (checking s) := if_neg (by simp [hc])
  rw [exec, execTune, submit_idle _ _ hid, hstart, raiseNotReady, runCommand_raiseError]
  rfl

end

/-- Settles O31: TUNE is refused after latching its request, the five measurements in one way. -/
theorem notReadyEndsBusCommandsAtOnce : Obligations.NotReadyEndsBusCommandsAtOnce := by
  intro s hid hc
  have refused (i : Instr) (begin_ : State → State) := submit_measure_notReady hid hc i begin_
  exact ⟨exec_tune_notReady hid hc, congrArg _ (refused .gain gainBegin), congrArg _ (refused .cnrS1 cnrS1Begin),
    congrArg _ (refused .cnrS2 cnrS2Begin), congrArg _ (refused .berS1 (berBegin .s1)),
    congrArg _ (refused .berS2 (berBegin .s2))⟩

end Sys2Proof.Machine

/-! Reset and what is in progress when it, or a host write, comes (70_reset_and_hazards.md): rst_n's two levels (R350, R351),
a transaction that a reset abandoned (R352), and a computation that takes time, which ends from the operands that acceptance
latched (R362, R372). -/

namespace Sys2Proof.Machine

/-! ## rst_n -/

/-- Settles O12: the low level is the reset of the block, which leaves on the bus what was in flight. -/
theorem rstNLowResetsAndIgnoresWrites : Obligations.RstNLowResetsAndIgnoresWrites := by
  refine ⟨fun s rest hi => ?low, fun s off v rest hi hr h4 hl => ?write, fun s rest hi => step_stimulus hi⟩
  case low =>
    rw [step_stimulus hi, ← inFlight_eq]
    rfl
  case write =>
    rw [step_hostWrite hi h4 hl]
    exact hostWrite_inReset off v (s := { s with inputs := rest }) hr

/-! ## An abandoned transaction -/

/-- Settles O14: the answer frees the bus, on which a command that waited for it issues its first transaction. -/
theorem abandonedTransactionIsDiscarded : Obligations.AbandonedTransactionIsDiscarded := by
  intro s t a rest hi ho
  rw [step_answer hi, chipAnswer_orphan a (by exact ho)]
  rcases issueHead_cases { deliver t a { s with inputs := rest } with orphan := none } with
    ⟨u, us, -, htodo, hissue⟩ | ⟨hwait, hissue⟩
  · have ht : s.todo = u :: us := htodo
    rw [hissue]
    simp only [ht]
    rfl
  · have ht : s.todo = [] := hwait.resolve_left fun ho => ho rfl
    rw [hissue]
    simp only [ht, List.append_nil]
    rfl

/-! ## What a computation reads -/

/-- A reaction that reads its operands from the latch alone: where the command stood before, and what the host has since
written to ARG and CTRL, make no difference to it, and it writes neither register (R40, R362). -/
def UsesLatched (f : State → State) : Prop :=
  ∀ (s : State) (p : Phase) (a : Vector Word 8) (c : Word),
    f { s with phase := p, args := a, ctrl := c } = { f s with args := a, ctrl := c }

/-- Such a reaction leaves ARG and CTRL alone, so the phase makes no difference by itself. -/
theorem UsesLatched.phase {f : State → State} (h : UsesLatched f) (s : State) (p : Phase) :
    f { s with phase := p } = f s :=
  (h s p s.args s.ctrl).trans (h s s.phase s.args s.ctrl).symm

theorem complete_usesLatched (r : Vector Word 8) : UsesLatched (complete r) := fun _ _ _ _ => rfl

theorem raiseParam_usesLatched (i : Instr) (e : ParamCheck) : UsesLatched (raiseParam i e) := fun _ _ _ _ => rfl

/-- Issuing a transaction looks at the bus and the transactions to come only. -/
theorem issueHead_hostRegs (s : State) (a : Vector Word 8) (c : Word) :
    issueHead { s with args := a, ctrl := c } = { issueHead s with args := a, ctrl := c } := by
  rcases issueHead_cases s with ⟨t, rest, ho, ht, h⟩ | ⟨ho | ht, h⟩
  · rw [h, issueHead_issues (by exact ho) (by exact ht)]
    rfl
  · obtain ⟨t, ht⟩ := Option.ne_none_iff_exists'.mp ho
    rw [h, issueHead_waits (by exact ht)]
  · rw [h, issueHead_empty (by exact ht)]

theorem load_usesLatched (txns : List Txn) (p : Phase) {whenNone : State → State} (h : UsesLatched whenNone) :
    UsesLatched (load txns p whenNone) := by
  intro s q a c
  cases txns with
  | nil => exact h { s with phase := p, todo := [], got := [] } p a c
  | cons t rest => exact issueHead_hostRegs { s with phase := p, todo := t :: rest, got := [] } a c

theorem boundary_usesLatched (st : SeqStep) {body : State → State} (h : UsesLatched body) :
    UsesLatched (boundary st body) := by
  intro s p a c
  rcases Bool.eq_false_or_eq_true s.abortReq with ha | ha
  · rw [boundary_aborted st body ha, boundary_aborted st body (by exact ha)]
    rfl
  · rw [boundary_open st body ha, boundary_open st body (by exact ha)]
    exact h { s with seq := st } p a c

/-- P_MCLK's effect is of PLAN and MCLK_KHZ only. -/
theorem stepEffect_hostRegs (st : SeqStep) (s : State) (p : Phase) (a : Vector Word 8) (c : Word) :
    stepEffect st { s with phase := p, args := a, ctrl := c } =
      { stepEffect st s with phase := p, args := a, ctrl := c } := by
  unfold stepEffect
  split <;> rfl

theorem pollRead_usesLatched : UsesLatched pollRead := by
  refine boundary_usesLatched .pollRead fun s p a c => ?_
  exact issueHead_hostRegs
    { s with phase := .pollRead, todo := [.read s.cfg.chipMap.lockStatusAddr], got := [] } a c

/-- Programming reads the request and the plan. -/
theorem programFrom_usesLatched (sts : List SeqStep) : UsesLatched (programFrom sts) := by
  induction sts with
  | nil => exact fun s => pollRead_usesLatched { s with lockState := .polling }
  | cons st sts ih =>
    have next : UsesLatched fun s => programFrom sts (stepEffect st s) := fun s p a c => by
      simp only [stepEffect_hostRegs, ih (stepEffect st s) p a c]
    exact boundary_usesLatched st fun s => load_usesLatched (stepProgram st s.cfg s.tr s.plan) .program next s

/-- CHECK, and the programming it leads to, read the request that TUNE's acceptance latched (R51). -/
theorem tuneCheck_usesLatched : UsesLatched tuneCheck := by
  intro s p a c
  simp only [tuneCheck]
  split
  · exact raiseParam_usesLatched _ _ s p a c
  · split
    · next plan e _ => exact raiseParam_usesLatched .tune e { s with plan := plan } p a c
    · next plan _ => exact programFrom_usesLatched programmingSteps { s with
        plan := plan, lockState := .programming, accErr := 0, accCnt := 0, pollIter := 0, lastLockByte := 0
        selIsi := 0 } p a c

/-- The commands that compute before they do anything else: the five computations, and TUNE with its CHECK (R372). -/
def computingCommands : List Instr := [.gold, .pll, .mclk, .tsclk, .lpf, .tune]

theorem pure_or_tune {i : Instr} (hi : i ∈ computingCommands) : i ∈ pureCommands ∨ i = .tune := by
  simpa only [List.mem_singleton] using List.mem_append (s := pureCommands) (t := [.tune]) |>.mp hi

theorem pllBody_usesLatched : UsesLatched pllBody := by
  intro s p a c
  simp only [pllBody, pllTargetMhz, pllRefClockKhz]
  split
  · exact raiseParam_usesLatched .pll _ s p a c
  · exact complete_usesLatched _ s p a c

theorem tsclkBody_usesLatched : UsesLatched tsclkBody := by
  intro s p a c
  simp only [tsclkBody, tsclkFeedback, tsclkMclkKhz]
  split
  · exact raiseParam_usesLatched .tsclk _ s p a c
  · exact complete_usesLatched _ s p a c

/-- What a command computes, it computes from the latch (R40, R362): GOLD, MCLK and LPF only complete, PLL and TSCLK may be
rejected, and TUNE goes on from CHECK. -/
theorem computation_usesLatched (i : Instr) (hi : i ∈ computingCommands) : UsesLatched (computation i) := by
  simp only [computingCommands, List.mem_cons, List.not_mem_nil, or_false] at hi
  rcases hi with rfl | rfl | rfl | rfl | rfl | rfl
  · exact fun _ _ _ _ => rfl
  · exact pllBody_usesLatched
  · exact fun _ _ _ _ => rfl
  · exact tsclkBody_usesLatched
  · exact fun _ _ _ _ => rfl
  · exact tuneCheck_usesLatched

/-! ## A held computation -/

/-- The state in which an accepted command begins to compute. -/
def computing (i : Instr) (s : State) : State := if i = .tune then checking s else accept i s

/-- What acceptance leaves, for TUNE as for the others. -/
theorem computing_frame (i : Instr) (s : State) :
    (computing i s).running = some i ∧ (computing i s).res = s.res ∧ (computing i s).outputs = s.outputs ∧
      (computing i s).args = s.args ∧ (computing i s).rstN = s.rstN ∧ (computing i s).inputs = s.inputs := by
  unfold computing
  split
  · next h => subst h; exact ⟨rfl, rfl, rfl, rfl, rfl, rfl⟩
  · exact ⟨rfl, rfl, rfl, rfl, rfl, rfl⟩

/-- Acceptance does not look at the stimuli to come. -/
theorem computing_inputs (i : Instr) (s : State) (l : List Stimulus) :
    computing i { s with inputs := l } = { computing i s with inputs := l } := by
  unfold computing
  split <;> rfl

/-- A computing command's word, on an idle block, leads to its computation, which may be held (R310, R372). -/
theorem exec_computes {i : Instr} (hi : i ∈ computingCommands) {s : State} (hid : Idle s)
    (hc : i = .tune → s.chipReady = true) :
    exec i s = .next (runCommand (computePoint (computation i) (computing i s))) := by
  rcases pure_or_tune hi with hpure | rfl
  · have hne : i ≠ .tune := by rintro rfl; exact absurd hpure (by decide)
    rw [exec_pure hpure, submit_idle i _ hid, computing, if_neg hne]
  · have hstart : tuneStart (accept .tune s) = computePoint tuneCheck (checking s) := if_pos (hc rfl)
    rw [exec, execTune, submit_idle .tune _ hid, hstart]
    rfl

/-- Once its computation is done a command has ended, or is a TUNE that waits for the chip. -/
theorem runCommand_computation {i : Instr} (hi : i ∈ computingCommands) {s : State}
    (hw : i = .tune → Claims.Waits s.inputs) : runCommand (computation i s) = computation i s := by
  rcases pure_or_tune hi with hpure | rfl
  · exact runOn_idle _ (computation_running hpure s)
  · exact runCommand_waits ((computation_keeps .tune s).inputs ▸ hw rfl)

/-- The computation in progress ends (R372). -/
theorem step_computeDone {i : Instr} {s : State} {rest : List Stimulus} (hi : s.inputs = .computeDone :: rest)
    (hp : s.phase = .computing) (hrun : s.running = some i) :
    step s = .next (computation i { s with inputs := rest, phase := .idle }) := by
  rw [step_stimulus hi, stimulusStep, react, computeDone]
  simp only [hp, hrun]

/-- Out of reset, a host write of an ARG register and one of CTRL take two steps (R32, R84). -/
theorem run_argCtrlWrites (n : Nat) {s : State} {k : Fin 8} {x c : Word} {rest : List Stimulus}
    (hi : s.inputs = .hostWrite (0x10 + 4 * k.val) 4 x :: .hostWrite 0x00 4 c :: rest) (hr : s.rstN = true) :
    Sys2Proof.core.run (n + 2) s =
      Sys2Proof.core.run n { s with inputs := rest, args := s.args.set k x, ctrl := c &&& 0x7 } := by
  have harg := step_writes hi hr (by omega) (by omega) (.arg k) rfl (by rintro ⟨⟩)
  have hctrl := step_writes (s := writeReg (.arg k) x { s with inputs := .hostWrite 0x00 4 c :: rest }) rfl hr
    (by decide) (by decide) .ctrl rfl (by decide)
  rw [run_succ (n + 1) harg, run_succ n hctrl]
  rfl

/-- Settles O30: held or not, the command computes from the same latched operands, and the phase in which it was
held makes no difference either. -/
theorem heldComputationEndsTheSame : Obligations.HeldComputationEndsTheSame := by
  intro i s rest after hi hid hin hrest hafter htune
  obtain ⟨hrun, hres, hout, hargs, hrst, hinp⟩ := computing_frame i s
  have hready (h : i = .tune) : s.chipReady = true := (htune h).1
  have latched := computation_usesLatched i hi
  have held : exec i s = .next { computing i s with inputs := rest, phase := .computing } := by
    rw [exec_computes hi hid hready, computePoint_held _ (hinp.trans hin), runCommand_waits hrest]
  have prompt : exec i { s with inputs := after } = .next (computation i { computing i s with inputs := after }) := by
    rw [exec_computes (s := { s with inputs := after }) hi hid hready, computing_inputs, computePoint_prompt _ hafter,
      runCommand_computation hi fun h => (htune h).2]
  refine ⟨_, _, held, hrun, hres, hout, rfl, prompt, fun hne => ?ends, ?done, fun hr k x c => ?rewritten⟩
  case ends => exact computation_running ((pure_or_tune hi).resolve_right hne) _
  case done =>
    rw [← latched.phase _ .idle]
    exact step_computeDone rfl rfl hrun
  case rewritten =>
    rw [← latched _ .idle, ← hargs]
    refine Eq.trans (run_argCtrlWrites 1 (by rfl) (hrst.trans hr)) (run_succ 0 ?_)
    exact step_computeDone rfl rfl hrun

end Sys2Proof.Machine
